-- ==== Sys2Proof/Word.lean ====
section
/-! DEFINITION. The widths of the block's values (10_state.md R31 to R60, 30_encoding.md R110). -/

namespace Sys2Proof

/-- A register, a host word, a heap key or weight, a command word: 32 bits (10_state.md, 30_encoding.md R110). -/
abbrev Word := BitVec 32

/-- A byte value, which is also a symbol (00_scope.md R22). -/
abbrev Byte := BitVec 8

/-- A node-arena index, with 0x1FF reserved for NONE (00_scope.md R12). -/
abbrev NodeIndex := BitVec 9

/-- The opaque handle of a heap item (10_state.md R55). -/
abbrev Tag := BitVec 16

end Sys2Proof
end

