-- ==== Sys2Proof/Config.lean ====
section
/-! DEFINITION. The block's parameters (00_scope.md R7 to R14), its address map (20_memory.md R81), and the free
values: what the spec leaves open is an opaque constant, of which nothing can be proved. -/

namespace Sys2Proof.Config

/-- MSG_MAX, bytes of the message buffer (R7). -/
def msgMax : Nat := 65536

/-- OUT_MAX, bytes of the output buffer (R8). -/
def outMax : Nat := 65536

/-- TBS_BITS, bits of the tree-bitstream buffer (R9). -/
def tbsBits : Nat := 2560

/-- MBS_BITS, bits of the message-bitstream buffer (R10). -/
def mbsBits : Nat := 524288

/-- HEAP_SLOTS, entries of the heap array (R11). -/
abbrev heapSlots : Nat := 256

/-- NODE_SLOTS, entries of the node arena (R12). -/
abbrev nodeSlots : Nat := 511

/-- Byte values, which is the number of entries of CODE and FREQ (10_state.md R59, R60). -/
abbrev symbols : Nat := 256

/-- CODE_MAX_LEN, the longest code and the greatest depth of a tree the block holds (R14). -/
abbrev codeMaxLen : Nat := 255

/-- NONE, the node index that names no node (R12). -/
def noNode : NodeIndex := 0x1FF#9

/-- The ID constant, "HUF7" (10_state.md R31). -/
def idValue : Word := 0x48554637#32

/-- The aperture's size in bytes, 1 MiB (20_memory.md R80). -/
def apertureSize : Nat := 0x100000

/-- First offset of MSG (20_memory.md R81). -/
def msgBase : Nat := 0x10000
/-- First offset of OUT (20_memory.md R81). -/
def outBase : Nat := 0x20000
/-- First offset of TBS (20_memory.md R81). -/
def tbsBase : Nat := 0x30000
/-- First offset after TBS, reserved from here to MBS (20_memory.md R81). -/
def tbsEnd : Nat := 0x30140
/-- First offset of MBS (20_memory.md R81). -/
def mbsBase : Nat := 0x40000
/-- First offset of the NODE window, which is also the first offset after MBS (20_memory.md R81). -/
def nodeBase : Nat := 0x50000
/-- First offset after the NODE window (20_memory.md R81). -/
def nodeEnd : Nat := 0x51FF0
/-- First offset of the CODE window (20_memory.md R81). -/
def codeBase : Nat := 0x60000
/-- First offset after the CODE window (20_memory.md R81). -/
def codeEnd : Nat := 0x64000
/-- First offset of the HEAP window (20_memory.md R81). -/
def heapBase : Nat := 0x70000
/-- First offset after the HEAP window (20_memory.md R81). -/
def heapEnd : Nat := 0x70800
/-- First offset of the FREQ window (20_memory.md R81). -/
def freqBase : Nat := 0x80000
/-- First offset after the FREQ window (20_memory.md R81). -/
def freqEnd : Nat := 0x80400

/-- BASE, the bus address of the aperture: OPEN, a platform parameter (R13). Log 8. -/
opaque base : Nat

/-- FREE VALUE: what draw `n` finds in the unwritten bits of the byte at offset `a` (20_memory.md R89, 10_state.md
R61 to R64). Each command and each host read draws under an index of its own, so no two reads need agree. Log 2. -/
opaque freeByte : Nat → Nat → Byte

/-- FREE VALUE: what a hazard read returns while BUSY = 1, at draw `n` (70_reset_and_hazards.md R285). Log 10. -/
opaque freeWord : Nat → Word

/-- FREE VALUE: how many host events come between the issue of a command, at draw `n`, and its completion: finite
and unbounded (70_reset_and_hazards.md R288). Log 4. -/
opaque freeDelay : Nat → Nat

end Sys2Proof.Config
end

