-- ==== Sys2Proof/Syntax.lean ====
section
/-! DEFINITION. The twelve commands, with the operand fields of their formats (30_encoding.md R112 to R117). -/

namespace Sys2Proof

/-- The heap's polarity: POL 0 is a min-heap, POL 1 a max-heap (30_encoding.md R112). -/
inductive Polarity where
  | min
  | max
deriving DecidableEq, Repr, Inhabited

/-- One constructor per row of opcode_table.json. -/
inductive Instr where
  /-- HEAP_NEW, format C (40_heap.md R144). -/
  | heapNew (cap : BitVec 9) (pol : Polarity)
  /-- HEAP_INSERT, format T, the key is ARG0 (40_heap.md R145). -/
  | heapInsert (tag : Tag)
  /-- HEAP_EXTRACT, format N (40_heap.md R146). -/
  | heapExtract
  /-- HEAP_PEEK, format I (40_heap.md R147). -/
  | heapPeek (idx : BitVec 9)
  /-- HEAP_SIZE, format N (40_heap.md R148). -/
  | heapSize
  /-- BUILD_TREE, format N (41_tree_builder.md R170). -/
  | buildTree
  /-- BUILD_INDEX, format N (43_message_codec.md R212). -/
  | buildIndex
  /-- ENCODE, format N (43_message_codec.md R213). -/
  | encode
  /-- ENCODE_TREE, format N (42_tree_serdes.md R193). -/
  | encodeTree
  /-- DESERIALIZE_TREE, format N (42_tree_serdes.md R194). -/
  | deserializeTree
  /-- DECODE, format N (43_message_codec.md R215). -/
  | decode
  /-- TEARDOWN, format N (44_lifecycle.md R240). -/
  | teardown
deriving DecidableEq, Repr

end Sys2Proof
end

