-- ==== Sys2Proof/WellFormed.lean ====
section
/-! DEFINITION. Which commands are legal: the only operand field with an illegal value is HEAP_NEW's CAP
(30_encoding.md R120). -/

namespace Sys2Proof

/-- A command whose operand fields all hold legal values (30_encoding.md R120). -/
def Instr.wellFormed : Instr → Bool
  | .heapNew cap _ => decide (cap.toNat ≤ Config.heapSlots)
  | .heapInsert _ => true
  | .heapExtract => true
  | .heapPeek _ => true
  | .heapSize => true
  | .buildTree => true
  | .buildIndex => true
  | .encode => true
  | .encodeTree => true
  | .deserializeTree => true
  | .decode => true
  | .teardown => true

end Sys2Proof
end

