-- ==== Sys2Proof/Decode.lean ====
section
/-! DEFINITION. The command decoder, total on 32-bit words (30_encoding.md R110 to R122), and the encoder, both
from the spec's opcode map and formats. -/

namespace Sys2Proof

/-- The operation a row of the opcode map selects, before its operands are read (30_encoding.md R117). -/
inductive Opcode where
  | heapNew | heapInsert | heapExtract | heapPeek | heapSize
  | buildTree | buildIndex | encode | encodeTree | deserializeTree | decode | teardown
deriving DecidableEq, Repr

/-- One row of the opcode map: OPC, the operation, and the mask with a 1 at every OPC bit and every reserved bit of
the row's format (30_encoding.md R117, R122). -/
structure OpcodeRow where
  opc : Byte
  op : Opcode
  mask : Word
deriving DecidableEq, Repr

/-- The opcode map (30_encoding.md R117, opcode_table.json). -/
def opcodeTable : List OpcodeRow :=
  [ ⟨0x01#8, .heapNew,         0xFEFE00FF#32⟩,
    ⟨0x02#8, .heapInsert,      0xFF0000FF#32⟩,
    ⟨0x03#8, .heapExtract,     0xFFFFFFFF#32⟩,
    ⟨0x04#8, .heapPeek,        0xFFFE00FF#32⟩,
    ⟨0x05#8, .heapSize,        0xFFFFFFFF#32⟩,
    ⟨0x10#8, .buildTree,       0xFFFFFFFF#32⟩,
    ⟨0x11#8, .buildIndex,      0xFFFFFFFF#32⟩,
    ⟨0x12#8, .encode,          0xFFFFFFFF#32⟩,
    ⟨0x13#8, .encodeTree,      0xFFFFFFFF#32⟩,
    ⟨0x14#8, .deserializeTree, 0xFFFFFFFF#32⟩,
    ⟨0x15#8, .decode,          0xFFFFFFFF#32⟩,
    ⟨0x16#8, .teardown,        0xFFFFFFFF#32⟩ ]

/-- Why a word is no command (30_encoding.md R118 to R120). -/
inductive DecodeError where
  /-- OPC is not in the opcode map (R118). -/
  | unassignedOpcode
  /-- A reserved bit of the format is 1 (R119). -/
  | reservedBit
  /-- HEAP_NEW with CAP above 256 (R120). -/
  | capOutOfRange
deriving DecidableEq, Repr

/-- OPC = w[7:0] (30_encoding.md R111). -/
def opcField (w : Word) : Byte := w.extractLsb' 0 8

/-- CAP = w[16:8] of format C (30_encoding.md R112). -/
def capField (w : Word) : BitVec 9 := w.extractLsb' 8 9

/-- POL = w[24] of format C (30_encoding.md R112). -/
def polField (w : Word) : Polarity := if w.getLsbD 24 then .max else .min

/-- TAG = w[23:8] of format T (30_encoding.md R113). -/
def tagField (w : Word) : Tag := w.extractLsb' 8 16

/-- IDX = w[16:8] of format I (30_encoding.md R114). -/
def idxField (w : Word) : BitVec 9 := w.extractLsb' 8 9

/-- The row of the opcode map with a given OPC. -/
def opcodeRow (opc : Byte) : Option OpcodeRow := opcodeTable.find? fun r => r.opc == opc

/-- The command of an operation, its operand fields read from the word (30_encoding.md R112 to R116). -/
def instrOf (op : Opcode) (w : Word) : Instr :=
  match op with
  | .heapNew => .heapNew (capField w) (polField w)
  | .heapInsert => .heapInsert (tagField w)
  | .heapExtract => .heapExtract
  | .heapPeek => .heapPeek (idxField w)
  | .heapSize => .heapSize
  | .buildTree => .buildTree
  | .buildIndex => .buildIndex
  | .encode => .encode
  | .encodeTree => .encodeTree
  | .deserializeTree => .deserializeTree
  | .decode => .decode
  | .teardown => .teardown

/-- Decoding (30_encoding.md R122). A word matches its row when `(w AND mask) = match`, where match is OPC
zero-extended. DEDUCED: R122's pseudocode line tests the complement of the mask, against these words of the same
rule and against R119; log 1. -/
def decode (w : Word) : Except DecodeError Instr :=
  match opcodeRow (opcField w) with
  | none => .error .unassignedOpcode
  | some row =>
    if w &&& row.mask = row.opc.setWidth 32 then
      if (instrOf row.op w).wellFormed then .ok (instrOf row.op w) else .error .capOutOfRange
    else .error .reservedBit

/-- POL as its bit (30_encoding.md R112). -/
def Polarity.bit : Polarity → BitVec 1
  | .min => 0#1
  | .max => 1#1

/-- The word of a command, field by field from its format (30_encoding.md R112 to R115, R123). -/
def encode : Instr → Word
  | .heapNew cap pol => 0#7 ++ pol.bit ++ 0#7 ++ cap ++ 0x01#8
  | .heapInsert tag => 0#8 ++ tag ++ 0x02#8
  | .heapExtract => 0x00000003#32
  | .heapPeek idx => 0#15 ++ idx ++ 0x04#8
  | .heapSize => 0x00000005#32
  | .buildTree => 0x00000010#32
  | .buildIndex => 0x00000011#32
  | .encode => 0x00000012#32
  | .encodeTree => 0x00000013#32
  | .deserializeTree => 0x00000014#32
  | .decode => 0x00000015#32
  | .teardown => 0x00000016#32

/-- The command read from a table row's bits: a command is one 32-bit word (30_encoding.md R110), every bit above
`nbits` is 0, and a longer number is no command word. -/
def decodeTableWord (nbits w : Nat) : Option Instr :=
  if w % 2 ^ nbits < 2 ^ 32 then
    match decode (BitVec.ofNat 32 (w % 2 ^ nbits)) with
    | .ok i => some i
    | .error _ => none
  else none

end Sys2Proof
end

