-- ==== Sys2Proof/Machine/State.lean ====
section
/-! DEFINITION. The block's architectural state (10_state.md R30 to R65) as plain data, the outside events that
drive it, its state after reset (70_reset_and_hazards.md R280), and the reasons a step can stop. -/

namespace Sys2Proof.Machine

/-- The error codes, ERRCODE's only values (60_exceptions.md R251). -/
inductive ErrCode where
  | none
  | capacityExceeded
  | emptyInput
  | invalidTreeFormat
  | malformedBitstream
  | illegalCommand
  | noTree
  | noIndex
  | noCode
  | bufferOverflow
deriving DecidableEq, Repr, Inhabited

/-- The STATUS register's fields; bits [31:6] are reserved, read 0 and ignore writes (10_state.md R33 to R39). -/
structure Status where
  busy : Bool
  done : Bool
  err : Bool
  ovr : Bool
  treeValid : Bool
  indexValid : Bool
deriving DecidableEq, Repr, Inhabited

/-- The RESULT1 register's fields; bits [30:16] read 0 (10_state.md R44). -/
structure Result1 where
  valid : Bool
  tag : Tag
deriving DecidableEq, Repr, Inhabited

/-- A HeapItem: a 32-bit unsigned key and an opaque 16-bit tag (10_state.md R55). -/
structure HeapItem where
  key : Word
  tag : Tag
deriving DecidableEq, Repr, Inhabited

/-- The heap: the array H (10_state.md R55), HEAP_SIZE (R52), HEAP_CFG.CAP and HEAP_CFG.POL (R53). -/
structure Heap where
  items : Vector HeapItem Config.heapSlots
  size : BitVec 9
  cap : BitVec 9
  pol : Polarity
deriving DecidableEq, Repr

/-- A node's KIND bit: 0 is a leaf, 1 an internal node (10_state.md R57). -/
inductive NodeKind where
  | leaf
  | internal
deriving DecidableEq, Repr, Inhabited

/-- One entry of the node arena (10_state.md R57). -/
structure Node where
  kind : NodeKind
  value : Byte
  left : NodeIndex
  right : NodeIndex
  parent : NodeIndex
  weight : Word
deriving DecidableEq, Repr, Inhabited

/-- The node arena NODE (10_state.md R57) and the tree registers ROOT (R49), NODE_COUNT (R50) and UNIQUE (R51). -/
structure Arena where
  nodes : Vector Node Config.nodeSlots
  root : NodeIndex
  count : BitVec 10
  unique : BitVec 9
deriving DecidableEq, Repr

/-- One entry of the code table: `bits` bit j is BITS[j], the step taken at depth j (10_state.md R59). -/
structure CodeEntry where
  valid : Bool
  len : BitVec 8
  bits : BitVec 255
deriving DecidableEq, Repr, Inhabited

/-- The four data buffers MSG, OUT, TBS and MBS (10_state.md R61 to R64), byte-addressed by aperture offset.
`data` holds the values of the written bits and `written` the mask of the bits written since reset; a byte that is
not listed in either is 0x00 there. A bit outside the mask holds no value of its own (20_memory.md R89). Logs 2, 17. -/
structure Memory where
  data : List Host.Cell
  written : List Host.Cell
deriving DecidableEq, Repr

/-- Where the host points an access: an aperture offset (00_scope.md R20), or a bus address, whose offset is its
distance from BASE (R13). Log 8. -/
inductive Loc where
  | offset (off : Nat)
  | bus (addr : Nat)
deriving DecidableEq, Repr

/-- What the world outside the engine does next. -/
inductive HostEvent where
  /-- MemRead(loc, bytes) (00_scope.md R20). -/
  | read (loc : Loc) (bytes : Nat)
  /-- MemWrite(loc, bytes, value) (00_scope.md R20). -/
  | write (loc : Loc) (bytes : Nat) (value : Word)
  /-- The `wait` loop, which polls STATUS until BUSY = 0 (30_encoding.md R125). Log 14. -/
  | wait
  /-- The stop rule of `huf.compress` and `huf.expand`: with STATUS.ERR = 1 the host leaves out the next `count`
  events (30_encoding.md R125). Log 14. -/
  | skipIfErr (count : Nat)
  /-- The platform asserts reset (70_reset_and_hazards.md R280, R281). Log 15. -/
  | reset
deriving DecidableEq, Repr

/-- A value a host read returned, with the offset read (30_encoding.md R124). Log 6. -/
structure Observation where
  offset : Nat
  value : Word
deriving DecidableEq, Repr

/-- The block's state (10_state.md R30), and after `pending` the model's own fields: the host agent's events and
observations, and the plain data by which a step reads the free values (logs 4, 5, 6, 18). -/
structure State where
  status : Status
  errCode : ErrCode
  errInfo : Word
  arg0 : Word
  result0 : Word
  result1 : Result1
  msgLen : Word
  tbsLen : Word
  mbsLen : Word
  outLen : Word
  heap : Heap
  arena : Arena
  code : Vector CodeEntry Config.symbols
  freq : Vector Word Config.symbols
  mem : Memory
  pending : Option Word
  delay : Nat
  draws : Nat
  hostQueue : List HostEvent
  observed : List Observation
deriving DecidableEq, Repr

/-- Why the machine stops. -/
inductive Fault where
  /-- Raised by a host access whose address is outside the 1 MiB aperture: no storage of the block answers there
  (20_memory.md R80). Safe. Log 8. -/
  | outsideAperture
  /-- Raised by ENCODE_TREE, BUILD_INDEX and DECODE when TREE_VALID = 1 and the arena below ROOT is not a tree of
  at most 256 leaves, which 10_state.md R58 excludes: the spec's walk has no end or no meaning there. Safe. Log 9. -/
  | arenaNotATree
  /-- Raised by a step with BUSY = 1 and PENDING empty, which 70_reset_and_hazards.md R284 excludes. Safe. Log 13. -/
  | nothingPending
deriving DecidableEq, Repr

/-- What the model refuses. -/
inductive Refusal where
  /-- An instruction without a meaning, answered by `exec`'s arm alone; no arm answers it now. Safe. -/
  | notModelled (mnemonic : String)
  /-- Answered by a host access that is not an aligned 32-bit word (20_memory.md R82, 70 R289). Safe. Log 7. -/
  | subWordOrMisaligned
  /-- Answered by a host write that is a hazard while BUSY = 1 (70_reset_and_hazards.md R285, R289). Safe. Log 7. -/
  | hazardWrite
deriving DecidableEq, Repr

/-- A CODE entry of a byte value with no code: VALID = 0, LEN = 0, BITS = 0 (10_state.md R59). -/
def CodeEntry.absent : CodeEntry := ⟨false, 0#8, 0#255⟩

/-- STATUS after reset (10_state.md R33). -/
def Status.reset : Status := ⟨false, false, false, false, false, false⟩

/-- The heap after reset: size 0, capacity 0, min (10_state.md R52, R53). DESIGN CHOICE: the entries are (0, 0);
the spec leaves them unspecified and not observable (R55), log 3. -/
def Heap.reset : Heap := ⟨Vector.replicate _ ⟨0#32, 0#16⟩, 0#9, 0#9, .min⟩

/-- The arena after reset: no tree (10_state.md R49 to R51). DESIGN CHOICE: every field of the entries is 0; the
spec leaves them unspecified and not observable (R57), log 3. -/
def Arena.reset : Arena := ⟨Vector.replicate _ ⟨.leaf, 0#8, 0#9, 0#9, 0#9, 0#32⟩, Config.noNode, 0#10, 0#9⟩

/-- The buffers after reset: no bit is written (10_state.md R61 to R64). -/
def Memory.reset : Memory := ⟨[], []⟩

/-- The state right after reset (70_reset_and_hazards.md R280). DESIGN CHOICE: the entries of CODE, unspecified and
not observable (10_state.md R59, log 3), and the model's own fields (log 18). -/
def State.reset : State where
  status := .reset
  errCode := .none
  errInfo := 0#32
  arg0 := 0#32
  result0 := 0#32
  result1 := ⟨false, 0#16⟩
  msgLen := 0#32
  tbsLen := 0#32
  mbsLen := 0#32
  outLen := 0#32
  heap := .reset
  arena := .reset
  code := Vector.replicate _ .absent
  freq := Vector.replicate _ 0#32
  mem := .reset
  pending := none
  delay := 0
  draws := 0
  hostQueue := []
  observed := []

end Sys2Proof.Machine
end

