-- ==== Sys2Proof/Machine/Flags.lean ====
section
/-! DEFINITION. The STATUS bits and the error code: their word and every update the spec gives them
(10_state.md R33 to R40, R67). -/

namespace Sys2Proof.Machine

/-- STATUS as its word: BUSY [0], DONE [1], ERR [2], OVR [3], TREE_VALID [4], INDEX_VALID [5] (10_state.md R33). -/
def Status.toWord (st : Status) : Word :=
  0#26 ++ BitVec.ofBool st.indexValid ++ BitVec.ofBool st.treeValid ++ BitVec.ofBool st.ovr
    ++ BitVec.ofBool st.err ++ BitVec.ofBool st.done ++ BitVec.ofBool st.busy

/-- Issue: BUSY set, DONE and ERR cleared, OVR not changed (70_reset_and_hazards.md R284). -/
def Status.issue (st : Status) : Status := { st with busy := true, done := false, err := false }

/-- Completion: BUSY cleared, DONE set, ERR left as it is (60_exceptions.md R261). -/
def Status.complete (st : Status) : Status := { st with busy := false, done := true }

/-- Completion with an error also sets ERR (60_exceptions.md R261). -/
def Status.fail (st : Status) : Status := { st.complete with err := true }

/-- A CMD write while BUSY = 1 sets OVR (10_state.md R32, R37). -/
def Status.overrun (st : Status) : Status := { st with ovr := true }

/-- A host write of 1 to bit 3 clears OVR (10_state.md R37). -/
def Status.clearOvr (st : Status) : Status := { st with ovr := false }

/-- A new tree is held, without an index (44_lifecycle.md R241). -/
def Status.newTree (st : Status) : Status := { st with treeValid := true, indexValid := false }

/-- Neither a tree nor an index is held (44_lifecycle.md R240, R241). -/
def Status.noTree (st : Status) : Status := { st with treeValid := false, indexValid := false }

/-- The index is held, or not; the tree bit is not changed (44_lifecycle.md R241). -/
def Status.setIndex (st : Status) (valid : Bool) : Status := { st with indexValid := valid }

/-- The numeric error codes (60_exceptions.md R251). -/
def ErrCode.code : ErrCode → BitVec 8
  | .none => 0x00#8
  | .capacityExceeded => 0x01#8
  | .emptyInput => 0x02#8
  | .invalidTreeFormat => 0x03#8
  | .malformedBitstream => 0x04#8
  | .illegalCommand => 0x10#8
  | .noTree => 0x11#8
  | .noIndex => 0x12#8
  | .noCode => 0x13#8
  | .bufferOverflow => 0x14#8

end Sys2Proof.Machine
end

