-- ==== Sys2Proof/Machine/Ops.lean ====
section
/-! DEFINITION. The shared operations: table entries, the buffers by byte, bit and word, and the issue, the
completion and the failure of a command, which is how this block takes an exception (60_exceptions.md R261). -/

namespace Sys2Proof.Machine

/-! ## Tables -/

/-- Entry `i` of a table; every index the spec's rules use is below `n`. -/
def tableGet {α : Type} [Inhabited α] {n : Nat} (t : Vector α n) (i : Nat) : α := t[i]?.getD default

/-- A table with entry `i` written. -/
def tableSet {α : Type} {n : Nat} (t : Vector α n) (i : Nat) (x : α) : Vector α n := t.setIfInBounds i x

/-! ## Canonical lists of cells -/

/-- What an address that is not listed reads as in a list of cells. In the lists of `Memory` it says that no bit
of the byte is written; what such bits read as is the free value `Config.freeByte`. Log 2. -/
def unlistedByte : Byte := 0x00#8

/-- The byte a list of cells holds at an address. -/
def cellsGet : List Host.Cell → Nat → Byte
  | [], _ => unlistedByte
  | (a, b) :: rest, x => if x = a then b else cellsGet rest x

/-- A list of cells with one byte written, in canonical form: rising addresses, no entry equal to what an unlisted
address reads as. -/
def cellsSet : List Host.Cell → Nat → Byte → List Host.Cell
  | [], x, v => if v = unlistedByte then [] else [(x, v)]
  | (a, b) :: rest, x, v =>
    if x < a then (if v = unlistedByte then (a, b) :: rest else (x, v) :: (a, b) :: rest)
    else if x = a then (if v = unlistedByte then rest else (x, v) :: rest)
    else (a, b) :: cellsSet rest x v

/-- The canonical form of a list of cells. -/
abbrev CellsWf (l : List Host.Cell) : Prop :=
  l.Pairwise (fun c d => c.1 < d.1) ∧ ∀ c ∈ l, c.2 ≠ unlistedByte

/-- The offsets of the four data buffers (20_memory.md R81). -/
abbrev InBuffer (a : Nat) : Prop :=
  (Config.msgBase ≤ a ∧ a < Config.tbsEnd) ∨ (Config.mbsBase ≤ a ∧ a < Config.nodeBase)

/-- Memory's canonical form: both lists canonical, every listed address in a buffer, and no value bit outside the
mask of written bits. Equal buffers are then equal data. -/
abbrev Memory.wf (m : Memory) : Prop :=
  CellsWf m.data ∧ CellsWf m.written ∧ (∀ c ∈ m.written, InBuffer c.1) ∧
    ∀ c ∈ m.data, c.2 &&& ~~~cellsGet m.written c.1 = 0#8

/-! ## The buffers -/

/-- The byte at offset `a`, read under draw `n`: written bits have their value, the others are drawn freely
(20_memory.md R89). -/
def Memory.readByte (m : Memory) (n a : Nat) : Byte :=
  if cellsGet m.written a = 0xFF#8 then cellsGet m.data a
  else (cellsGet m.data a &&& cellsGet m.written a) ||| (Config.freeByte n a &&& ~~~cellsGet m.written a)

/-- A byte write: all eight bits are now written. -/
def Memory.writeByte (m : Memory) (a : Nat) (b : Byte) : Memory :=
  ⟨cellsSet m.data a b, cellsSet m.written a 0xFF#8⟩

/-- The host word at offset `a`, least significant byte at the lowest offset (20_memory.md R83, R84). -/
def Memory.readWord (m : Memory) (n a : Nat) : Word :=
  m.readByte n (a + 3) ++ m.readByte n (a + 2) ++ m.readByte n (a + 1) ++ m.readByte n a

/-- A host word write (20_memory.md R83, R84). -/
def Memory.writeWord (m : Memory) (a : Nat) (w : Word) : Memory :=
  (((m.writeByte a (w.extractLsb' 0 8)).writeByte (a + 1) (w.extractLsb' 8 8)).writeByte (a + 2)
    (w.extractLsb' 16 8)).writeByte (a + 3) (w.extractLsb' 24 8)

/-- BitRead(S, i) for the bitstream buffer at `base`: bit i mod 32 of word i / 32 (20_memory.md R84), which is bit
i mod 8 of byte i / 8 by the byte order of `readWord`. -/
def Memory.readBit (m : Memory) (n base i : Nat) : Bool :=
  if (cellsGet m.written (base + i / 8)).getLsbD (i % 8) then (cellsGet m.data (base + i / 8)).getLsbD (i % 8)
  else (Config.freeByte n (base + i / 8)).getLsbD (i % 8)

/-- The byte with the single bit `k` set. -/
def bitMask (k : Nat) : Byte := 1#8 <<< k

/-- BitWrite(S, i, b): that stream bit and no other (20_memory.md R84). -/
def Memory.writeBit (m : Memory) (base i : Nat) (b : Bool) : Memory :=
  let a := base + i / 8
  let k := bitMask (i % 8)
  ⟨cellsSet m.data a (if b then cellsGet m.data a ||| k else cellsGet m.data a &&& ~~~k),
   cellsSet m.written a (cellsGet m.written a ||| k)⟩

/-- BitWrite of a run of stream bits from position `p` upward. -/
def Memory.writeBits (m : Memory) (base : Nat) : Nat → List Bool → Memory
  | _, [] => m
  | p, b :: bs => (m.writeBit base p b).writeBits base (p + 1) bs

/-- Byte writes of a run of bytes from offset `a` upward. -/
def Memory.writeBytes (m : Memory) : Nat → List Byte → Memory
  | _, [] => m
  | a, b :: bs => (m.writeByte a b).writeBytes (a + 1) bs

/-! ## Issue, completion, failure -/

/-- Issue of command word `w` with a given delay (70_reset_and_hazards.md R284). -/
def State.issueAfter (w : Word) (delay : Nat) (s : State) : State :=
  { s with
    pending := some w
    status := s.status.issue
    errCode := .none
    errInfo := 0#32
    delay := delay }

/-- Issue of command word `w`: how many host events come before its completion is free (R284, R288). Log 4. -/
def State.issue (w : Word) (s : State) : State := s.issueAfter w (Config.freeDelay s.draws)

/-- Completion without error: BUSY cleared, DONE set, PENDING emptied; ERR, ERRCODE and ERR_INFO stay as issue set
them (60_exceptions.md R261, 70_reset_and_hazards.md R284). The next draw gets a new index (log 18). -/
def State.complete (s : State) : State :=
  { s with status := s.status.complete, pending := none, draws := s.draws + 1 }

/-- `raise E(info)`: completion with an error, this block's exception entry (00_scope.md R19, 60_exceptions.md
R261). Nothing else is saved and control goes nowhere. -/
def State.raise (e : ErrCode) (info : Word) (s : State) : State :=
  { s.complete with status := s.status.fail, errCode := e, errInfo := info }

/-- Which agent moves next. -/
inductive Agent where
  | engine
  | host
deriving DecidableEq, Repr

/-- The engine moves exactly while a command is in flight whose delay has run out, or whose host has nothing more
to do; otherwise the host moves (70_reset_and_hazards.md R284, R288). Log 4. -/
def State.nextAgent (s : State) : Agent :=
  if s.status.busy && (s.delay == 0 || s.hostQueue.isEmpty) then .engine else .host

end Sys2Proof.Machine
end

