-- ==== Sys2Proof/Machine/Operands.lean ====
section
/-! DEFINITION. What a command reads and what the host reads: the operands that come from registers and buffers
(30_encoding.md R116), the CSRs as words (10_state.md R31 to R54), and the masked windows (20_memory.md R85, R87). -/

namespace Sys2Proof.Machine

/-! ## Operands of commands -/

/-- MSG[0..MSG_LEN−1], each byte read once (43_message_codec.md R213, 41_tree_builder.md R170). -/
def State.message (s : State) : List Byte :=
  (List.range s.msgLen.toNat).map fun k => s.mem.readByte s.draws (Config.msgBase + k)

/-- Stream bit i of TBS (42_tree_serdes.md R194). -/
def State.treeBit (s : State) (i : Nat) : Bool := s.mem.readBit s.draws Config.tbsBase i

/-- MBS stream bits [0, MBS_LEN), each bit read once (43_message_codec.md R215). -/
def State.messageBits (s : State) : List Bool :=
  (List.range s.mbsLen.toNat).map fun i => s.mem.readBit s.draws Config.mbsBase i

/-! ## Control and status registers -/

/-- The CSRs (10_state.md R31 to R53). -/
inductive Csr where
  | id | cmd | status | errCode | errInfo | arg0 | result0 | result1
  | msgLen | tbsLen | mbsLen | outLen | root | nodeCount | unique | heapSize | heapCfg
deriving DecidableEq, Repr

/-- The CSRs in the order of their offsets, from 0x000 in steps of 4 (10_state.md's table). -/
def Csr.inOrder : List Csr :=
  [.id, .cmd, .status, .errCode, .errInfo, .arg0, .result0, .result1,
   .msgLen, .tbsLen, .mbsLen, .outLen, .root, .nodeCount, .unique, .heapSize, .heapCfg]

/-- A CSR's offset (10_state.md R31 to R53). -/
def Csr.offset : Csr → Nat
  | .id => 0x000
  | .cmd => 0x004
  | .status => 0x008
  | .errCode => 0x00C
  | .errInfo => 0x010
  | .arg0 => 0x014
  | .result0 => 0x018
  | .result1 => 0x01C
  | .msgLen => 0x020
  | .tbsLen => 0x024
  | .mbsLen => 0x028
  | .outLen => 0x02C
  | .root => 0x030
  | .nodeCount => 0x034
  | .unique => 0x038
  | .heapSize => 0x03C
  | .heapCfg => 0x040

/-- RESULT1 as its word: VALID [31], TAG [15:0] (10_state.md R44). -/
def Result1.toWord (r : Result1) : Word := BitVec.ofBool r.valid ++ 0#15 ++ r.tag

/-- HEAP_CFG as its word: POL [16], CAP [8:0] (10_state.md R53). -/
def Heap.cfgWord (h : Heap) : Word := 0#15 ++ h.pol.bit ++ 0#7 ++ h.cap

/-- What a read of a CSR returns while BUSY = 0 (10_state.md R31 to R53). -/
def State.readCsr (s : State) : Csr → Word
  | .id => Config.idValue
  | .cmd => 0#32
  | .status => s.status.toWord
  | .errCode => s.errCode.code.setWidth 32
  | .errInfo => s.errInfo
  | .arg0 => s.arg0
  | .result0 => s.result0
  | .result1 => s.result1.toWord
  | .msgLen => s.msgLen
  | .tbsLen => s.tbsLen
  | .mbsLen => s.mbsLen
  | .outLen => s.outLen
  | .root => s.arena.root.setWidth 32
  | .nodeCount => s.arena.count.setWidth 32
  | .unique => s.arena.unique.setWidth 32
  | .heapSize => s.heap.size.setWidth 32
  | .heapCfg => s.heap.cfgWord

/-! ## Windows -/

/-- KIND as its bit (10_state.md R57). -/
def NodeKind.bit : NodeKind → BitVec 1
  | .leaf => 0#1
  | .internal => 1#1

/-- Word `w` of a node's window entry (20_memory.md R85). -/
def Node.word (n : Node) (w : Nat) : Word :=
  match w with
  | 0 => 0#16 ++ n.value ++ 0#7 ++ n.kind.bit
  | 1 => 0#7 ++ n.right ++ 0#7 ++ n.left
  | 2 => n.parent.setWidth 32
  | 3 => n.weight
  | _ => 0#32

/-- Word `w` of a code entry's window entry: words 1 to 8 hold BITS, 9 to 15 read 0 (20_memory.md R85). -/
def CodeEntry.word (c : CodeEntry) (w : Nat) : Word :=
  if w = 0 then BitVec.ofBool c.valid ++ 0#23 ++ c.len
  else if w ≤ 8 then c.bits.extractLsb' (32 * (w - 1)) 32
  else 0#32

/-- Word `w` of a heap item's window entry (20_memory.md R85). -/
def HeapItem.word (x : HeapItem) (w : Nat) : Word :=
  match w with
  | 0 => x.key
  | 1 => x.tag.setWidth 32
  | _ => 0#32

/-- The NODE window: entries at or above NODE_COUNT read 0 (20_memory.md R87). -/
def State.nodeWindow (s : State) (n w : Nat) : Word :=
  if n < s.arena.count.toNat then (tableGet s.arena.nodes n).word w else 0#32

/-- The CODE window: all 0 while INDEX_VALID = 0, and an entry with VALID = 0 reads 0 (20_memory.md R87). -/
def State.codeWindow (s : State) (v w : Nat) : Word :=
  if s.status.indexValid && (tableGet s.code v).valid then (tableGet s.code v).word w else 0#32

/-- The HEAP window: entries at or above HEAP_SIZE read 0 (20_memory.md R87). -/
def State.heapWindow (s : State) (i w : Nat) : Word :=
  if i < s.heap.size.toNat then (tableGet s.heap.items i).word w else 0#32

/-- The FREQ window, never masked (20_memory.md R87). -/
def State.freqWindow (s : State) (v : Nat) : Word := tableGet s.freq v

end Sys2Proof.Machine
end

