-- ==== Sys2Proof/Machine/Tree.lean ====
section
/-! DEFINITION. The tree the arena holds below ROOT, as an inductive tree: what ENCODE_TREE, BUILD_INDEX and DECODE
walk (42_tree_serdes.md R193, 43_message_codec.md R212, R215). -/

namespace Sys2Proof.Machine

/-- A tree of the arena: each node with its arena index, each leaf with its byte value. -/
inductive Tree where
  | leaf (idx : Nat) (value : Byte)
  | node (idx : Nat) (left right : Tree)
deriving DecidableEq, Repr

/-- The arena index of a tree's root. -/
def Tree.idx : Tree → Nat
  | .leaf i _ => i
  | .node i _ _ => i

/-- The number of leaves. -/
def Tree.leafCount : Tree → Nat
  | .leaf _ _ => 1
  | .node _ l r => l.leafCount + r.leafCount

/-- The arena indices in pre-order (00_scope.md R22). -/
def Tree.indices : Tree → List Nat
  | .leaf i _ => [i]
  | .node i l r => i :: (l.indices ++ r.indices)

/-- The tree below arena index `i`, `fuel` levels deep at most; `none` where there is no such tree. -/
def readTree (nodes : Vector Node Config.nodeSlots) : Nat → NodeIndex → Option Tree
  | 0, _ => none
  | fuel + 1, i =>
    if i = Config.noNode then none
    else match (tableGet nodes i.toNat).kind with
      | .leaf => some (.leaf i.toNat (tableGet nodes i.toNat).value)
      | .internal =>
        match readTree nodes fuel (tableGet nodes i.toNat).left, readTree nodes fuel (tableGet nodes i.toNat).right with
        | some l, some r => some (.node i.toNat l r)
        | _, _ => none

/-- The tree below ROOT. A tree the block holds has at most 256 leaves and so a depth of at most 255 (00_scope.md
R14, 10_state.md R58); an arena without such a tree below ROOT gives `none`. Log 9. -/
def Arena.tree (a : Arena) : Option Tree :=
  (readTree a.nodes (Config.codeMaxLen + 1) a.root).filter fun t => decide (t.leafCount ≤ Config.symbols)

/-- The arena with no tree: ROOT = NONE, NODE_COUNT = 0, UNIQUE = 0; the entries stay (44_lifecycle.md R240). -/
def Arena.clear (a : Arena) : Arena := { a with root := Config.noNode, count := 0#10, unique := 0#9 }

/-- The state without a tree and without an index (44_lifecycle.md R240, 42_tree_serdes.md R194). -/
def State.tearDown (s : State) : State := { s with status := s.status.noTree, arena := s.arena.clear }

end Sys2Proof.Machine
end

