-- ==== Sys2Proof/Machine/Lifecycle.lean ====
section
/-! DEFINITION. TEARDOWN (44_lifecycle.md). -/

namespace Sys2Proof.Machine

/-- TEARDOWN: no tree and no index; the arena's entries stay and become unreadable (44_lifecycle.md R240). -/
def execTeardown (s : State) : Host.Outcome State Fault Refusal := .next s.tearDown.complete

end Sys2Proof.Machine
end

