-- ==== Sys2Proof/Machine/MessageCodec.lean ====
section
/-! DEFINITION. The code index, the message encoder and the tree-walking decoder (43_message_codec.md). -/

namespace Sys2Proof.Machine

/-! ## BUILD_INDEX -/

/-- A leaf as the pre-order walk reaches it: its arena index, its value, and the steps from the root, false for
left and true for right, first step first (43_message_codec.md R210). -/
structure CodedLeaf where
  idx : Nat
  value : Byte
  path : List Bool
deriving DecidableEq, Repr

/-- The leaves in pre-order with their paths, below a node reached by `path` (43_message_codec.md R210, R212). -/
def Tree.codedLeaves (path : List Bool) : Tree → List CodedLeaf
  | .leaf i v => [⟨i, v, path⟩]
  | .node _ l r => l.codedLeaves (path ++ [false]) ++ r.codedLeaves (path ++ [true])

/-- BITS of a code: bit j is step j, and bits at or above its length are 0 (10_state.md R59). -/
def codeBits : List Bool → BitVec 255
  | [] => 0#255
  | b :: bs => (codeBits bs <<< 1) ||| (BitVec.ofBool b).setWidth 255

/-- The code entry of a path (10_state.md R59). -/
def codeEntry (path : List Bool) : CodeEntry := ⟨true, BitVec.ofNat 8 path.length, codeBits path⟩

/-- The code of an entry, bit 0 first (10_state.md R59). -/
def CodeEntry.code (c : CodeEntry) : List Bool := (List.range c.len.toNat).map c.bits.getLsbD

/-- Every entry absent (43_message_codec.md R212). -/
def emptyIndex : Vector CodeEntry Config.symbols := Vector.replicate _ .absent

/-- The code table filled leaf by leaf, and the arena index of the first leaf whose value already has a code
(43_message_codec.md R212). -/
def fillIndex : List CodedLeaf → Vector CodeEntry Config.symbols → Vector CodeEntry Config.symbols × Option Nat
  | [], t => (t, none)
  | x :: xs, t =>
    if (tableGet t x.value.toNat).valid then (t, some x.idx)
    else fillIndex xs (tableSet t x.value.toNat (codeEntry x.path))

/-- The leaves that get codes: a root that is a leaf has the 1-bit code `0` (43_message_codec.md R211). -/
def Tree.codes : Tree → List CodedLeaf
  | .leaf i v => [⟨i, v, [false]⟩]
  | .node i l r => (Tree.node i l r).codedLeaves []

/-- The code table of a tree, with the index of the first repeated leaf, if any (43_message_codec.md R212). -/
def Tree.index (t : Tree) : Vector CodeEntry Config.symbols × Option Nat := fillIndex t.codes emptyIndex

/-- The state with a code table, held as an index or not (43_message_codec.md R212). -/
def State.holdIndex (code : Vector CodeEntry Config.symbols) (valid : Bool) (s : State) : State :=
  { s with code := code, status := s.status.setIndex valid }

/-- BUILD_INDEX (43_message_codec.md R212). -/
def execBuildIndex (s : State) : Host.Outcome State Fault Refusal :=
  if s.status.treeValid then
    match s.arena.tree with
    | some t =>
      match t.index with
      | (code, none) => .next (s.holdIndex code true).complete
      | (code, some i) => .next ((s.holdIndex code false).raise .invalidTreeFormat (BitVec.ofNat 32 i))
    | none => .fault .arenaNotATree
  else .next (s.raise .noTree 0#32)

/-! ## ENCODE -/

/-- The offset of the first byte with no valid code entry, counting from `k` (43_message_codec.md R213). -/
def firstUncoded (code : Vector CodeEntry Config.symbols) : Nat → List Byte → Option Nat
  | _, [] => none
  | k, b :: bs => if (tableGet code b.toNat).valid then firstUncoded code (k + 1) bs else some k

/-- The sum of the code lengths of the bytes (43_message_codec.md R213, R214). -/
def encodedLength (code : Vector CodeEntry Config.symbols) (m : List Byte) : Nat :=
  (m.map fun b => (tableGet code b.toNat).len.toNat).sum

/-- The concatenated codes of the bytes (43_message_codec.md R213). -/
def encodeBytes (code : Vector CodeEntry Config.symbols) (m : List Byte) : List Bool :=
  m.flatMap fun b => (tableGet code b.toNat).code

/-- ENCODE (43_message_codec.md R213). -/
def execEncode (s : State) : Host.Outcome State Fault Refusal :=
  if !s.status.indexValid then .next (s.raise .noIndex 0#32)
  else if Config.msgMax < s.msgLen.toNat then .next (s.raise .bufferOverflow s.msgLen)
  else match firstUncoded s.code 0 s.message with
    | some k => .next (s.raise .noCode (BitVec.ofNat 32 k))
    | none =>
      if Config.mbsBits < encodedLength s.code s.message then
        .next (s.raise .bufferOverflow (BitVec.ofNat 32 (encodedLength s.code s.message)))
      else .next ({ s with
        mem := s.mem.writeBits Config.mbsBase 0 (encodeBytes s.code s.message)
        mbsLen := BitVec.ofNat 32 (encodedLength s.code s.message) }).complete

/-! ## DECODE -/

/-- How a decode ends: the bytes emitted, and the error with its information word, if any. -/
structure Decoded where
  bytes : List Byte
  error : Option (ErrCode × Nat)
deriving DecidableEq, Repr

/-- A decode with one byte emitted before it. -/
def Decoded.cons (b : Byte) (d : Decoded) : Decoded := ⟨b :: d.bytes, d.error⟩

/-- The node one step below `cur`: left on 0, right on 1 (43_message_codec.md R215). A leaf has no node below. -/
def Tree.child (cur : Tree) (b : Bool) : Tree :=
  match cur with
  | .leaf i v => .leaf i v
  | .node _ l r => if b then r else l

/-- The decoder's loop from stream bit `i`, with `k` bytes already emitted, at node `cur` of the tree `root`
(43_message_codec.md R215): each leaf reached emits its byte and returns to ROOT. -/
def decodeFrom (root : Tree) : Tree → Nat → Nat → List Bool → Decoded
  | cur, i, _, [] => if cur.idx = root.idx then ⟨[], none⟩ else ⟨[], some (.malformedBitstream, i)⟩
  | cur, i, k, b :: bs =>
    match root with
    | .leaf _ v =>
      if b then ⟨[], some (.malformedBitstream, i)⟩
      else if k = Config.outMax then ⟨[], some (.bufferOverflow, i)⟩
      else (decodeFrom root cur (i + 1) (k + 1) bs).cons v
    | .node _ _ _ =>
      match cur.child b with
      | .leaf _ v =>
        if k = Config.outMax then ⟨[], some (.bufferOverflow, i)⟩
        else (decodeFrom root root (i + 1) (k + 1) bs).cons v
      | .node j l r => decodeFrom root (.node j l r) (i + 1) k bs

/-- DECODE's writes: the bytes emitted go to OUT, whether or not an error follows (43_message_codec.md R215). -/
def State.emit (bytes : List Byte) (outLen : Word) (s : State) : State :=
  { s with mem := s.mem.writeBytes Config.outBase bytes, outLen := outLen }

/-- DECODE (43_message_codec.md R215); OUT_LEN is 0 before any check. -/
def execDecode (s : State) : Host.Outcome State Fault Refusal :=
  if !s.status.treeValid then .next (({ s with outLen := 0#32 }).raise .noTree 0#32)
  else if Config.mbsBits < s.mbsLen.toNat then
    .next (({ s with outLen := 0#32 }).raise .malformedBitstream s.mbsLen)
  else match s.arena.tree with
    | none => .fault .arenaNotATree
    | some t =>
      match decodeFrom t t 0 0 s.messageBits with
      | ⟨bytes, none⟩ => .next (s.emit bytes (BitVec.ofNat 32 bytes.length)).complete
      | ⟨bytes, some (e, info)⟩ => .next ((s.emit bytes 0#32).raise e (BitVec.ofNat 32 info))

end Sys2Proof.Machine
end

