-- ==== Sys2Proof/Machine/Heap.lean ====
section
/-! DEFINITION. The heap and its five commands (40_heap.md). -/

namespace Sys2Proof.Machine

/-! ## Shared definitions (R140 to R143) -/

/-- `before(a, b)`: strict order of the unsigned keys, its direction chosen by the polarity (40_heap.md R140). -/
def before (pol : Polarity) (a b : HeapItem) : Bool :=
  match pol with
  | .min => decide (a.key < b.key)
  | .max => decide (b.key < a.key)

/-- parent(i) = (i-1)/2 (40_heap.md R141). -/
def parentOf (i : Nat) : Nat := (i - 1) / 2

/-- left(i) = 2i+1 (40_heap.md R141). -/
def leftOf (i : Nat) : Nat := 2 * i + 1

/-- right(i) = 2i+2 (40_heap.md R141). -/
def rightOf (i : Nat) : Nat := 2 * i + 2

/-- swap(H[i], H[j]) (40_heap.md R142, R143). -/
def swapItems {n : Nat} (t : Vector HeapItem n) (i j : Nat) : Vector HeapItem n :=
  tableSet (tableSet t i (tableGet t j)) j (tableGet t i)

/-- sift_up(i) (40_heap.md R142). Each swap lowers i, so a fuel of i runs the loop to its end. -/
def siftUp {n : Nat} (pol : Polarity) : Nat → Nat → Vector HeapItem n → Vector HeapItem n
  | 0, _, t => t
  | fuel + 1, i, t =>
    if 0 < i ∧ before pol (tableGet t i) (tableGet t (parentOf i)) then
      siftUp pol fuel (parentOf i) (swapItems t i (parentOf i))
    else t

/-- The child sift_down compares with: the left one unless the right one is strictly before it (R143). -/
def firstChild {n : Nat} (pol : Polarity) (size i : Nat) (t : Vector HeapItem n) : Nat :=
  if rightOf i < size ∧ before pol (tableGet t (rightOf i)) (tableGet t (leftOf i)) then rightOf i else leftOf i

/-- sift_down(i) in a heap of `size` items (40_heap.md R143). Each swap raises i, so a fuel of `size` runs the loop
to its end. -/
def siftDown {n : Nat} (pol : Polarity) (size : Nat) : Nat → Nat → Vector HeapItem n → Vector HeapItem n
  | 0, _, t => t
  | fuel + 1, i, t =>
    if leftOf i < size ∧ before pol (tableGet t (firstChild pol size i t)) (tableGet t i) then
      siftDown pol size fuel (firstChild pol size i t) (swapItems t i (firstChild pol size i t))
    else t

/-- A fresh heap: H is not written, its old entries become unreadable (40_heap.md R144). -/
def Heap.create (cap : BitVec 9) (pol : Polarity) (h : Heap) : Heap := { h with cap := cap, pol := pol, size := 0#9 }

/-- The body of HEAP_INSERT; `none` when the heap is full (40_heap.md R145). -/
def Heap.insert (x : HeapItem) (h : Heap) : Option Heap :=
  if h.size = h.cap then none
  else some { h with
    items := siftUp h.pol h.size.toNat h.size.toNat (tableSet h.items h.size.toNat x)
    size := h.size + 1#9 }

/-- H with the last of its items moved to the root and sifted down, `n` items remaining (40_heap.md R146). -/
def Heap.removeRoot (h : Heap) (n : Nat) : Vector HeapItem Config.heapSlots :=
  siftDown h.pol n n 0 (tableSet h.items 0 (tableGet h.items n))

/-- The body of HEAP_EXTRACT; `none` when the heap is empty (40_heap.md R146). -/
def Heap.extract (h : Heap) : Option (HeapItem × Heap) :=
  if h.size = 0#9 then none
  else some (tableGet h.items 0, { h with items := h.removeRoot (h.size.toNat - 1), size := h.size - 1#9 })

/-- H[IDX] as an option: none at or above HEAP_SIZE (40_heap.md R147). -/
def Heap.peek (h : Heap) (i : Nat) : Option HeapItem :=
  if i < h.size.toNat then some (tableGet h.items i) else none

/-- RESULT0 and RESULT1 of an extracted or peeked item, or of none (10_state.md R43, R44). -/
def State.putItem (x : Option HeapItem) (s : State) : State :=
  match x with
  | some y => { s with result0 := y.key, result1 := ⟨true, y.tag⟩ }
  | none => { s with result0 := 0#32, result1 := ⟨false, 0#16⟩ }

/-! ## The commands -/

/-- HEAP_NEW (40_heap.md R144). With CAP above 256 it is ILLEGAL_COMMAND with the word as information (R120); the
decoder already answers so, and no such command reaches here from a word. Log 16. -/
def execHeapNew (cap : BitVec 9) (pol : Polarity) (s : State) : Host.Outcome State Fault Refusal :=
  if (Instr.heapNew cap pol).wellFormed then .next ({ s with heap := s.heap.create cap pol }).complete
  else .next (s.raise .illegalCommand (encode (.heapNew cap pol)))

/-- HEAP_INSERT of (ARG0, TAG); a full heap is CAPACITY_EXCEEDED with CAP (40_heap.md R145, 60_exceptions.md R252). -/
def execHeapInsert (tag : Tag) (s : State) : Host.Outcome State Fault Refusal :=
  match s.heap.insert ⟨s.arg0, tag⟩ with
  | some h => .next ({ s with heap := h }).complete
  | none => .next (s.raise .capacityExceeded (s.heap.cap.setWidth 32))

/-- HEAP_EXTRACT; an empty heap is no error and gives VALID = 0 (40_heap.md R146). -/
def execHeapExtract (s : State) : Host.Outcome State Fault Refusal :=
  match s.heap.extract with
  | some (x, h) => .next (({ s with heap := h }).putItem (some x)).complete
  | none => .next (s.putItem none).complete

/-- HEAP_PEEK (40_heap.md R147). -/
def execHeapPeek (idx : BitVec 9) (s : State) : Host.Outcome State Fault Refusal :=
  .next (s.putItem (s.heap.peek idx.toNat)).complete

/-- HEAP_SIZE (40_heap.md R148). -/
def execHeapSize (s : State) : Host.Outcome State Fault Refusal :=
  .next ({ s with result0 := s.heap.size.setWidth 32, result1 := ⟨false, 0#16⟩ }).complete

end Sys2Proof.Machine
end

