-- ==== Sys2Proof/Machine/TreeBuilder.lean ====
section
/-! DEFINITION. BUILD_TREE: the tally, the leaves, the merges and the root (41_tree_builder.md). -/

namespace Sys2Proof.Machine

/-- The tally: FREQ[v] counts the positions of the message that hold v (41_tree_builder.md R171). -/
def tally (m : List Byte) : Vector Word Config.symbols :=
  m.foldl (fun t b => tableSet t b.toNat (tableGet t b.toNat + 1#32)) (Vector.replicate _ 0#32)

/-- The byte values present, ascending (41_tree_builder.md R172). -/
def presentSymbols (freq : Vector Word Config.symbols) : List Nat :=
  (List.range Config.symbols).filter fun v => tableGet freq v != 0#32

/-- What the build works on: its heap, the node arena and the number n of nodes made so far (R170). -/
structure Build where
  heap : Heap
  nodes : Vector Node Config.nodeSlots
  n : Nat
deriving DecidableEq, Repr

/-- `heap_insert(key, n)` of the build (R169). The heap is never full there (R178); log 20. -/
def Build.insert (key : Word) (b : Build) : Heap :=
  (b.heap.insert ⟨key, BitVec.ofNat 16 b.n⟩).getD b.heap

/-- One leaf, made and inserted (41_tree_builder.md R170 step 4, R172). -/
def Build.addLeaf (freq : Vector Word Config.symbols) (b : Build) (v : Nat) : Build where
  nodes := tableSet b.nodes b.n
    ⟨.leaf, BitVec.ofNat 8 v, Config.noNode, Config.noNode, Config.noNode, tableGet freq v⟩
  heap := b.insert (tableGet freq v)
  n := b.n + 1

/-- NODE[i].PARENT <- p. -/
def setParent {n : Nat} (nodes : Vector Node n) (i : Nat) (p : NodeIndex) : Vector Node n :=
  tableSet nodes i { tableGet nodes i with parent := p }

/-- The node of one merge and the insertion of its weight, with L and R just extracted, leaving heap `h`
(41_tree_builder.md R170 step 5, R173). -/
def Build.join (l r : HeapItem) (h : Heap) (b : Build) : Build where
  nodes := setParent (setParent
    (tableSet b.nodes b.n
      ⟨.internal, 0#8, l.tag.setWidth 9, r.tag.setWidth 9, Config.noNode, l.key + r.key⟩)
    l.tag.toNat (BitVec.ofNat 9 b.n)) r.tag.toNat (BitVec.ofNat 9 b.n)
  heap := ({ b with heap := h } : Build).insert (l.key + r.key)
  n := b.n + 1

/-- One merge: the first extracted becomes the left child, the second the right (41_tree_builder.md R173). -/
def Build.merge (b : Build) : Build :=
  match b.heap.extract with
  | none => b
  | some (l, h) =>
    match h.extract with
    | none => b
    | some (r, h') => b.join l r h'

/-- The merge loop: while HEAP_SIZE > 1. Each merge lowers HEAP_SIZE by one (R178), so a fuel of HEAP_SIZE runs the
loop to its end. -/
def Build.mergeAll : Nat → Build → Build
  | 0, b => b
  | fuel + 1, b => if 1 < b.heap.size.toNat then mergeAll fuel b.merge else b

/-- A fresh min-heap of capacity min(MSG_LEN, 256) over the old arena (41_tree_builder.md R170 step 4, R172). -/
def State.startBuild (s : State) : Build where
  heap := s.heap.create (BitVec.ofNat 9 (min s.msgLen.toNat Config.heapSlots)) .min
  nodes := s.arena.nodes
  n := 0

/-- The leaves of the message's symbols (41_tree_builder.md R172). -/
def State.buildLeaves (s : State) : Build :=
  (presentSymbols (tally s.message)).foldl (Build.addLeaf (tally s.message)) s.startBuild

/-- The leaves, merged until one item remains (41_tree_builder.md R173). -/
def State.buildMerged (s : State) : Build := s.buildLeaves.mergeAll s.buildLeaves.heap.size.toNat

/-- The last item and the heap without it (41_tree_builder.md R174). One item always remains (R178); log 20. -/
def Build.takeRoot (b : Build) : HeapItem × Heap := b.heap.extract.getD (default, b.heap)

/-- The state a successful build leaves, before completion (41_tree_builder.md R170 steps 2 to 6). -/
def State.builtTree (s : State) : State :=
  { s with
    freq := tally s.message
    heap := s.buildMerged.takeRoot.2
    arena := ⟨s.buildMerged.nodes, s.buildMerged.takeRoot.1.tag.setWidth 9, BitVec.ofNat 10 s.buildMerged.n,
      BitVec.ofNat 9 s.buildLeaves.n⟩
    status := s.status.newTree }

/-- BUILD_TREE (41_tree_builder.md R170). -/
def execBuildTree (s : State) : Host.Outcome State Fault Refusal :=
  if s.msgLen = 0#32 then .next (s.raise .emptyInput 0#32)
  else if Config.msgMax < s.msgLen.toNat then .next (s.raise .bufferOverflow s.msgLen)
  else .next s.builtTree.complete

end Sys2Proof.Machine
end

