-- ==== Sys2Proof/Machine/TreeSerdes.lean ====
section
/-! DEFINITION. The tree bitstream, its serializer and its strict deserializer (42_tree_serdes.md). -/

namespace Sys2Proof.Machine

/-! ## ENCODE_TREE -/

/-- The 8 bits of a leaf value, most significant first (42_tree_serdes.md R191). -/
def valueBits (v : Byte) : List Bool := (List.range 8).map fun j => v.getLsbD (7 - j)

/-- The pre-order bitstream of a tree (42_tree_serdes.md R190). -/
def Tree.serialize : Tree → List Bool
  | .leaf _ v => false :: valueBits v
  | .node _ l r => true :: (l.serialize ++ r.serialize)

/-- ENCODE_TREE (42_tree_serdes.md R193). -/
def execEncodeTree (s : State) : Host.Outcome State Fault Refusal :=
  if s.status.treeValid then
    match s.arena.tree with
    | some t => .next ({ s with
        mem := s.mem.writeBits Config.tbsBase 0 t.serialize
        tbsLen := BitVec.ofNat 32 t.serialize.length }).complete
    | none => .fault .arenaNotATree
  else .next (s.raise .noTree 0#32)

/-! ## DESERIALIZE_TREE -/

/-- What the parse works on (42_tree_serdes.md R194). -/
structure Parse where
  nodes : Vector Node Config.nodeSlots
  pos : Nat
  n : Nat
  leaves : Nat
  frontier : NodeIndex
deriving DecidableEq, Repr

/-- `open(i)`: an internal node with an empty child slot (42_tree_serdes.md R194). -/
def Node.isOpen (x : Node) : Bool := x.kind == .internal && (x.left == Config.noNode || x.right == Config.noNode)

/-- The upward walk to the nearest open node, NONE if there is none (42_tree_serdes.md R195). PARENT links lead to
lower indices in a parse, so a fuel of NODE_SLOTS + 1 runs the walk to its end (R288); log 21. -/
def findOpen (nodes : Vector Node Config.nodeSlots) : Nat → NodeIndex → NodeIndex
  | 0, _ => Config.noNode
  | fuel + 1, i =>
    if i = Config.noNode then Config.noNode
    else if (tableGet nodes i.toNat).isOpen then i
    else findOpen nodes fuel (tableGet nodes i.toNat).parent

/-- The parent of the next node: NONE for the first, otherwise the open node found (R194). -/
def Parse.slot (p : Parse) : NodeIndex :=
  if p.n = 0 then Config.noNode else findOpen p.nodes (Config.nodeSlots + 1) p.frontier

/-- The value after a leaf's shape bit at `pos`, most significant bit first (42_tree_serdes.md R191, R194). -/
def readValue (bit : Nat → Bool) (pos : Nat) : Byte :=
  (List.range 8).foldl (fun v j => v <<< 1 ||| (BitVec.ofBool (bit (pos + 1 + j))).setWidth 8) 0#8

/-- The new node's index goes into its parent's first empty slot, LEFT before RIGHT (R194, R195). -/
def attachChild {n : Nat} (nodes : Vector Node n) (parent child : NodeIndex) : Vector Node n :=
  if parent = Config.noNode then nodes
  else if (tableGet nodes parent.toNat).left = Config.noNode then
    tableSet nodes parent.toNat { tableGet nodes parent.toNat with left := child }
  else tableSet nodes parent.toNat { tableGet nodes parent.toNat with right := child }

/-- The leaf of a `0` shape bit, attached below `parent` (42_tree_serdes.md R194). -/
def Parse.addLeaf (parent : NodeIndex) (v : Byte) (p : Parse) : Parse where
  nodes := attachChild
    (tableSet p.nodes p.n ⟨.leaf, v, Config.noNode, Config.noNode, parent, 0#32⟩) parent (BitVec.ofNat 9 p.n)
  pos := p.pos + 9
  n := p.n + 1
  leaves := p.leaves + 1
  frontier := if parent = Config.noNode then BitVec.ofNat 9 p.n else parent

/-- The internal node of a `1` shape bit, attached below `parent` and descended into (42_tree_serdes.md R194). -/
def Parse.addInternal (parent : NodeIndex) (p : Parse) : Parse where
  nodes := attachChild
    (tableSet p.nodes p.n ⟨.internal, 0#8, Config.noNode, Config.noNode, parent, 0#32⟩) parent (BitVec.ofNat 9 p.n)
  pos := p.pos + 1
  n := p.n + 1
  leaves := p.leaves
  frontier := BitVec.ofNat 9 p.n

/-- One node of the parse, or the information word of INVALID_TREE_FORMAT: cases (b), (e) and (c) of
42_tree_serdes.md R196, in that order (R263). -/
def Parse.node (bit : Nat → Bool) (len : Nat) (p : Parse) : Except Nat Parse :=
  if p.n ≠ 0 ∧ p.slot = Config.noNode then .error p.pos
  else if p.n = Config.nodeSlots then .error p.pos
  else if bit p.pos then .ok (p.addInternal p.slot)
  else if len < p.pos + 9 then .error len
  else .ok (p.addLeaf p.slot (readValue bit p.pos))

/-- How a parse ends: with all bits consumed, or with the information word of an error; the entries written stay
in either case (60_exceptions.md R262). -/
inductive ParseEnd where
  | consumed (p : Parse)
  | failed (info : Nat) (nodes : Vector Node Config.nodeSlots)
deriving DecidableEq, Repr

/-- The parse loop: while pos < len. Each node consumes a bit at least, so a fuel of `len` runs it to its end. -/
def Parse.run (bit : Nat → Bool) (len : Nat) : Nat → Parse → ParseEnd
  | 0, p => .consumed p
  | fuel + 1, p =>
    if p.pos < len then
      match p.node bit len with
      | .ok p' => p'.run bit len fuel
      | .error info => .failed info p.nodes
    else .consumed p

/-- `exists i < n with open(i)`, case (d) of 42_tree_serdes.md R196. -/
def Parse.anyOpen (p : Parse) : Bool := (List.range p.n).any fun i => (tableGet p.nodes i).isOpen

/-- The parse of TBS stream bits [0, len) over the old arena, with case (d) checked at its end (R194, R196). -/
def parseTree (bit : Nat → Bool) (len : Nat) (nodes : Vector Node Config.nodeSlots) : ParseEnd :=
  match Parse.run bit len len ⟨nodes, 0, 0, 0, Config.noNode⟩ with
  | .failed info nodes' => .failed info nodes'
  | .consumed p => if p.anyOpen then .failed len p.nodes else .consumed p

/-- The state with the parsed tree and no index (42_tree_serdes.md R194). -/
def State.holdParsed (p : Parse) (s : State) : State :=
  { s with
    arena := ⟨p.nodes, 0#9, BitVec.ofNat 10 p.n, BitVec.ofNat 9 p.leaves⟩
    status := s.status.newTree }

/-- DESERIALIZE_TREE (42_tree_serdes.md R194): the old tree and index are torn down first, whatever follows. -/
def execDeserializeTree (s : State) : Host.Outcome State Fault Refusal :=
  if s.tbsLen = 0#32 ∨ Config.tbsBits < s.tbsLen.toNat then .next (s.tearDown.raise .invalidTreeFormat s.tbsLen)
  else match parseTree s.treeBit s.tbsLen.toNat s.arena.nodes with
    | .consumed p => .next (s.tearDown.holdParsed p).complete
    | .failed info nodes =>
      .next (({ s.tearDown with arena := { s.tearDown.arena with nodes := nodes } }).raise .invalidTreeFormat
        (BitVec.ofNat 32 info))

end Sys2Proof.Machine
end

