-- ==== Sys2Proof/Machine/Dispatch.lean ====
section
/-! DEFINITION. One arm per command: the meaning the engine's completion step runs (70_reset_and_hazards.md R284). -/

namespace Sys2Proof.Machine

def exec (i : Instr) (s : State) : Host.Outcome State Fault Refusal :=
  match i with
  | .heapNew cap pol => Sys2Proof.Machine.execHeapNew cap pol s
  | .heapInsert tag => Sys2Proof.Machine.execHeapInsert tag s
  | .heapExtract => Sys2Proof.Machine.execHeapExtract s
  | .heapPeek idx => Sys2Proof.Machine.execHeapPeek idx s
  | .heapSize => Sys2Proof.Machine.execHeapSize s
  | .buildTree => Sys2Proof.Machine.execBuildTree s
  | .buildIndex => Sys2Proof.Machine.execBuildIndex s
  | .encode => Sys2Proof.Machine.execEncode s
  | .encodeTree => Sys2Proof.Machine.execEncodeTree s
  | .deserializeTree => Sys2Proof.Machine.execDeserializeTree s
  | .decode => Sys2Proof.Machine.execDecode s
  | .teardown => Sys2Proof.Machine.execTeardown s

end Sys2Proof.Machine
end

