-- ==== Sys2Proof/Machine/HostBus.lean ====
section
/-! DEFINITION. The host's accesses to the aperture and the other outside events (20_memory.md R80 to R88,
10_state.md R31 to R54, 70_reset_and_hazards.md R280 to R285). -/

namespace Sys2Proof.Machine

/-- What an aligned offset of the aperture names (20_memory.md R81, R85). -/
inductive Target where
  | csr (r : Csr)
  /-- A word of MSG, OUT, TBS or MBS. -/
  | buffer
  /-- Word `w` of NODE entry `n`. -/
  | node (n w : Nat)
  /-- Word `w` of CODE entry `v`. -/
  | code (v w : Nat)
  /-- Word `w` of HEAP entry `i`. -/
  | heap (i w : Nat)
  | freq (v : Nat)
  | reserved
deriving DecidableEq, Repr

/-- The CSR page: the CSRs from offset 0 in steps of 4, then reserved (10_state.md R54). -/
def csrTarget (off : Nat) : Target :=
  match Csr.inOrder[off / 4]? with
  | some r => .csr r
  | none => .reserved

/-- The address map (20_memory.md R81). -/
def target (off : Nat) : Target :=
  if off < Config.msgBase then csrTarget off
  else if off < Config.tbsEnd then .buffer
  else if off < Config.mbsBase then .reserved
  else if off < Config.nodeBase then .buffer
  else if off < Config.nodeEnd then .node ((off - Config.nodeBase) / 16) ((off - Config.nodeBase) % 16 / 4)
  else if off < Config.codeBase then .reserved
  else if off < Config.codeEnd then .code ((off - Config.codeBase) / 64) ((off - Config.codeBase) % 64 / 4)
  else if off < Config.heapBase then .reserved
  else if off < Config.heapEnd then .heap ((off - Config.heapBase) / 8) ((off - Config.heapBase) % 8 / 4)
  else if off < Config.freqBase then .reserved
  else if off < Config.freqEnd then .freq ((off - Config.freqBase) / 4)
  else .reserved

/-- What a host read of an aligned offset returns while BUSY = 0 (20_memory.md R81 to R88). -/
def State.readOffset (s : State) (off : Nat) : Word :=
  match target off with
  | .csr r => s.readCsr r
  | .buffer => s.mem.readWord s.draws off
  | .node n w => s.nodeWindow n w
  | .code v w => s.codeWindow v w
  | .heap i w => s.heapWindow i w
  | .freq v => s.freqWindow v
  | .reserved => 0#32

/-- The two registers the host may read while BUSY = 1 (70_reset_and_hazards.md R285). -/
def Target.readableBusy (t : Target) : Bool := t == .csr .status || t == .csr .id

/-- The value a host read returns: a hazard read while BUSY = 1 returns a free value (R285). Log 10. -/
def State.readValue (s : State) (off : Nat) : Word :=
  if s.status.busy && !(target off).readableBusy then Config.freeWord s.draws else s.readOffset off

/-- A host read changes nothing of the block; the host observes the value (20_memory.md R88, 30_encoding.md R124).
The next draw gets a new index (log 18). -/
def State.hostRead (off : Nat) (s : State) : State :=
  { s with observed := ⟨off, s.readValue off⟩ :: s.observed, draws := s.draws + 1 }

/-- A host write of a CSR while BUSY = 0: CMD issues, STATUS clears OVR on a 1 in bit 3, ARG0 and the length
registers take the value, the read-only registers ignore it (10_state.md R31 to R53). -/
def State.writeCsr (r : Csr) (v : Word) (s : State) : State :=
  match r with
  | .cmd => s.issue v
  | .status => if v.getLsbD 3 then { s with status := s.status.clearOvr } else s
  | .arg0 => { s with arg0 := v }
  | .msgLen => { s with msgLen := v }
  | .tbsLen => { s with tbsLen := v }
  | .mbsLen => { s with mbsLen := v }
  | .id | .errCode | .errInfo | .result0 | .result1 | .outLen | .root | .nodeCount | .unique | .heapSize
  | .heapCfg => s

/-- A host write while BUSY = 0: windows and reserved offsets ignore it (20_memory.md R86, R88). -/
def State.writeIdle (off : Nat) (v : Word) (s : State) : State :=
  match target off with
  | .csr r => s.writeCsr r v
  | .buffer => { s with mem := s.mem.writeWord off v }
  | .node _ _ | .code _ _ | .heap _ _ | .freq _ | .reserved => s

/-- A host write while BUSY = 1: a CMD write is dropped and sets OVR, a write of 1 to STATUS bit 3 clears OVR, and
every other write is a hazard the model refuses (10_state.md R32, 70_reset_and_hazards.md R285). Log 11. -/
def State.writeBusy (off : Nat) (v : Word) (s : State) : Host.Outcome State Fault Refusal :=
  if target off = .csr .cmd then .next { s with status := s.status.overrun }
  else if target off = .csr .status ∧ v.getLsbD 3 then .next { s with status := s.status.clearOvr }
  else .refused .hazardWrite

/-- A host write of an aligned word. -/
def State.hostWrite (off : Nat) (v : Word) (s : State) : Host.Outcome State Fault Refusal :=
  if s.status.busy then s.writeBusy off v else .next (s.writeIdle off v)

/-- The aperture offset an access names, if it is inside the aperture (00_scope.md R13, 20_memory.md R80). Log 8. -/
def Loc.resolve : Loc → Option Nat
  | .offset off => if off < Config.apertureSize then some off else none
  | .bus addr =>
    if Config.base ≤ addr ∧ addr - Config.base < Config.apertureSize then some (addr - Config.base) else none

/-- The offset of a legal access, or why it stops: outside the aperture (log 8), or not an aligned 32-bit word
(20_memory.md R82, log 7). -/
def checkAccess (loc : Loc) (bytes : Nat) : Host.Outcome Nat Fault Refusal :=
  match loc.resolve with
  | none => .fault .outsideAperture
  | some off => if bytes = 4 ∧ off % 4 = 0 then .next off else .refused .subWordOrMisaligned

/-- Reset: every state element takes its reset value, a command in flight is abandoned, and the outside world's own
fields stay (70_reset_and_hazards.md R280, R281). Log 15. -/
def State.platformReset (s : State) : State :=
  { State.reset with hostQueue := s.hostQueue, observed := s.observed, draws := s.draws + 1 }

/-- One outside event on a state whose queue no longer holds it. -/
def performEvent (e : HostEvent) (s : State) : Host.Outcome State Fault Refusal :=
  match e with
  | .read loc bytes =>
    match checkAccess loc bytes with
    | .next off => .next (s.hostRead off)
    | .fault f => .fault f
    | .refused r => .refused r
  | .write loc bytes v =>
    match checkAccess loc bytes with
    | .next off => s.hostWrite off v
    | .fault f => .fault f
    | .refused r => .refused r
  | .wait => if s.status.busy then .next { s with hostQueue := .wait :: s.hostQueue } else .next s
  | .skipIfErr count => if s.status.err then .next { s with hostQueue := s.hostQueue.drop count } else .next s
  | .reset => .next s.platformReset

/-- The host's step: its next event. With none left and no command in flight the run has ended and the block holds
its state (60_exceptions.md R273, 70_reset_and_hazards.md R289). Log 12. -/
def hostStep (s : State) : Host.Outcome State Fault Refusal :=
  match s.hostQueue with
  | [] => .next s
  | e :: rest => performEvent e { s with hostQueue := rest, delay := s.delay - 1 }

end Sys2Proof.Machine
end

