-- ==== Sys2Proof/Machine/Step.lean ====
section
/-! DEFINITION. One step of the block: the engine's completion of the command in flight, or one outside event
(70_reset_and_hazards.md R284). -/

namespace Sys2Proof.Machine

/-- One step. The engine decodes PENDING and runs the command's rule; a word that is no command completes with
ILLEGAL_COMMAND and the word as information (30_encoding.md R118 to R122, 60_exceptions.md R256). -/
def step (s : State) : Host.Outcome State Fault Refusal :=
  match s.nextAgent with
  | .host => hostStep s
  | .engine =>
    match s.pending with
    | none => .fault .nothingPending
    | some w =>
      match decode w with
      | .ok i => exec i s
      | .error _ => .next (s.raise .illegalCommand w)

/-- The command of a table row's bits, issued so that the very next step completes it: the block fetches nothing
(20_memory.md R94), and a command comes to run by its issue (R284), here with no host event before its completion.
Log 5. -/
def State.withFetchWord (s : State) (nbits w : Nat) : State :=
  s.issueAfter (BitVec.ofNat 32 (w % 2 ^ nbits)) 0

end Sys2Proof.Machine
end

