-- ==== Sys2Proof/Machine/Assembler.lean ====
section
/-! DEFINITION. The assembler: command lines, host operations and pseudo-instructions, as the host events they stand
for and as the text the spec writes them in (30_encoding.md R123 to R125). Log 22. -/

namespace Sys2Proof.Machine

/-- Where `st` and `ld` point: a CSR name or an aperture offset (30_encoding.md R124). -/
inductive AsmName where
  | csr (r : Csr)
  | offset (off : Nat)
deriving DecidableEq, Repr

/-- One line of a host program, its operands as the numbers written (30_encoding.md R123 to R125). -/
inductive AsmLine where
  | heapNew (cap : Nat) (pol : Polarity)
  | heapInsert (tag : Nat)
  | heapExtract
  | heapPeek (idx : Nat)
  | heapSize
  | buildTree
  | buildIndex
  | encode
  | encodeTree
  | deserializeTree
  | decode
  | teardown
  | st (name : AsmName) (value : Word)
  | ld (name : AsmName)
  | comment (text : String)
  | wait
  | heapPush (key : Word) (tag : Nat)
  | stBytes (off : Nat) (text : List Byte)
  | compress
  | expand
deriving DecidableEq, Repr

/-- The aperture offset of a name (30_encoding.md R124). -/
def AsmName.toOffset : AsmName → Nat
  | .csr r => r.offset
  | .offset off => off

/-- A word write at an aperture offset. -/
def storeWord (off : Nat) (v : Word) : HostEvent := .write (.offset off) 4 v

/-- A command is a write of its word to CMD (30_encoding.md R123). -/
def issueEvent (i : Instr) : HostEvent := storeWord Csr.cmd.offset (encode i)

/-- Bytes packed into words least significant first, a partial last word padded with 0x00 (30_encoding.md R125). -/
def packWords : List Byte → List Word
  | a :: b :: c :: d :: rest => (d ++ c ++ b ++ a) :: packWords rest
  | [a, b, c] => [0#8 ++ c ++ b ++ a]
  | [a, b] => [0#16 ++ b ++ a]
  | [a] => [0#24 ++ a]
  | [] => []

/-- Word writes at consecutive offsets. -/
def storeWords : Nat → List Word → List HostEvent
  | _, [] => []
  | off, w :: ws => storeWord off w :: storeWords (off + 4) ws

/-- Commands each followed by `wait`, the host stopping the sequence after the first wait that ends with
STATUS.ERR = 1 (30_encoding.md R125). Each later command is three events. Log 14. -/
def sequenceOf : List Instr → List HostEvent
  | [] => []
  | [i] => [issueEvent i, .wait]
  | i :: rest => issueEvent i :: .wait :: .skipIfErr (sequenceOf rest).length :: sequenceOf rest

/-- The events a line stands for; `none` where the assembler refuses the line: a CAP above 256, an IDX above 511, a
TAG above 65535, an OFF that is no multiple of 4 (30_encoding.md R123, R125). -/
def AsmLine.assemble : AsmLine → Option (List HostEvent)
  | .heapNew cap pol =>
    if cap ≤ Config.heapSlots then some [issueEvent (.heapNew (BitVec.ofNat 9 cap) pol)] else none
  | .heapInsert tag => if tag ≤ 65535 then some [issueEvent (.heapInsert (BitVec.ofNat 16 tag))] else none
  | .heapExtract => some [issueEvent .heapExtract]
  | .heapPeek idx => if idx ≤ 511 then some [issueEvent (.heapPeek (BitVec.ofNat 9 idx))] else none
  | .heapSize => some [issueEvent .heapSize]
  | .buildTree => some [issueEvent .buildTree]
  | .buildIndex => some [issueEvent .buildIndex]
  | .encode => some [issueEvent .encode]
  | .encodeTree => some [issueEvent .encodeTree]
  | .deserializeTree => some [issueEvent .deserializeTree]
  | .decode => some [issueEvent .decode]
  | .teardown => some [issueEvent .teardown]
  | .st name value => some [storeWord name.toOffset value]
  | .ld name => some [.read (.offset name.toOffset) 4]
  | .comment _ => some []
  | .wait => some [.wait]
  | .heapPush key tag =>
    if tag ≤ 65535 then
      some [storeWord Csr.arg0.offset key, issueEvent (.heapInsert (BitVec.ofNat 16 tag)), .wait]
    else none
  | .stBytes off text => if off % 4 = 0 then some (storeWords off (packWords text)) else none
  | .compress => some (sequenceOf [.buildTree, .buildIndex, .encode, .encodeTree])
  | .expand => some (sequenceOf [.deserializeTree, .decode])

/-- The events of a program; `none` where the assembler refuses one of its lines. -/
def assembleAll : List AsmLine → Option (List HostEvent)
  | [] => some []
  | l :: ls =>
    match l.assemble, assembleAll ls with
    | some es, some rest => some (es ++ rest)
    | _, _ => none

/-- The state with a host program placed to run: it is given to the host from outside the machine. Log 5. -/
def State.withProgram (s : State) (events : List HostEvent) : State := { s with hostQueue := events }

/-- A CSR's name as the spec writes it (10_state.md). -/
def Csr.text : Csr → String
  | .id => "ID"
  | .cmd => "CMD"
  | .status => "STATUS"
  | .errCode => "ERRCODE"
  | .errInfo => "ERR_INFO"
  | .arg0 => "ARG0"
  | .result0 => "RESULT0"
  | .result1 => "RESULT1"
  | .msgLen => "MSG_LEN"
  | .tbsLen => "TBS_LEN"
  | .mbsLen => "MBS_LEN"
  | .outLen => "OUT_LEN"
  | .root => "ROOT"
  | .nodeCount => "NODE_COUNT"
  | .unique => "UNIQUE"
  | .heapSize => "HEAP_SIZE"
  | .heapCfg => "HEAP_CFG"

/-- A name operand's text. -/
def AsmName.text : AsmName → String
  | .csr r => r.text
  | .offset off => toString off

/-- A polarity operand's text (30_encoding.md R123). -/
def Polarity.text : Polarity → String
  | .min => "min"
  | .max => "max"

/-- A line's text, its numbers in decimal (30_encoding.md R123 to R125). -/
def AsmLine.text : AsmLine → String
  | .heapNew cap pol => "heap.new " ++ toString cap ++ ", " ++ Polarity.text pol
  | .heapInsert tag => "heap.insert " ++ toString tag
  | .heapExtract => "heap.extract"
  | .heapPeek idx => "heap.peek " ++ toString idx
  | .heapSize => "heap.size"
  | .buildTree => "huf.build_tree"
  | .buildIndex => "huf.build_index"
  | .encode => "huf.encode"
  | .encodeTree => "huf.encode_tree"
  | .deserializeTree => "huf.deserialize_tree"
  | .decode => "huf.decode"
  | .teardown => "huf.teardown"
  | .st name value => "st " ++ name.text ++ ", " ++ toString value.toNat
  | .ld name => "ld " ++ name.text
  | .comment text => "; " ++ text
  | .wait => "wait"
  | .heapPush key tag => "heap.push " ++ toString key.toNat ++ ", " ++ toString tag
  | .stBytes off text =>
    "st.bytes " ++ toString off ++ ", \"" ++ String.ofList (text.map fun b => Char.ofNat b.toNat) ++ "\""
  | .compress => "huf.compress"
  | .expand => "huf.expand"

end Sys2Proof.Machine
end

