-- ==== Sys2Proof/Safety.lean ====
section
/-! DEFINITION. What holds of the block between steps, in the spec's own terms, and the words claims are stated in:
the heap property, the tree invariant, the index of the current tree, the lifecycle of the status bits. -/

namespace Sys2Proof.Machine

/-! ## The heap -/

/-- The items held, in array order: H[0..HEAP_SIZE−1] (10_state.md R55). -/
def Heap.live (h : Heap) : List HeapItem := (List.range h.size.toNat).map (tableGet h.items)

/-- The heap property: no item is before its parent (10_state.md R56). -/
def Heap.ordered (h : Heap) : Prop :=
  ∀ i, 0 < i → i < h.size.toNat → before h.pol (tableGet h.items i) (tableGet h.items (parentOf i)) = false

/-- HEAP_SIZE ≤ HEAP_CFG.CAP ≤ HEAP_SLOTS (40_heap.md R151). -/
def Heap.bounded (h : Heap) : Prop := h.size.toNat ≤ h.cap.toNat ∧ h.cap.toNat ≤ Config.heapSlots

/-! ## The tree -/

/-- The parent links of a tree read from the arena, and the empty links of its leaves (10_state.md R58). -/
def Tree.linked (nodes : Vector Node Config.nodeSlots) (parent : NodeIndex) : Tree → Prop
  | .leaf i _ =>
    (tableGet nodes i).parent = parent ∧ (tableGet nodes i).left = Config.noNode ∧
      (tableGet nodes i).right = Config.noNode
  | .node i l r =>
    (tableGet nodes i).parent = parent ∧ l.linked nodes (BitVec.ofNat 9 i) ∧ r.linked nodes (BitVec.ofNat 9 i)

/-- The tree invariant for a held tree `t`: the entries below NODE_COUNT are exactly its nodes, each once; parents
and leaves are linked as R58 says; UNIQUE counts the leaves and NODE_COUNT = 2 x UNIQUE − 1 (10_state.md R58). -/
def Arena.holds (a : Arena) (t : Tree) : Prop :=
  a.tree = some t ∧ t.indices.Perm (List.range a.count.toNat) ∧ t.linked a.nodes Config.noNode ∧
    a.unique.toNat = t.leafCount ∧ a.count.toNat + 1 = 2 * a.unique.toNat

/-- The shape of a tree with its leaf values, without arena indices (42_tree_serdes.md R197). -/
inductive Shape where
  | leaf (value : Byte)
  | node (left right : Shape)
deriving DecidableEq, Repr

/-- A tree's shape. -/
def Tree.shape : Tree → Shape
  | .leaf _ v => .leaf v
  | .node _ l r => .node l.shape r.shape

/-- The leaf values in pre-order. -/
def Shape.values : Shape → List Byte
  | .leaf v => [v]
  | .node l r => l.values ++ r.values

/-- The word of the grammar of 42_tree_serdes.md R190 for a shape: `0` and the value's bits, most significant
first, or `1` and the two subtrees. -/
def Shape.word : Shape → List Bool
  | .leaf v =>
    [false, v.getLsbD 7, v.getLsbD 6, v.getLsbD 5, v.getLsbD 4, v.getLsbD 3, v.getLsbD 2, v.getLsbD 1, v.getLsbD 0]
  | .node l r => true :: (l.word ++ r.word)

/-- The positions of the shape bits of a shape's word, in pre-order, for a word that starts at position `p`. -/
def Shape.starts (p : Nat) : Shape → List Nat
  | .leaf _ => [p]
  | .node l r => p :: (l.starts (p + 1) ++ r.starts (p + 1 + l.word.length))

/-- The root-to-leaf steps and the value of each leaf, in pre-order: false is a step left (43_message_codec.md R210). -/
def Shape.paths : Shape → List (List Bool × Byte)
  | .leaf v => [([], v)]
  | .node l r =>
    l.paths.map (fun p => (false :: p.1, p.2)) ++ r.paths.map (fun p => (true :: p.1, p.2))

/-- Every internal node's WEIGHT is the sum of its children's (41_tree_builder.md R175). -/
def Tree.weighted (nodes : Vector Node Config.nodeSlots) : Tree → Prop
  | .leaf _ _ => True
  | .node i l r =>
    (tableGet nodes i).weight.toNat = (tableGet nodes l.idx).weight.toNat + (tableGet nodes r.idx).weight.toNat ∧
      l.weighted nodes ∧ r.weighted nodes

/-! ## Invariants of the block -/

/-- BUSY and PENDING agree, and the error registers say what STATUS.ERR says (10_state.md R34 to R36, R40, R41, R65,
70_reset_and_hazards.md R284). -/
structure State.reporting (s : State) : Prop where
  inFlight : s.status.busy = s.pending.isSome
  notDone : s.status.busy = true → s.status.done = false ∧ s.status.err = false
  errDone : s.status.err = true → s.status.done = true ∧ s.errCode ≠ .none
  noErr : s.status.err = false → s.errCode = .none ∧ s.errInfo = 0#32

/-- INDEX_VALID implies TREE_VALID, and without a tree ROOT = NONE, NODE_COUNT = 0 and UNIQUE = 0 (44_lifecycle.md
R241, 10_state.md R58). -/
structure State.lifecycle (s : State) : Prop where
  indexNeedsTree : s.status.indexValid = true → s.status.treeValid = true
  cleared : s.status.treeValid = false →
    s.arena.root = Config.noNode ∧ s.arena.count = 0#10 ∧ s.arena.unique = 0#9

/-- Whenever TREE_VALID = 1, the arena holds a tree (10_state.md R58). -/
def State.treeHeld (s : State) : Prop := s.status.treeValid = true → ∃ t, s.arena.holds t

/-- Whenever INDEX_VALID = 1, CODE is the code index of the tree below ROOT (10_state.md R39). -/
def State.indexHeld (s : State) : Prop :=
  s.status.indexValid = true → ∃ t, s.arena.tree = some t ∧ t.index = (s.code, none)

/-! ## Words for claims -/

/-- Byte `k` of the buffer at `base` is written: every bit has a value of its own. -/
def Memory.byteWritten (m : Memory) (a : Nat) : Prop := cellsGet m.written a = 0xFF#8

/-- The command word in flight completes at the next step. -/
def State.completing (w : Word) (s : State) : Prop := s.nextAgent = .engine ∧ s.pending = some w

/-- A fault or refusal has stopped the run: the run with the refusal mark has no meaning (70_reset_and_hazards.md
R289). -/
def stopped (o : Host.Outcome State Fault Refusal) : Prop := ∀ t, o ≠ .next t

end Sys2Proof.Machine
end

