-- ==== Sys2Proof/Certificates/Slice0/Obligations.lean ====
section
/-! DEFINITION. The statements for the provers, from the numbered rules of spec/. A statement whose clause rests on a
choice of the model's own says so and names the log entry. `State.complete` and `State.raise` also advance `draws`,
the model's own field (log 18), on whose value no statement rests. -/

open Sys2Proof Sys2Proof.Machine

/-! ## Command words (30_encoding.md) -/

/-- R122, R123: a well-formed command is what its word decodes to. -/
def Obligations.DecodingAnEncodedCommandGivesItBack : Prop :=
  ∀ i : Instr, i.wellFormed = true → decode (encode i) = .ok i

/-- R122: a word that decodes is the word of the command it decodes to, so every word has at most one meaning, and
that command is well formed. -/
def Obligations.EncodingADecodedWordGivesItBack : Prop :=
  ∀ (w : Word) (i : Instr), decode w = .ok i → encode i = w ∧ i.wellFormed = true

/-- R123: the assembler's examples, and one word per format read from its layout. -/
def Obligations.WrittenWordsDecodeToTheirCommands : Prop :=
  decode 0x00000601#32 = .ok (.heapNew 6#9 .min) ∧ decode 0x01010001#32 = .ok (.heapNew 256#9 .max) ∧
  decode 0x00000502#32 = .ok (.heapInsert 5#16) ∧ decode 0x00000304#32 = .ok (.heapPeek 3#9) ∧
  decode 0x00000003#32 = .ok .heapExtract ∧ decode 0x00000005#32 = .ok .heapSize ∧
  decode 0x00000010#32 = .ok .buildTree ∧ decode 0x00000013#32 = .ok .encodeTree ∧
  decode 0x00000011#32 = .ok .buildIndex ∧ decode 0x00000016#32 = .ok .teardown

/-- R118 to R120: a word with an unassigned OPC, with a 1 in a reserved bit of its format, or a HEAP_NEW word with CAP
above 256 completes with ILLEGAL_COMMAND and ERR_INFO = the word, and nothing else of the block changes (of the
model's own field `draws`, log 18, nothing is said); every other word is a command, which runs. -/
def Obligations.IllegalWordsCompleteWithIllegalCommand : Prop :=
  ∀ (w : Word) (s : State), s.completing w →
    let n : Bool := w.extractLsb' 0 8 ∈
      [0x03#8, 0x05#8, 0x10#8, 0x11#8, 0x12#8, 0x13#8, 0x14#8, 0x15#8, 0x16#8]
    let legal : Prop :=
      (w.extractLsb' 0 8 = 0x01#8 ∧ w.extractLsb' 17 7 = 0#7 ∧ w.extractLsb' 25 7 = 0#7 ∧
        (w.extractLsb' 8 9).toNat ≤ 256) ∨
      (w.extractLsb' 0 8 = 0x02#8 ∧ w.extractLsb' 24 8 = 0#8) ∨
      (w.extractLsb' 0 8 = 0x04#8 ∧ w.extractLsb' 17 15 = 0#15) ∨
      (n = true ∧ w.extractLsb' 8 24 = 0#24)
    (¬legal → ∃ n, step s = .next { s with
      status := { s.status with busy := false, done := true, err := true }
      errCode := .illegalCommand
      errInfo := w
      pending := none
      draws := n }) ∧
    (legal → ∃ i, decode w = .ok i ∧ step s = exec i s)

/-! ## Steps, issue and completion (70_reset_and_hazards.md R284) -/

/-- R284: the engine's step runs the command PENDING decodes to. The step adds nothing around `exec`. -/
def Obligations.StepRunsTheDecodedCommand : Prop :=
  ∀ (w : Word) (i : Instr) (s : State), s.completing w → decode w = .ok i → step s = exec i s

/-- R284, R273: without a command in flight only outside events move the block, and with none left it holds its
state (log 12: such a step leaves the state as it is). -/
def Obligations.IdleBlockMovesOnlyByHostEvents : Prop :=
  ∀ s : State, s.status.busy = false →
    step s = hostStep s ∧ (s.hostQueue = [] → step s = .next s)

/-- R288, R125, R284: a host in its `wait` loop polls as often as the free delay says (log 4), the polls leaving
`observed` and `draws` as they were (log 6); the next step is then the completion of the command in flight: `exec` of
the command PENDING decodes to, or the report of an illegal word. -/
def Obligations.WaitPollsUntilTheCommandCompletes : Prop :=
  ∀ (s : State) (rest : List HostEvent), s.status.busy = true → s.hostQueue = .wait :: rest →
    Host.Core.run Sys2Proof.core s.delay s = .next ({ s with delay := 0 } : State) ∧
      State.nextAgent { s with delay := 0 } = .engine ∧
      ∀ w, s.pending = some w →
        (∀ i, decode w = .ok i → step { s with delay := 0 } = exec i { s with delay := 0 }) ∧
        ((∀ i, decode w ≠ .ok i) →
          step { s with delay := 0 } = .next (({ s with delay := 0 } : State).raise .illegalCommand w))

/-- R32: a host write of CMD issues its word while BUSY = 0, and is dropped and sets OVR while BUSY = 1; CMD reads
0. The issue is that of R284; of the model's own field `delay`, log 4, nothing is said. -/
def Obligations.CmdWriteIssuesOrOverruns : Prop :=
  ∀ (s : State) (rest : List HostEvent) (w : Word),
    s.nextAgent = .host → s.hostQueue = .write (.offset 0x004) 4 w :: rest →
    (s.status.busy = false → ∃ d, step s = .next { s with
      pending := some w
      status := { s.status with busy := true, done := false, err := false }
      errCode := .none
      errInfo := 0#32
      hostQueue := rest
      delay := d }) ∧
    (s.status.busy = true → ∃ d, step s = .next { s with
      status := { s.status with ovr := true }
      hostQueue := rest
      delay := d }) ∧
    s.readOffset 0x004 = 0#32

/-- R261, R284: every completion clears BUSY, sets DONE and empties PENDING, leaves OVR, and either leaves STATUS.ERR,
ERRCODE and ERR_INFO as they were or sets ERR with an error code. -/
def Obligations.EveryCompletionReportsItsOutcome : Prop :=
  ∀ (i : Instr) (s t : State), exec i s = .next t →
    t.status.busy = false ∧ t.status.done = true ∧ t.status.ovr = s.status.ovr ∧ t.pending = none ∧
    ((t.status.err = s.status.err ∧ t.errCode = s.errCode ∧ t.errInfo = s.errInfo) ∨
      (t.status.err = true ∧ t.errCode ≠ .none))

/-- R288: the engine never hangs. Every command completes, except a tree walk over an arena without a tree below ROOT
while TREE_VALID = 1, which R58 excludes and the model faults on (log 9). -/
def Obligations.CommandsCompleteUnlessTheArenaIsBroken : Prop :=
  ∀ (i : Instr) (s : State), (∃ t, exec i s = .next t) ∨
    ((i = .encodeTree ∨ i = .buildIndex ∨ i = .decode) ∧ s.status.treeValid = true ∧ s.arena.tree = none ∧
      exec i s = .fault .arenaNotATree)

/-! ## Registers, windows and buffers (10_state.md, 20_memory.md) -/

/-- R33: STATUS's bits, its write-1-to-clear OVR, and its reset value. -/
def Obligations.StatusBitsAndOvrClear : Prop :=
  (∀ s : State,
    (s.readOffset 0x008).getLsbD 0 = s.status.busy ∧ (s.readOffset 0x008).getLsbD 1 = s.status.done ∧
    (s.readOffset 0x008).getLsbD 2 = s.status.err ∧ (s.readOffset 0x008).getLsbD 3 = s.status.ovr ∧
    (s.readOffset 0x008).getLsbD 4 = s.status.treeValid ∧ (s.readOffset 0x008).getLsbD 5 = s.status.indexValid ∧
    (∀ k, 6 ≤ k → (s.readOffset 0x008).getLsbD k = false)) ∧
  (∀ (s : State) (w : Word), s.status.busy = false →
    s.hostWrite 0x008 w = .next
      { s with status := { s.status with ovr := s.status.ovr && !w.getLsbD 3 } }) ∧
  (∀ (s : State) (w : Word), s.status.busy = true → w.getLsbD 3 = true → s.hostWrite 0x008 w = .next
      { s with status := { s.status with ovr := false } }) ∧
  State.reset.readOffset 0x008 = 0#32

/-- R54, R86, R88: reserved offsets read 0 and ignore writes, and the windows ignore writes. -/
def Obligations.WindowsAndReservedOffsetsIgnoreWrites : Prop :=
  ∀ (s : State) (off : Nat) (w : Word), off % 4 = 0 →
    (((0x044 ≤ off ∧ off < 0x10000) ∨ (0x30140 ≤ off ∧ off < 0x40000) ∨ (0x51FF0 ≤ off ∧ off < 0x60000) ∨
        (0x64000 ≤ off ∧ off < 0x70000) ∨ (0x70800 ≤ off ∧ off < 0x80000) ∨ (0x80400 ≤ off ∧ off < 0x100000)) →
      s.readOffset off = 0#32 ∧ (s.status.busy = false → s.hostWrite off w = .next s)) ∧
    (0x50000 ≤ off ∧ off < 0x100000 → s.status.busy = false → s.hostWrite off w = .next s)

/-- R31, R40 to R53, R88, R124: the value each register reads as, and what a host write does to it: ARG0 and the three
length registers take any value, the others ignore it. With BUSY = 0 the step of a read event of any offset of the
aperture observes that offset's value and changes nothing of the block, and the step of a write event is the outcome of
the write (of the model's own fields `delay` and `draws`, logs 4 and 18, nothing is said; `observed` is log 6). -/
def Obligations.RegistersReadAndTakeWrites : Prop :=
  (∀ (s : State) (rest : List HostEvent) (loc : Loc) (off : Nat) (w : Word), s.status.busy = false →
    loc.resolve = some off → off % 4 = 0 →
    (s.hostQueue = .read loc 4 :: rest → ∃ d n, step s = .next { s with
      hostQueue := rest
      delay := d
      draws := n
      observed := ⟨off, s.readOffset off⟩ :: s.observed }) ∧
    (s.hostQueue = .write loc 4 w :: rest → ∃ d,
      step s = ({ s with hostQueue := rest, delay := d } : State).hostWrite off w)) ∧
  ∀ (s : State) (w : Word), s.status.busy = false →
    s.readOffset 0x000 = 0x48554637#32 ∧ s.readOffset 0x00C = s.errCode.code.setWidth 32 ∧
    s.readOffset 0x010 = s.errInfo ∧ s.readOffset 0x014 = s.arg0 ∧ s.readOffset 0x018 = s.result0 ∧
    (s.readOffset 0x01C).toNat = 2 ^ 31 * s.result1.valid.toNat + s.result1.tag.toNat ∧
    s.readOffset 0x020 = s.msgLen ∧ s.readOffset 0x024 = s.tbsLen ∧ s.readOffset 0x028 = s.mbsLen ∧
    s.readOffset 0x02C = s.outLen ∧ s.readOffset 0x030 = s.arena.root.setWidth 32 ∧
    s.readOffset 0x034 = s.arena.count.setWidth 32 ∧ s.readOffset 0x038 = s.arena.unique.setWidth 32 ∧
    s.readOffset 0x03C = s.heap.size.setWidth 32 ∧
    (s.readOffset 0x040).toNat = 2 ^ 16 * (if s.heap.pol = .max then 1 else 0) + s.heap.cap.toNat ∧
    s.hostWrite 0x014 w = .next { s with arg0 := w } ∧ s.hostWrite 0x020 w = .next { s with msgLen := w } ∧
    s.hostWrite 0x024 w = .next { s with tbsLen := w } ∧ s.hostWrite 0x028 w = .next { s with mbsLen := w } ∧
    (∀ off ∈ [0x000, 0x00C, 0x010, 0x018, 0x01C, 0x02C, 0x030, 0x034, 0x038, 0x03C, 0x040],
      s.hostWrite off w = .next s)

/-- R85, R87: the windows' layout for entries in use; every other entry reads all 0, and FREQ is never masked. -/
def Obligations.WindowsShowOnlyEntriesInUse : Prop :=
  (∀ (s : State) (n : Nat), n < 511 → n < s.arena.count.toNat →
    let x := tableGet s.arena.nodes n
    (s.readOffset (0x50000 + 16 * n)).toNat = 256 * x.value.toNat + (if x.kind = .internal then 1 else 0) ∧
    (s.readOffset (0x50000 + 16 * n + 4)).toNat = 65536 * x.right.toNat + x.left.toNat ∧
    (s.readOffset (0x50000 + 16 * n + 8)).toNat = x.parent.toNat ∧
    s.readOffset (0x50000 + 16 * n + 12) = x.weight) ∧
  (∀ (s : State) (v : Nat), v < 256 → s.status.indexValid = true → (tableGet s.code v).valid = true →
    (s.readOffset (0x60000 + 64 * v)).toNat = 2 ^ 31 + (tableGet s.code v).len.toNat ∧
    (∀ k j, k < 8 → j < 32 →
      (s.readOffset (0x60000 + 64 * v + 4 * (1 + k))).getLsbD j = (tableGet s.code v).bits.getLsbD (32 * k + j)) ∧
    (∀ k, 9 ≤ k → k < 16 → s.readOffset (0x60000 + 64 * v + 4 * k) = 0#32)) ∧
  (∀ (s : State) (i : Nat), i < 256 → i < s.heap.size.toNat →
    s.readOffset (0x70000 + 8 * i) = (tableGet s.heap.items i).key ∧
    (s.readOffset (0x70000 + 8 * i + 4)).toNat = (tableGet s.heap.items i).tag.toNat) ∧
  (∀ (s : State) (v : Nat), v < 256 → s.readOffset (0x80000 + 4 * v) = tableGet s.freq v) ∧
  (∀ s : State,
    (∀ n w, n < 511 → w < 4 → s.arena.count.toNat ≤ n → s.readOffset (0x50000 + 16 * n + 4 * w) = 0#32) ∧
    (∀ v w, v < 256 → w < 16 → s.status.indexValid = false → s.readOffset (0x60000 + 64 * v + 4 * w) = 0#32) ∧
    (∀ v w, v < 256 → w < 16 → (tableGet s.code v).valid = false →
      s.readOffset (0x60000 + 64 * v + 4 * w) = 0#32) ∧
    (∀ i w, i < 256 → w < 2 → s.heap.size.toNat ≤ i → s.readOffset (0x70000 + 8 * i + 4 * w) = 0#32))

/-- R82, R89, R91: a buffer word reads back what the host wrote, and no other offset of the aperture changes; a host
that writes it and then reads it observes what it wrote (`observed` is log 6). -/
def Obligations.BufferWordsReadBack : Prop :=
  ∀ (s : State) (off : Nat) (w : Word), s.mem.wf → s.status.busy = false → off % 4 = 0 →
    ((0x10000 ≤ off ∧ off < 0x30140) ∨ (0x40000 ≤ off ∧ off < 0x50000)) →
    (∃ t, s.hostWrite off w = .next t ∧ t = { s with mem := t.mem } ∧ t.readOffset off = w ∧
      ∀ off', off' % 4 = 0 → off' ≠ off → t.readOffset off' = s.readOffset off') ∧
    ∀ rest, s.hostQueue = .write (.offset off) 4 w :: .read (.offset off) 4 :: rest →
      ∃ t, Host.Core.run Sys2Proof.core 2 s = .next t ∧ t.hostQueue = rest ∧
        t.observed = ⟨off, w⟩ :: s.observed

/-- R83: byte k of MSG, as the engine reads it, and byte k of OUT are bits [8(k mod 4)+7 : 8(k mod 4)] of the word at
4 x (k / 4) from the buffer's base. -/
def Obligations.BuffersPackBytesLittleEndian : Prop :=
  ∀ (s : State) (k : Nat), k < 65536 →
    (k < s.msgLen.toNat →
      s.message[k]? = some ((s.readOffset (0x10000 + 4 * (k / 4))).extractLsb' (8 * (k % 4)) 8)) ∧
    s.mem.readByte s.draws (0x20000 + k) = (s.readOffset (0x20000 + 4 * (k / 4))).extractLsb' (8 * (k % 4)) 8

/-- R84: stream bit i of TBS and of MBS, as the engine reads it, is bit i mod 32 of word i / 32, and BitWrite writes
it and no other bit of the buffer's words. -/
def Obligations.StreamBitsSitInTheirWords : Prop :=
  (∀ (s : State) (i : Nat),
    (i < 2560 → s.treeBit i = (s.readOffset (0x30000 + 4 * (i / 32))).getLsbD (i % 32)) ∧
    (i < 524288 → i < s.mbsLen.toNat →
      s.messageBits[i]? = some ((s.readOffset (0x40000 + 4 * (i / 32))).getLsbD (i % 32)))) ∧
  (∀ (m : Memory) (n base i j : Nat) (b : Bool), m.wf → (base = 0x30000 ∧ i < 2560) ∨ (base = 0x40000 ∧ i < 524288) →
    ((m.writeBit base i b).readWord n (base + 4 * (j / 32))).getLsbD (j % 32) =
      if j = i then b else (m.readWord n (base + 4 * (j / 32))).getLsbD (j % 32))

/-- R285, R289: while BUSY = 1 a read of STATUS or ID returns its value and every other read an unspecified one (the
free value of log 10); a write of 1 to STATUS bit 3 clears OVR, and every write but that and a CMD write is refused. -/
def Obligations.BusyHazardsAreUnspecifiedOrRefused : Prop :=
  ∀ (s : State) (rest : List HostEvent) (off : Nat) (w : Word),
    s.status.busy = true → s.nextAgent = .host → off % 4 = 0 → off < 0x100000 →
    (s.hostQueue = .read (.offset off) 4 :: rest → step s = .next { s with
      hostQueue := rest
      delay := s.delay - 1
      draws := s.draws + 1
      observed := ⟨off, if off = 0x008 then s.status.toWord else if off = 0x000 then 0x48554637#32
        else Config.freeWord s.draws⟩ :: s.observed }) ∧
    (s.hostQueue = .write (.offset off) 4 w :: rest →
      (off = 0x008 → w.getLsbD 3 = true → step s = .next { s with
        status := { s.status with ovr := false }, hostQueue := rest, delay := s.delay - 1 }) ∧
      (off ≠ 0x004 → ¬(off = 0x008 ∧ w.getLsbD 3 = true) → step s = .refused .hazardWrite))

/-- R82, R13, R289: an access that is not an aligned 32-bit word is refused, and a bus address inside the aperture is
an access at its distance from BASE. An address outside the aperture faults (the model's choice, log 8). -/
def Obligations.OnlyAlignedWordsOfTheApertureAreAccessed : Prop :=
  ∀ (s : State) (rest : List HostEvent) (loc : Loc) (bytes : Nat) (w : Word) (e : HostEvent),
    s.nextAgent = .host → s.hostQueue = e :: rest → (e = .read loc bytes ∨ e = .write loc bytes w) →
    (∀ off, loc = .bus (Config.base + off) → off < 0x100000 → loc.resolve = some off) ∧
    (∀ off, loc.resolve = some off → (bytes ≠ 4 ∨ off % 4 ≠ 0) → step s = .refused .subWordOrMisaligned) ∧
    (∀ off, loc = .offset off → 0x100000 ≤ off → step s = .fault .outsideAperture) ∧
    (∀ addr, loc = .bus addr → (addr < Config.base ∨ Config.base + 0x100000 ≤ addr) →
      step s = .fault .outsideAperture)

/-- R280, R281, V-R1: reset gives every register its reset value whatever was in flight, holds nothing in the buffers
and masks the tables; the outside world's own fields stay (log 15). -/
def Obligations.ResetGivesEveryRegisterItsValue : Prop :=
  ∀ (s : State) (rest : List HostEvent), s.nextAgent = .host → s.hostQueue = .reset :: rest →
    ∃ t, step s = .next t ∧ t.pending = none ∧ t.mem.written = [] ∧ t.hostQueue = rest ∧ t.observed = s.observed ∧
      (∀ off ∈ [0x004, 0x008, 0x00C, 0x010, 0x014, 0x018, 0x01C, 0x020, 0x024, 0x028, 0x02C, 0x034, 0x038, 0x03C,
        0x040], t.readOffset off = 0#32) ∧
      t.readOffset 0x000 = 0x48554637#32 ∧ t.readOffset 0x030 = 0x1FF#32 ∧
      (∀ off, off % 4 = 0 → 0x50000 ≤ off → off < 0x100000 → t.readOffset off = 0#32)

/-! ## The heap commands (40_heap.md) -/

/-- R144: HEAP_NEW empties the heap and sets CAP and POL; nothing else changes but the completion. -/
def Obligations.HeapNewMakesAnEmptyHeap : Prop :=
  ∀ (cap : BitVec 9) (pol : Polarity) (s : State), cap.toNat ≤ 256 →
    exec (.heapNew cap pol) s = .next
      ({ s with heap := { s.heap with cap := cap, pol := pol, size := 0#9 } } : State).complete

/-- R145, R149: HEAP_INSERT into a heap that is not full adds exactly (ARG0, TAG), keeps the heap property, and leaves
every entry above the new item and all else unchanged. -/
def Obligations.HeapInsertAddsTheItem : Prop :=
  ∀ (tag : Tag) (s : State), s.heap.bounded → s.heap.size ≠ s.heap.cap →
    ∃ t, exec (.heapInsert tag) s = .next t ∧ t = ({ s with heap := t.heap } : State).complete ∧
      t.heap.size.toNat = s.heap.size.toNat + 1 ∧ t.heap.cap = s.heap.cap ∧ t.heap.pol = s.heap.pol ∧
      t.heap.live.Perm (⟨s.arg0, tag⟩ :: s.heap.live) ∧ (s.heap.ordered → t.heap.ordered) ∧
      (∀ j, s.heap.size.toNat < j → tableGet t.heap.items j = tableGet s.heap.items j)

/-- R252: HEAP_INSERT with HEAP_SIZE = CAP raises CAPACITY_EXCEEDED with ERR_INFO = CAP and changes nothing of the heap
or any other state, and BUILD_TREE never raises it. -/
def Obligations.FullHeapRejectsAnInsert : Prop :=
  (∀ (tag : Tag) (s : State), s.heap.size = s.heap.cap →
    exec (.heapInsert tag) s = .next (s.raise .capacityExceeded (BitVec.ofNat 32 s.heap.cap.toNat))) ∧
  (∀ s t : State, exec .buildTree s = .next t → t.errCode = .capacityExceeded → s.errCode = .capacityExceeded)

/-- R146, R149: HEAP_EXTRACT from a heap with items returns the root in RESULT0 and RESULT1 and removes exactly it; in
an ordered heap no item left is before it, and the heap property is kept; the entries from the last item's up and all
else are unchanged. -/
def Obligations.HeapExtractRemovesTheFirstItem : Prop :=
  ∀ s : State, s.heap.bounded → s.heap.size ≠ 0#9 →
    let top := tableGet s.heap.items 0
    ∃ t, exec .heapExtract s = .next t ∧
      t = ({ s with heap := t.heap, result0 := top.key, result1 := ⟨true, top.tag⟩ } : State).complete ∧
      t.heap.size.toNat + 1 = s.heap.size.toNat ∧ t.heap.cap = s.heap.cap ∧ t.heap.pol = s.heap.pol ∧
      s.heap.live.Perm (top :: t.heap.live) ∧
      (s.heap.ordered → t.heap.ordered ∧ ∀ x ∈ t.heap.live, before s.heap.pol x top = false) ∧
      (∀ j, s.heap.size.toNat ≤ j + 1 → tableGet t.heap.items j = tableGet s.heap.items j)

/-- R146 to R148, R265: an empty extract, a peek and a size query complete without error, write only RESULT0 and
RESULT1, and do not change the heap. -/
def Obligations.HeapQueriesWriteOnlyTheResults : Prop :=
  (∀ s : State, s.heap.size = 0#9 →
    exec .heapExtract s = .next ({ s with result0 := 0#32, result1 := ⟨false, 0#16⟩ } : State).complete) ∧
  (∀ (idx : BitVec 9) (s : State), idx.toNat < s.heap.size.toNat →
    exec (.heapPeek idx) s = .next ({ s with
      result0 := (tableGet s.heap.items idx.toNat).key
      result1 := ⟨true, (tableGet s.heap.items idx.toNat).tag⟩ } : State).complete) ∧
  (∀ (idx : BitVec 9) (s : State), s.heap.size.toNat ≤ idx.toNat →
    exec (.heapPeek idx) s = .next ({ s with result0 := 0#32, result1 := ⟨false, 0#16⟩ } : State).complete) ∧
  (∀ s : State, exec .heapSize s = .next
    ({ s with result0 := BitVec.ofNat 32 s.heap.size.toNat, result1 := ⟨false, 0#16⟩ } : State).complete)

/-- R142, R143: an item never moves above an equal-keyed parent, and of two equal children sift-down takes the left. -/
def Obligations.EqualKeysKeepTheirPlaces : Prop :=
  (∀ (tag : Tag) (s : State), s.heap.bounded → s.heap.size ≠ s.heap.cap → s.heap.size ≠ 0#9 →
    s.arg0 = (tableGet s.heap.items ((s.heap.size.toNat - 1) / 2)).key →
    ∃ t, exec (.heapInsert tag) s = .next t ∧
      t.heap.items = tableSet s.heap.items s.heap.size.toNat ⟨s.arg0, tag⟩) ∧
  (∀ (pol : Polarity) (size fuel i : Nat) (h : Vector HeapItem 256), 2 * i + 2 < size → size ≤ 256 →
    (tableGet h (2 * i + 1)).key = (tableGet h (2 * i + 2)).key →
    before pol (tableGet h (2 * i + 1)) (tableGet h i) = true →
    tableGet (siftDown pol size (fuel + 1) i h) i = tableGet h (2 * i + 1))

/-! ## BUILD_TREE (41_tree_builder.md) -/

/-- R253: BUILD_TREE of a zero-length message raises EMPTY_INPUT with ERR_INFO = 0, and nothing changes. -/
def Obligations.EmptyMessageIsRefused : Prop :=
  ∀ s : State, s.msgLen = 0#32 → exec .buildTree s = .next (s.raise .emptyInput 0#32)

/-- R171: FREQ counts the positions of each byte value, each count is at most MSG_LEN, the counts sum to MSG_LEN, and
UNIQUE is the number of values present. -/
def Obligations.TallyCountsTheMessage : Prop :=
  ∀ s : State, s.msgLen ≠ 0#32 → s.msgLen.toNat ≤ 65536 →
    ∃ t, exec .buildTree s = .next t ∧
      (∀ v, v < 256 → (tableGet t.freq v).toNat = s.message.count (BitVec.ofNat 8 v)) ∧
      (∀ v, v < 256 → (tableGet t.freq v).toNat ≤ s.msgLen.toNat) ∧
      ((List.range 256).map fun v => (tableGet t.freq v).toNat).sum = s.msgLen.toNat ∧
      t.arena.unique.toNat = ((List.range 256).filter fun v => decide (0 < (tableGet t.freq v).toNat)).length

/-- R170, R174, R178: a BUILD_TREE of 1 to 65536 bytes completes with a tree and no index, the heap empty with
CAP = min(MSG_LEN, 256) and POL = min, NODE_COUNT = 2 x UNIQUE − 1 and ROOT = NODE_COUNT − 1; it writes nothing but
FREQ, the heap, the tree registers, the entries NODE[0..NODE_COUNT−1] and the two bits. -/
def Obligations.BuildTreeLeavesATreeAndAnEmptyHeap : Prop :=
  ∀ s : State, s.msgLen ≠ 0#32 → s.msgLen.toNat ≤ 65536 →
    ∃ t, exec .buildTree s = .next t ∧
      t = ({ s with
        freq := t.freq
        heap := t.heap
        arena := t.arena
        status := { s.status with treeValid := true, indexValid := false } } : State).complete ∧
      t.heap.size = 0#9 ∧ t.heap.cap.toNat = min s.msgLen.toNat 256 ∧ t.heap.pol = .min ∧
      t.arena.count.toNat + 1 = 2 * t.arena.unique.toNat ∧ t.arena.root.toNat + 1 = t.arena.count.toNat ∧
      (∀ n, t.arena.count.toNat ≤ n → tableGet t.arena.nodes n = tableGet s.arena.nodes n)

/-- R175: after a successful BUILD_TREE the tree invariant holds; NODE_COUNT = 2U − 1, ROOT = NODE_COUNT − 1, the
leaves are NODE[0..U−1]; every internal node's WEIGHT is the sum of its children's, and the root's is MSG_LEN. -/
def Obligations.BuiltTreeMeetsTheTreeInvariant : Prop :=
  ∀ s t : State, s.msgLen ≠ 0#32 → s.msgLen.toNat ≤ 65536 → exec .buildTree s = .next t →
    ∃ T, t.arena.holds T ∧ T.weighted t.arena.nodes ∧
      t.arena.count.toNat + 1 = 2 * t.arena.unique.toNat ∧ t.arena.root.toNat + 1 = t.arena.count.toNat ∧
      (tableGet t.arena.nodes t.arena.root.toNat).weight = s.msgLen ∧
      (∀ n, n < t.arena.count.toNat →
        ((tableGet t.arena.nodes n).kind = .leaf ↔ n < t.arena.unique.toNat))

/-- R172: leaf NODE[j] is the j-th smallest byte value present, with its frequency as its weight. -/
def Obligations.LeavesAreNumberedByAscendingValue : Prop :=
  ∀ s t : State, s.msgLen ≠ 0#32 → s.msgLen.toNat ≤ 65536 → exec .buildTree s = .next t →
    (List.range t.arena.unique.toNat).map (fun j => (tableGet t.arena.nodes j).value.toNat) =
      (List.range 256).filter (fun v => decide (BitVec.ofNat 8 v ∈ s.message)) ∧
    ∀ j, j < t.arena.unique.toNat →
      (tableGet t.arena.nodes j).weight.toNat = s.message.count (tableGet t.arena.nodes j).value

/-- R173: the first node extracted in a merge is the left child, so a left child is never heavier than its sibling,
and a node made later is never lighter than one made before it among the internal nodes. -/
def Obligations.LeftChildIsNoHeavierThanTheRight : Prop :=
  ∀ s t : State, s.msgLen ≠ 0#32 → s.msgLen.toNat ≤ 65536 → exec .buildTree s = .next t →
    (∀ n, t.arena.unique.toNat ≤ n → n < t.arena.count.toNat →
      let x := tableGet t.arena.nodes n
      (tableGet t.arena.nodes x.left.toNat).weight.toNat ≤ (tableGet t.arena.nodes x.right.toNat).weight.toNat) ∧
    (∀ n, t.arena.unique.toNat ≤ n → n + 1 < t.arena.count.toNat →
      (tableGet t.arena.nodes n).weight.toNat ≤ (tableGet t.arena.nodes (n + 1)).weight.toNat)

/-- R177: the tree is a function of the message: what the arena held before, the heap's old entries and every other
register do not matter. -/
def Obligations.TreeDependsOnlyOnTheMessage : Prop :=
  ∀ s s' t t' : State, s.msgLen ≠ 0#32 → s.msgLen.toNat ≤ 65536 → s'.msgLen = s.msgLen → s'.message = s.message →
    exec .buildTree s = .next t → exec .buildTree s' = .next t' →
    t'.freq = t.freq ∧ t'.arena.root = t.arena.root ∧ t'.arena.count = t.arena.count ∧
      t'.arena.unique = t.arena.unique ∧
      ∀ n, n < t.arena.count.toNat → tableGet t'.arena.nodes n = tableGet t.arena.nodes n

/-! ## ENCODE_TREE and DESERIALIZE_TREE (42_tree_serdes.md) -/

/-- R193, R190, R191: ENCODE_TREE writes the tree's word of the grammar to TBS stream bits [0, TBS_LEN) and its length
to TBS_LEN; every TBS bit at or above it, every other byte and all else are unchanged. -/
def Obligations.EncodeTreeWritesTheTreesWord : Prop :=
  ∀ (s : State) (T : Tree), s.mem.wf → s.status.treeValid = true → s.arena.tree = some T →
    ∃ t, exec .encodeTree s = .next t ∧
      t = ({ s with mem := t.mem, tbsLen := BitVec.ofNat 32 T.shape.word.length } : State).complete ∧
      (∀ n j, t.mem.readBit n 0x30000 j = T.shape.word[j]?.getD (s.mem.readBit n 0x30000 j)) ∧
      (∀ n a, (a < 0x30000 ∨ 0x30000 + (T.shape.word.length + 7) / 8 ≤ a) → t.mem.readByte n a = s.mem.readByte n a)

/-- R192: the serialized length of a held tree is NODE_COUNT + 8 x UNIQUE = 10 x UNIQUE − 1, from 9 bits for one leaf
to 2559 for 256. -/
def Obligations.SerializedLengthFollowsFromTheCounts : Prop :=
  ∀ (s t : State) (T : Tree), s.status.treeValid = true → s.arena.holds T → exec .encodeTree s = .next t →
    t.tbsLen.toNat = s.arena.count.toNat + 8 * s.arena.unique.toNat ∧
    t.tbsLen.toNat + 1 = 10 * s.arena.unique.toNat ∧ 9 ≤ t.tbsLen.toNat ∧ t.tbsLen.toNat ≤ 2559

/-- R194, R197: DESERIALIZE_TREE of a word of the grammar with at most 256 leaves holds the tree of that word, numbered
in pre-order from 0 with weight 0, and no index; it writes nothing else, and no entry from NODE_COUNT up. -/
def Obligations.DeserializeAcceptsEveryWordOfTheGrammar : Prop :=
  ∀ (s : State) (σ : Shape), σ.values.length ≤ 256 → σ.word = (List.range s.tbsLen.toNat).map s.treeBit →
    ∃ t T, exec .deserializeTree s = .next t ∧
      t = ({ s with
        arena := t.arena
        status := { s.status with treeValid := true, indexValid := false } } : State).complete ∧
      t.arena.holds T ∧ T.shape = σ ∧ T.indices = List.range t.arena.count.toNat ∧ t.arena.root = 0#9 ∧
      (∀ n, n < t.arena.count.toNat → (tableGet t.arena.nodes n).weight = 0#32) ∧
      (∀ n, t.arena.count.toNat ≤ n → tableGet t.arena.nodes n = tableGet s.arena.nodes n)

/-- R197, R196, R254: DESERIALIZE_TREE of any other stream raises INVALID_TREE_FORMAT and holds no tree. -/
def Obligations.DeserializeRejectsEveryOtherStream : Prop :=
  ∀ s : State, (∀ σ : Shape, σ.values.length ≤ 256 → σ.word ≠ (List.range s.tbsLen.toNat).map s.treeBit) →
    ∃ t, exec .deserializeTree s = .next t ∧ t.status.err = true ∧ t.errCode = .invalidTreeFormat ∧
      t = ({ s with
        arena := { t.arena with root := Config.noNode, count := 0#10, unique := 0#9 }
        status := { s.status with treeValid := false, indexValid := false } } : State).raise
          .invalidTreeFormat t.errInfo

/-- R196 (a) to (e): the information word of every stream that is refused. A length of 0 or above 2560 gives TBS_LEN
(a); bits after a complete tree give the position of the first (b); a stream that ends inside a tree gives the position
of the 512th node's shape bit where it holds that bit (e), and TBS_LEN where it does not (c, d). Every stream of bits
goes on from a complete tree or ends inside one. -/
def Obligations.MalformedStreamsReportTheirPosition : Prop :=
  (∀ s : State, (s.tbsLen = 0#32 ∨ 2560 < s.tbsLen.toNat) →
    ∃ t, exec .deserializeTree s = .next t ∧ t.errCode = .invalidTreeFormat ∧ t.errInfo = s.tbsLen) ∧
  (∀ (s : State) (σ : Shape) (rest : List Bool), s.tbsLen.toNat ≤ 2560 → rest ≠ [] →
    (List.range s.tbsLen.toNat).map s.treeBit = σ.word ++ rest →
    ∃ t, exec .deserializeTree s = .next t ∧ t.errCode = .invalidTreeFormat ∧ t.errInfo.toNat = σ.word.length) ∧
  (∀ (s : State) (σ : Shape) (rest : List Bool), s.tbsLen ≠ 0#32 → s.tbsLen.toNat ≤ 2560 → rest ≠ [] →
    (List.range s.tbsLen.toNat).map s.treeBit ++ rest = σ.word →
    ∃ t, exec .deserializeTree s = .next t ∧ t.errCode = .invalidTreeFormat ∧
      (∀ q, (σ.starts 0)[511]? = some q → q < s.tbsLen.toNat → t.errInfo.toNat = q) ∧
      ((∀ q, (σ.starts 0)[511]? = some q → s.tbsLen.toNat ≤ q) → t.errInfo = s.tbsLen)) ∧
  (∀ bits : List Bool, (∃ (σ : Shape) (rest : List Bool), bits = σ.word ++ rest) ∨
    ∃ (σ : Shape) (rest : List Bool), rest ≠ [] ∧ bits ++ rest = σ.word)

/-- R197: ENCODE_TREE then DESERIALIZE_TREE gives a tree of the same shape with the same leaf values, renumbered in
pre-order with every weight 0; and after an accepted DESERIALIZE_TREE, ENCODE_TREE rewrites the same length and bits. -/
def Obligations.TreeBitstreamRoundTrips : Prop :=
  (∀ (s : State) (T : Tree), s.mem.wf → s.status.treeValid = true → s.arena.holds T →
    ∃ t u U, exec .encodeTree s = .next t ∧ exec .deserializeTree t = .next u ∧ u.status.treeValid = true ∧
      u.arena.holds U ∧ U.shape = T.shape ∧ U.indices = List.range u.arena.count.toNat ∧
      ∀ n, n < u.arena.count.toNat → (tableGet u.arena.nodes n).weight = 0#32) ∧
  (∀ s t : State, s.mem.wf → exec .deserializeTree s = .next t → t.status.treeValid = true →
    ∃ u, exec .encodeTree t = .next u ∧ u.tbsLen = s.tbsLen ∧
      ∀ j, j < s.tbsLen.toNat → u.treeBit j = s.treeBit j)

/-! ## BUILD_INDEX, ENCODE and DECODE (43_message_codec.md) -/

/-- R212, R210, R211, R59: BUILD_INDEX of a tree with distinct leaf values gives each leaf's value its root-to-leaf
path as its code, the code `0` for a single leaf, and every other value an absent entry; it writes nothing else. -/
def Obligations.IndexHoldsThePathOfEveryLeaf : Prop :=
  ∀ (s : State) (T : Tree), s.status.treeValid = true → s.arena.tree = some T → T.shape.values.Nodup →
    ∃ t, exec .buildIndex s = .next t ∧
      t = ({ s with code := t.code, status := { s.status with indexValid := true } } : State).complete ∧
      (∀ p ∈ T.shape.paths,
        let c := tableGet t.code p.2.toNat
        let path := if p.1 = [] then [false] else p.1
        c.valid = true ∧ c.len.toNat = path.length ∧ ∀ j, c.bits.getLsbD j = path[j]?.getD false) ∧
      (∀ v : Byte, v ∉ T.shape.values → tableGet t.code v.toNat = ⟨false, 0#8, 0#255⟩)

/-- R212, R254: BUILD_INDEX of a tree with a repeated leaf value raises INVALID_TREE_FORMAT with the index of the first
leaf in pre-order whose value came before; no index is held and the tree is kept. -/
def Obligations.RepeatedLeafValueHasNoIndex : Prop :=
  ∀ (s : State) (T : Tree) (pre post : List CodedLeaf) (x : CodedLeaf),
    s.status.treeValid = true → s.arena.tree = some T → T.codes = pre ++ x :: post →
    (pre.map (·.value)).Nodup → x.value ∈ pre.map (·.value) →
    ∃ t, exec .buildIndex s = .next t ∧
      t = ({ s with code := t.code, status := { s.status with indexValid := false } } : State).raise
        .invalidTreeFormat (BitVec.ofNat 32 x.idx)

/-- R218: no code of a tree is a prefix of another leaf's code. -/
def Obligations.CodesArePrefixFree : Prop :=
  ∀ (T : Tree) (i j : Nat) (x y : CodedLeaf), T.codes[i]? = some x → T.codes[j]? = some y → i ≠ j →
    ¬x.path <+: y.path

/-- R213, R214: ENCODE of a message whose bytes all have codes and whose encoded length fits writes the concatenated
codes to MBS stream bits [0, MBS_LEN) and the sum of the code lengths to MBS_LEN; every MBS bit at or above it, every
other byte and all else are unchanged. -/
def Obligations.EncodeWritesTheConcatenatedCodes : Prop :=
  ∀ s : State, s.mem.wf → s.status.indexValid = true → s.msgLen.toNat ≤ 65536 →
    (∀ b ∈ s.message, (tableGet s.code b.toNat).valid = true) →
    let total := (s.message.map fun b => (tableGet s.code b.toNat).len.toNat).sum
    let bits := s.message.flatMap fun b =>
      (List.range (tableGet s.code b.toNat).len.toNat).map (tableGet s.code b.toNat).bits.getLsbD
    total ≤ 524288 →
    ∃ t, exec .encode s = .next t ∧
      t = ({ s with mem := t.mem, mbsLen := BitVec.ofNat 32 total } : State).complete ∧
      (∀ n j, t.mem.readBit n 0x40000 j = bits[j]?.getD (s.mem.readBit n 0x40000 j)) ∧
      (∀ n a, (a < 0x40000 ∨ 0x40000 + (total + 7) / 8 ≤ a) → t.mem.readByte n a = s.mem.readByte n a)

/-- R257, R258, R259: BUILD_INDEX, ENCODE_TREE and DECODE without a tree raise NO_TREE and ENCODE without an index
raises NO_INDEX, each with ERR_INFO = 0; ENCODE that meets a byte without a valid code entry raises NO_CODE with the
offset of the first such byte. Nothing changes, except that a DECODE without a tree has set OUT_LEN = 0. -/
def Obligations.MissingTreeIndexOrCodeIsReported : Prop :=
  (∀ s : State, s.status.treeValid = false →
    exec .buildIndex s = .next (s.raise .noTree 0#32) ∧ exec .encodeTree s = .next (s.raise .noTree 0#32) ∧
    exec .decode s = .next (({ s with outLen := 0#32 } : State).raise .noTree 0#32)) ∧
  (∀ s : State, s.status.indexValid = false → exec .encode s = .next (s.raise .noIndex 0#32)) ∧
  (∀ (s : State) (k : Nat) (b : Byte), s.status.indexValid = true → s.msgLen.toNat ≤ 65536 →
    s.message[k]? = some b → (tableGet s.code b.toNat).valid = false →
    (∀ j c, j < k → s.message[j]? = some c → (tableGet s.code c.toNat).valid = true) →
    exec .encode s = .next (s.raise .noCode (BitVec.ofNat 32 k)))

/-- R260: the four cases of BUFFER_OVERFLOW with their information words; BUILD_TREE and ENCODE change nothing, and
DECODE leaves OUT_LEN = 0. -/
def Obligations.LengthsBeyondABufferOverflow : Prop :=
  (∀ s : State, 65536 < s.msgLen.toNat → exec .buildTree s = .next (s.raise .bufferOverflow s.msgLen)) ∧
  (∀ s : State, s.status.indexValid = true → 65536 < s.msgLen.toNat →
    exec .encode s = .next (s.raise .bufferOverflow s.msgLen)) ∧
  (∀ s : State, s.status.indexValid = true → s.msgLen.toNat ≤ 65536 →
    (∀ b ∈ s.message, (tableGet s.code b.toNat).valid = true) →
    let total := (s.message.map fun b => (tableGet s.code b.toNat).len.toNat).sum
    524288 < total → exec .encode s = .next (s.raise .bufferOverflow (BitVec.ofNat 32 total))) ∧
  (∀ (s : State) (T : Tree) (ps : List CodedLeaf) (x : CodedLeaf) (rest : List Bool),
    s.status.treeValid = true → s.mbsLen.toNat ≤ 524288 → s.arena.tree = some T →
    (∀ p ∈ ps, p ∈ T.codes) → x ∈ T.codes → ps.length = 65536 →
    s.messageBits = ps.flatMap (·.path) ++ x.path ++ rest →
    ∃ t, exec .decode s = .next t ∧ t.errCode = .bufferOverflow ∧ t.status.err = true ∧ t.outLen = 0#32 ∧
      t.errInfo.toNat + 1 = (ps.flatMap (·.path)).length + x.path.length)

/-- R215: DECODE of a whole number of codes, at most 65536 of them, writes their leaves' values to OUT[0..k−1] and
their number k to OUT_LEN; every other byte and all else are unchanged. -/
def Obligations.DecodeWritesTheBytesOfTheCodes : Prop :=
  ∀ (s : State) (T : Tree) (ps : List CodedLeaf), s.mem.wf → s.status.treeValid = true →
    s.mbsLen.toNat ≤ 524288 → s.arena.tree = some T → (∀ p ∈ ps, p ∈ T.codes) → ps.length ≤ 65536 →
    s.messageBits = ps.flatMap (·.path) →
    ∃ t, exec .decode s = .next t ∧
      t = ({ s with mem := t.mem, outLen := BitVec.ofNat 32 ps.length } : State).complete ∧
      (∀ n k, k < ps.length → some (t.mem.readByte n (0x20000 + k)) = (ps[k]?).map (·.value)) ∧
      (∀ n a, (a < 0x20000 ∨ 0x20000 + ps.length ≤ a) → t.mem.readByte n a = s.mem.readByte n a)

/-- R255: the three causes of MALFORMED_BITSTREAM in DECODE with their information words, each with OUT_LEN = 0. -/
def Obligations.MalformedBitstreamsAreReported : Prop :=
  (∀ s : State, s.status.treeValid = true → 524288 < s.mbsLen.toNat →
    exec .decode s = .next (({ s with outLen := 0#32 } : State).raise .malformedBitstream s.mbsLen)) ∧
  (∀ (s : State) (n : Nat) (v : Byte) (k : Nat) (rest : List Bool),
    s.status.treeValid = true → s.mbsLen.toNat ≤ 524288 → s.arena.tree = some (.leaf n v) → k ≤ 65536 →
    s.messageBits = List.replicate k false ++ true :: rest →
    ∃ t, exec .decode s = .next t ∧ t.errCode = .malformedBitstream ∧ t.status.err = true ∧ t.outLen = 0#32 ∧
      t.errInfo = BitVec.ofNat 32 k) ∧
  (∀ (s : State) (T : Tree) (ps : List CodedLeaf) (x : CodedLeaf) (q rest : List Bool),
    s.status.treeValid = true → s.mbsLen.toNat ≤ 524288 → s.arena.holds T → (∀ p ∈ ps, p ∈ T.codes) →
    ps.length ≤ 65536 → x ∈ T.codes → x.path = q ++ rest → q ≠ [] → rest ≠ [] →
    s.messageBits = ps.flatMap (·.path) ++ q →
    ∃ t, exec .decode s = .next t ∧ t.errCode = .malformedBitstream ∧ t.status.err = true ∧ t.outLen = 0#32 ∧
      t.errInfo = s.mbsLen)

/-- R219: for a message of 1 to 65536 bytes, all written, BUILD_TREE, BUILD_INDEX and ENCODE complete, and where ENCODE
completes without error DECODE leaves the message in OUT and OUT_LEN = MSG_LEN. -/
def Obligations.MessageRoundTrips : Prop :=
  ∀ s : State, s.mem.wf → s.status.err = false → s.msgLen ≠ 0#32 → s.msgLen.toNat ≤ 65536 →
    (∀ k, k < s.msgLen.toNat → s.mem.byteWritten (0x10000 + k)) →
    ∃ t u v, exec .buildTree s = .next t ∧ exec .buildIndex t = .next u ∧ exec .encode u = .next v ∧
      u.status.err = false ∧
      (v.status.err = false → ∃ x, exec .decode v = .next x ∧ x.status.err = false ∧ x.outLen = s.msgLen ∧
        ∀ n k, k < s.msgLen.toNat →
          x.mem.readByte n (0x20000 + k) = s.mem.readByte n (0x10000 + k))

/-! ## Lifecycle, frames and failures (44_lifecycle.md, 20_memory.md R90, 60_exceptions.md R262) -/

/-- R240: TEARDOWN clears the two bits and the tree registers, without error and changing nothing else. -/
def Obligations.TeardownDropsTreeAndIndex : Prop :=
  ∀ s : State, exec .teardown s = .next ({ s with
    status := { s.status with treeValid := false, indexValid := false }
    arena := { s.arena with root := 0x1FF#9, count := 0#10, unique := 0#9 } } : State).complete

/-- R241: the only writes of TREE_VALID, INDEX_VALID and the tree registers, outcome by outcome; no host event but
reset writes them. -/
def Obligations.ValidityLifecycle : Prop :=
  let kept (s t : State) : Prop := t.status.treeValid = s.status.treeValid ∧ t.arena.root = s.arena.root ∧
    t.arena.count = s.arena.count ∧ t.arena.unique = s.arena.unique
  let noTree (t : State) : Prop := t.status.treeValid = false ∧ t.status.indexValid = false ∧
    t.arena.root = 0x1FF#9 ∧ t.arena.count = 0#10 ∧ t.arena.unique = 0#9
  noTree State.reset ∧
  (∀ s t : State, s.nextAgent = .host → step s = .next t →
    (s.hostQueue.head? = some .reset → noTree t) ∧
    (s.hostQueue.head? ≠ some .reset → kept s t ∧ t.status.indexValid = s.status.indexValid)) ∧
  (∀ (s t : State) (w : Word), s.completing w → (∀ i, decode w ≠ .ok i) → step s = .next t →
    kept s t ∧ t.status.indexValid = s.status.indexValid) ∧
  ∀ (i : Instr) (s t : State), s.status.err = false → exec i s = .next t →
    (i = .buildTree → t.status.err = false → t.status.treeValid = true ∧ t.status.indexValid = false) ∧
    (i = .buildTree → t.status.err = true → kept s t ∧ t.status.indexValid = s.status.indexValid) ∧
    (i = .deserializeTree → t.status.err = false → t.status.treeValid = true ∧ t.status.indexValid = false) ∧
    (i = .deserializeTree → t.status.err = true → noTree t) ∧
    (i = .buildIndex → kept s t) ∧
    (i = .buildIndex → t.status.err = false → t.status.treeValid = true ∧ t.status.indexValid = true) ∧
    (i = .buildIndex → t.status.err = true → t.errCode = .noTree →
      t.status.treeValid = false ∧ t.status.indexValid = s.status.indexValid) ∧
    (i = .buildIndex → t.status.err = true → t.errCode = .invalidTreeFormat →
      t.status.treeValid = true ∧ t.status.indexValid = false) ∧
    (i = .teardown → noTree t) ∧
    (i ≠ .buildTree → i ≠ .deserializeTree → i ≠ .buildIndex → i ≠ .teardown →
      kept s t ∧ t.status.indexValid = s.status.indexValid)

/-- R90: each command writes only its storage. Every register, table entry and byte a command is not listed with is
unchanged, whatever its outcome; the host's own fields are unchanged too. -/
def Obligations.EachCommandWritesOnlyItsStorage : Prop :=
  ∀ (i : Instr) (s t : State), exec i s = .next t →
    (t.arg0 = s.arg0 ∧ t.msgLen = s.msgLen ∧ t.hostQueue = s.hostQueue ∧ t.observed = s.observed ∧
      t.delay = s.delay ∧ t.status.ovr = s.status.ovr) ∧
    (i ≠ .heapExtract → (∀ x, i ≠ .heapPeek x) → i ≠ .heapSize → t.result0 = s.result0 ∧ t.result1 = s.result1) ∧
    ((∀ c p, i ≠ .heapNew c p) → i ≠ .buildTree → t.heap.cap = s.heap.cap ∧ t.heap.pol = s.heap.pol) ∧
    ((∀ c p, i ≠ .heapNew c p) → (∀ x, i ≠ .heapInsert x) → i ≠ .heapExtract → i ≠ .buildTree →
      t.heap = s.heap) ∧
    ((∃ c p, i = .heapNew c p) → t.heap.items = s.heap.items) ∧
    (i ≠ .buildTree → i ≠ .deserializeTree → i ≠ .teardown → t.arena = s.arena) ∧
    (i = .teardown → t.arena.nodes = s.arena.nodes) ∧
    (i ≠ .buildIndex → t.code = s.code) ∧
    (i ≠ .buildTree → t.freq = s.freq) ∧
    (i ≠ .encodeTree → t.tbsLen = s.tbsLen) ∧
    (i ≠ .encode → t.mbsLen = s.mbsLen) ∧
    (i ≠ .decode → t.outLen = s.outLen) ∧
    (i ≠ .encodeTree → i ≠ .encode → i ≠ .decode → t.mem = s.mem)

/-- R90, R48, R215, R262: DECODE stores exactly the bytes it emits to OUT[0..k−1], whatever its outcome, and they stay;
every other byte is unchanged. The bytes are those of the model's decoder, none where there is no tree or MBS_LEN is
above MBS_BITS, and they begin with the values of any whole codes, at most 65536, that the bitstream begins with. A
success leaves OUT_LEN = k and a failure OUT_LEN = 0. -/
def Obligations.DecodeStoresOnlyToOut : Prop :=
  (∀ s t : State, s.mem.wf → exec .decode s = .next t →
    let bytes := match s.arena.tree with
      | some T => if s.status.treeValid = true ∧ s.mbsLen.toNat ≤ 524288
          then (decodeFrom T T 0 0 s.messageBits).bytes else []
      | none => []
    bytes.length ≤ 65536 ∧ bytes.length ≤ s.mbsLen.toNat ∧
      (∀ n k, k < bytes.length → some (t.mem.readByte n (0x20000 + k)) = bytes[k]?) ∧
      (∀ n a, (a < 0x20000 ∨ 0x20000 + bytes.length ≤ a) → t.mem.readByte n a = s.mem.readByte n a) ∧
      (t.status.err = false → t.outLen.toNat = bytes.length) ∧
      (s.status.err = false → t.status.err = true → t.outLen = 0#32)) ∧
  (∀ (s t : State) (T : Tree) (ps : List CodedLeaf) (rest : List Bool), s.mem.wf → s.status.treeValid = true →
    s.mbsLen.toNat ≤ 524288 → s.arena.tree = some T → (∀ p ∈ ps, p ∈ T.codes) → ps.length ≤ 65536 →
    s.messageBits = ps.flatMap (·.path) ++ rest → exec .decode s = .next t →
    ∀ n k, k < ps.length → some (t.mem.readByte n (0x20000 + k)) = (ps[k]?).map (·.value))

/-- R262: what a failed command leaves. Every command but DESERIALIZE_TREE, BUILD_INDEX and DECODE changes nothing but
the registers of R261; DESERIALIZE_TREE leaves no tree; BUILD_INDEX keeps the tree, and NO_TREE changes nothing;
DECODE leaves OUT_LEN = 0. -/
def Obligations.FailedCommandsLeaveOnlyTheirListedEffects : Prop :=
  ∀ (i : Instr) (s t : State), s.status.err = false → exec i s = .next t → t.status.err = true →
    (i ≠ .deserializeTree → i ≠ .buildIndex → i ≠ .decode → t = s.raise t.errCode t.errInfo) ∧
    (i = .deserializeTree → t.status.treeValid = false ∧ t.status.indexValid = false ∧ t.arena.root = 0x1FF#9 ∧
      t.arena.count = 0#10 ∧ t.arena.unique = 0#9 ∧ t = ({ s with status := t.status, arena := t.arena } : State).raise
        t.errCode t.errInfo) ∧
    (i = .buildIndex → (t.errCode = .noTree ∧ t = s.raise .noTree 0#32) ∨
      (t.errCode = .invalidTreeFormat ∧ t.status.indexValid = false ∧ t.arena = s.arena)) ∧
    (i = .decode → t.outLen = 0#32 ∧ t.arena = s.arena ∧ t.code = s.code)

/-! ## Invariants that every step keeps -/

/-- 20_memory.md R81, R90: the buffers keep their canonical form, with nothing listed outside MSG, OUT, TBS and MBS. -/
def Obligations.StepKeepsTheBuffersCanonical : Prop :=
  ∀ s t : State, s.mem.wf → step s = .next t → t.mem.wf

/-- R151: HEAP_SIZE ≤ HEAP_CFG.CAP ≤ 256 at all times: at reset, and kept by every step. -/
def Obligations.StepKeepsTheHeapBounded : Prop :=
  State.reset.heap.bounded ∧ ∀ s t : State, s.heap.bounded → step s = .next t → t.heap.bounded

/-- R56, R149: the heap property is kept by every step. -/
def Obligations.StepKeepsTheHeapProperty : Prop :=
  ∀ s t : State, s.heap.bounded → s.heap.ordered → step s = .next t → t.heap.ordered

/-- R34 to R36, R40, R41, R65, R241, R58: kept by every step: BUSY and PENDING agree and the error registers say what
STATUS.ERR says; INDEX_VALID implies TREE_VALID, and without a tree the tree registers are NONE, 0 and 0. -/
def Obligations.StepKeepsReportAndLifecycle : Prop :=
  ∀ s t : State, step s = .next t → (s.reporting → t.reporting) ∧ (s.lifecycle → t.lifecycle)

/-- R58: whenever TREE_VALID = 1 the arena holds a tree, kept by every step, so no step from such a state faults over
a broken arena. -/
def Obligations.StepKeepsTheTreeInvariant : Prop :=
  (∀ s t : State, s.treeHeld → step s = .next t → t.treeHeld) ∧
  (∀ s : State, s.treeHeld → step s ≠ .fault .arenaNotATree)

/-- R39: whenever INDEX_VALID = 1 CODE is the code index of the current tree, kept by every step. -/
def Obligations.StepKeepsTheIndexOfTheTree : Prop :=
  ∀ s t : State, s.indexHeld → step s = .next t → t.indexHeld

/-- R280: every invariant above holds at reset. -/
def Obligations.ResetMeetsEveryInvariant : Prop :=
  State.reset.mem.wf ∧ State.reset.heap.bounded ∧ State.reset.heap.ordered ∧ State.reset.reporting ∧
    State.reset.lifecycle ∧ State.reset.treeHeld ∧ State.reset.indexHeld
end

