-- ==== Sys2Proof/Laws/State.lean ====
section
/-! SUPPORT. One lemma per field per update of State and of STATUS, so that no proof unfolds a record update. -/

namespace Sys2Proof.Machine

/-! ## issueAfter -/

@[simp] theorem issueAfter_status (w : Word) (d : Nat) (s : State) : (s.issueAfter w d).status = s.status.issue := rfl
@[simp] theorem issueAfter_errCode (w : Word) (d : Nat) (s : State) : (s.issueAfter w d).errCode = .none := rfl
@[simp] theorem issueAfter_errInfo (w : Word) (d : Nat) (s : State) : (s.issueAfter w d).errInfo = 0#32 := rfl
@[simp] theorem issueAfter_arg0 (w : Word) (d : Nat) (s : State) : (s.issueAfter w d).arg0 = s.arg0 := rfl
@[simp] theorem issueAfter_result0 (w : Word) (d : Nat) (s : State) : (s.issueAfter w d).result0 = s.result0 := rfl
@[simp] theorem issueAfter_result1 (w : Word) (d : Nat) (s : State) : (s.issueAfter w d).result1 = s.result1 := rfl
@[simp] theorem issueAfter_msgLen (w : Word) (d : Nat) (s : State) : (s.issueAfter w d).msgLen = s.msgLen := rfl
@[simp] theorem issueAfter_tbsLen (w : Word) (d : Nat) (s : State) : (s.issueAfter w d).tbsLen = s.tbsLen := rfl
@[simp] theorem issueAfter_mbsLen (w : Word) (d : Nat) (s : State) : (s.issueAfter w d).mbsLen = s.mbsLen := rfl
@[simp] theorem issueAfter_outLen (w : Word) (d : Nat) (s : State) : (s.issueAfter w d).outLen = s.outLen := rfl
@[simp] theorem issueAfter_heap (w : Word) (d : Nat) (s : State) : (s.issueAfter w d).heap = s.heap := rfl
@[simp] theorem issueAfter_arena (w : Word) (d : Nat) (s : State) : (s.issueAfter w d).arena = s.arena := rfl
@[simp] theorem issueAfter_code (w : Word) (d : Nat) (s : State) : (s.issueAfter w d).code = s.code := rfl
@[simp] theorem issueAfter_freq (w : Word) (d : Nat) (s : State) : (s.issueAfter w d).freq = s.freq := rfl
@[simp] theorem issueAfter_mem (w : Word) (d : Nat) (s : State) : (s.issueAfter w d).mem = s.mem := rfl
@[simp] theorem issueAfter_pending (w : Word) (d : Nat) (s : State) : (s.issueAfter w d).pending = some w := rfl
@[simp] theorem issueAfter_delay (w : Word) (d : Nat) (s : State) : (s.issueAfter w d).delay = d := rfl
@[simp] theorem issueAfter_draws (w : Word) (d : Nat) (s : State) : (s.issueAfter w d).draws = s.draws := rfl
@[simp] theorem issueAfter_hostQueue (w : Word) (d : Nat) (s : State) : (s.issueAfter w d).hostQueue = s.hostQueue := rfl
@[simp] theorem issueAfter_observed (w : Word) (d : Nat) (s : State) : (s.issueAfter w d).observed = s.observed := rfl

/-! ## issue -/

@[simp] theorem issue_status (w : Word) (s : State) : (s.issue w).status = s.status.issue := rfl
@[simp] theorem issue_errCode (w : Word) (s : State) : (s.issue w).errCode = .none := rfl
@[simp] theorem issue_errInfo (w : Word) (s : State) : (s.issue w).errInfo = 0#32 := rfl
@[simp] theorem issue_arg0 (w : Word) (s : State) : (s.issue w).arg0 = s.arg0 := rfl
@[simp] theorem issue_result0 (w : Word) (s : State) : (s.issue w).result0 = s.result0 := rfl
@[simp] theorem issue_result1 (w : Word) (s : State) : (s.issue w).result1 = s.result1 := rfl
@[simp] theorem issue_msgLen (w : Word) (s : State) : (s.issue w).msgLen = s.msgLen := rfl
@[simp] theorem issue_tbsLen (w : Word) (s : State) : (s.issue w).tbsLen = s.tbsLen := rfl
@[simp] theorem issue_mbsLen (w : Word) (s : State) : (s.issue w).mbsLen = s.mbsLen := rfl
@[simp] theorem issue_outLen (w : Word) (s : State) : (s.issue w).outLen = s.outLen := rfl
@[simp] theorem issue_heap (w : Word) (s : State) : (s.issue w).heap = s.heap := rfl
@[simp] theorem issue_arena (w : Word) (s : State) : (s.issue w).arena = s.arena := rfl
@[simp] theorem issue_code (w : Word) (s : State) : (s.issue w).code = s.code := rfl
@[simp] theorem issue_freq (w : Word) (s : State) : (s.issue w).freq = s.freq := rfl
@[simp] theorem issue_mem (w : Word) (s : State) : (s.issue w).mem = s.mem := rfl
@[simp] theorem issue_pending (w : Word) (s : State) : (s.issue w).pending = some w := rfl
@[simp] theorem issue_delay (w : Word) (s : State) : (s.issue w).delay = Config.freeDelay s.draws := rfl
@[simp] theorem issue_draws (w : Word) (s : State) : (s.issue w).draws = s.draws := rfl
@[simp] theorem issue_hostQueue (w : Word) (s : State) : (s.issue w).hostQueue = s.hostQueue := rfl
@[simp] theorem issue_observed (w : Word) (s : State) : (s.issue w).observed = s.observed := rfl

/-! ## complete -/

@[simp] theorem complete_status (s : State) : (s.complete).status = s.status.complete := rfl
@[simp] theorem complete_errCode (s : State) : (s.complete).errCode = s.errCode := rfl
@[simp] theorem complete_errInfo (s : State) : (s.complete).errInfo = s.errInfo := rfl
@[simp] theorem complete_arg0 (s : State) : (s.complete).arg0 = s.arg0 := rfl
@[simp] theorem complete_result0 (s : State) : (s.complete).result0 = s.result0 := rfl
@[simp] theorem complete_result1 (s : State) : (s.complete).result1 = s.result1 := rfl
@[simp] theorem complete_msgLen (s : State) : (s.complete).msgLen = s.msgLen := rfl
@[simp] theorem complete_tbsLen (s : State) : (s.complete).tbsLen = s.tbsLen := rfl
@[simp] theorem complete_mbsLen (s : State) : (s.complete).mbsLen = s.mbsLen := rfl
@[simp] theorem complete_outLen (s : State) : (s.complete).outLen = s.outLen := rfl
@[simp] theorem complete_heap (s : State) : (s.complete).heap = s.heap := rfl
@[simp] theorem complete_arena (s : State) : (s.complete).arena = s.arena := rfl
@[simp] theorem complete_code (s : State) : (s.complete).code = s.code := rfl
@[simp] theorem complete_freq (s : State) : (s.complete).freq = s.freq := rfl
@[simp] theorem complete_mem (s : State) : (s.complete).mem = s.mem := rfl
@[simp] theorem complete_pending (s : State) : (s.complete).pending = none := rfl
@[simp] theorem complete_delay (s : State) : (s.complete).delay = s.delay := rfl
@[simp] theorem complete_draws (s : State) : (s.complete).draws = s.draws + 1 := rfl
@[simp] theorem complete_hostQueue (s : State) : (s.complete).hostQueue = s.hostQueue := rfl
@[simp] theorem complete_observed (s : State) : (s.complete).observed = s.observed := rfl

/-! ## raise -/

@[simp] theorem raise_status (e : ErrCode) (w : Word) (s : State) : (s.raise e w).status = s.status.fail := rfl
@[simp] theorem raise_errCode (e : ErrCode) (w : Word) (s : State) : (s.raise e w).errCode = e := rfl
@[simp] theorem raise_errInfo (e : ErrCode) (w : Word) (s : State) : (s.raise e w).errInfo = w := rfl
@[simp] theorem raise_arg0 (e : ErrCode) (w : Word) (s : State) : (s.raise e w).arg0 = s.arg0 := rfl
@[simp] theorem raise_result0 (e : ErrCode) (w : Word) (s : State) : (s.raise e w).result0 = s.result0 := rfl
@[simp] theorem raise_result1 (e : ErrCode) (w : Word) (s : State) : (s.raise e w).result1 = s.result1 := rfl
@[simp] theorem raise_msgLen (e : ErrCode) (w : Word) (s : State) : (s.raise e w).msgLen = s.msgLen := rfl
@[simp] theorem raise_tbsLen (e : ErrCode) (w : Word) (s : State) : (s.raise e w).tbsLen = s.tbsLen := rfl
@[simp] theorem raise_mbsLen (e : ErrCode) (w : Word) (s : State) : (s.raise e w).mbsLen = s.mbsLen := rfl
@[simp] theorem raise_outLen (e : ErrCode) (w : Word) (s : State) : (s.raise e w).outLen = s.outLen := rfl
@[simp] theorem raise_heap (e : ErrCode) (w : Word) (s : State) : (s.raise e w).heap = s.heap := rfl
@[simp] theorem raise_arena (e : ErrCode) (w : Word) (s : State) : (s.raise e w).arena = s.arena := rfl
@[simp] theorem raise_code (e : ErrCode) (w : Word) (s : State) : (s.raise e w).code = s.code := rfl
@[simp] theorem raise_freq (e : ErrCode) (w : Word) (s : State) : (s.raise e w).freq = s.freq := rfl
@[simp] theorem raise_mem (e : ErrCode) (w : Word) (s : State) : (s.raise e w).mem = s.mem := rfl
@[simp] theorem raise_pending (e : ErrCode) (w : Word) (s : State) : (s.raise e w).pending = none := rfl
@[simp] theorem raise_delay (e : ErrCode) (w : Word) (s : State) : (s.raise e w).delay = s.delay := rfl
@[simp] theorem raise_draws (e : ErrCode) (w : Word) (s : State) : (s.raise e w).draws = s.draws + 1 := rfl
@[simp] theorem raise_hostQueue (e : ErrCode) (w : Word) (s : State) : (s.raise e w).hostQueue = s.hostQueue := rfl
@[simp] theorem raise_observed (e : ErrCode) (w : Word) (s : State) : (s.raise e w).observed = s.observed := rfl

/-! ## putSome -/

@[simp] theorem putSome_status (x : HeapItem) (s : State) : (s.putItem (some x)).status = s.status := rfl
@[simp] theorem putSome_errCode (x : HeapItem) (s : State) : (s.putItem (some x)).errCode = s.errCode := rfl
@[simp] theorem putSome_errInfo (x : HeapItem) (s : State) : (s.putItem (some x)).errInfo = s.errInfo := rfl
@[simp] theorem putSome_arg0 (x : HeapItem) (s : State) : (s.putItem (some x)).arg0 = s.arg0 := rfl
@[simp] theorem putSome_result0 (x : HeapItem) (s : State) : (s.putItem (some x)).result0 = x.key := rfl
@[simp] theorem putSome_result1 (x : HeapItem) (s : State) : (s.putItem (some x)).result1 = ⟨true, x.tag⟩ := rfl
@[simp] theorem putSome_msgLen (x : HeapItem) (s : State) : (s.putItem (some x)).msgLen = s.msgLen := rfl
@[simp] theorem putSome_tbsLen (x : HeapItem) (s : State) : (s.putItem (some x)).tbsLen = s.tbsLen := rfl
@[simp] theorem putSome_mbsLen (x : HeapItem) (s : State) : (s.putItem (some x)).mbsLen = s.mbsLen := rfl
@[simp] theorem putSome_outLen (x : HeapItem) (s : State) : (s.putItem (some x)).outLen = s.outLen := rfl
@[simp] theorem putSome_heap (x : HeapItem) (s : State) : (s.putItem (some x)).heap = s.heap := rfl
@[simp] theorem putSome_arena (x : HeapItem) (s : State) : (s.putItem (some x)).arena = s.arena := rfl
@[simp] theorem putSome_code (x : HeapItem) (s : State) : (s.putItem (some x)).code = s.code := rfl
@[simp] theorem putSome_freq (x : HeapItem) (s : State) : (s.putItem (some x)).freq = s.freq := rfl
@[simp] theorem putSome_mem (x : HeapItem) (s : State) : (s.putItem (some x)).mem = s.mem := rfl
@[simp] theorem putSome_pending (x : HeapItem) (s : State) : (s.putItem (some x)).pending = s.pending := rfl
@[simp] theorem putSome_delay (x : HeapItem) (s : State) : (s.putItem (some x)).delay = s.delay := rfl
@[simp] theorem putSome_draws (x : HeapItem) (s : State) : (s.putItem (some x)).draws = s.draws := rfl
@[simp] theorem putSome_hostQueue (x : HeapItem) (s : State) : (s.putItem (some x)).hostQueue = s.hostQueue := rfl
@[simp] theorem putSome_observed (x : HeapItem) (s : State) : (s.putItem (some x)).observed = s.observed := rfl

/-! ## putNone -/

@[simp] theorem putNone_status (s : State) : (s.putItem none).status = s.status := rfl
@[simp] theorem putNone_errCode (s : State) : (s.putItem none).errCode = s.errCode := rfl
@[simp] theorem putNone_errInfo (s : State) : (s.putItem none).errInfo = s.errInfo := rfl
@[simp] theorem putNone_arg0 (s : State) : (s.putItem none).arg0 = s.arg0 := rfl
@[simp] theorem putNone_result0 (s : State) : (s.putItem none).result0 = 0#32 := rfl
@[simp] theorem putNone_result1 (s : State) : (s.putItem none).result1 = ⟨false, 0#16⟩ := rfl
@[simp] theorem putNone_msgLen (s : State) : (s.putItem none).msgLen = s.msgLen := rfl
@[simp] theorem putNone_tbsLen (s : State) : (s.putItem none).tbsLen = s.tbsLen := rfl
@[simp] theorem putNone_mbsLen (s : State) : (s.putItem none).mbsLen = s.mbsLen := rfl
@[simp] theorem putNone_outLen (s : State) : (s.putItem none).outLen = s.outLen := rfl
@[simp] theorem putNone_heap (s : State) : (s.putItem none).heap = s.heap := rfl
@[simp] theorem putNone_arena (s : State) : (s.putItem none).arena = s.arena := rfl
@[simp] theorem putNone_code (s : State) : (s.putItem none).code = s.code := rfl
@[simp] theorem putNone_freq (s : State) : (s.putItem none).freq = s.freq := rfl
@[simp] theorem putNone_mem (s : State) : (s.putItem none).mem = s.mem := rfl
@[simp] theorem putNone_pending (s : State) : (s.putItem none).pending = s.pending := rfl
@[simp] theorem putNone_delay (s : State) : (s.putItem none).delay = s.delay := rfl
@[simp] theorem putNone_draws (s : State) : (s.putItem none).draws = s.draws := rfl
@[simp] theorem putNone_hostQueue (s : State) : (s.putItem none).hostQueue = s.hostQueue := rfl
@[simp] theorem putNone_observed (s : State) : (s.putItem none).observed = s.observed := rfl

/-! ## tearDown -/

@[simp] theorem tearDown_status (s : State) : (s.tearDown).status = s.status.noTree := rfl
@[simp] theorem tearDown_errCode (s : State) : (s.tearDown).errCode = s.errCode := rfl
@[simp] theorem tearDown_errInfo (s : State) : (s.tearDown).errInfo = s.errInfo := rfl
@[simp] theorem tearDown_arg0 (s : State) : (s.tearDown).arg0 = s.arg0 := rfl
@[simp] theorem tearDown_result0 (s : State) : (s.tearDown).result0 = s.result0 := rfl
@[simp] theorem tearDown_result1 (s : State) : (s.tearDown).result1 = s.result1 := rfl
@[simp] theorem tearDown_msgLen (s : State) : (s.tearDown).msgLen = s.msgLen := rfl
@[simp] theorem tearDown_tbsLen (s : State) : (s.tearDown).tbsLen = s.tbsLen := rfl
@[simp] theorem tearDown_mbsLen (s : State) : (s.tearDown).mbsLen = s.mbsLen := rfl
@[simp] theorem tearDown_outLen (s : State) : (s.tearDown).outLen = s.outLen := rfl
@[simp] theorem tearDown_heap (s : State) : (s.tearDown).heap = s.heap := rfl
@[simp] theorem tearDown_arena (s : State) : (s.tearDown).arena = s.arena.clear := rfl
@[simp] theorem tearDown_code (s : State) : (s.tearDown).code = s.code := rfl
@[simp] theorem tearDown_freq (s : State) : (s.tearDown).freq = s.freq := rfl
@[simp] theorem tearDown_mem (s : State) : (s.tearDown).mem = s.mem := rfl
@[simp] theorem tearDown_pending (s : State) : (s.tearDown).pending = s.pending := rfl
@[simp] theorem tearDown_delay (s : State) : (s.tearDown).delay = s.delay := rfl
@[simp] theorem tearDown_draws (s : State) : (s.tearDown).draws = s.draws := rfl
@[simp] theorem tearDown_hostQueue (s : State) : (s.tearDown).hostQueue = s.hostQueue := rfl
@[simp] theorem tearDown_observed (s : State) : (s.tearDown).observed = s.observed := rfl

/-! ## holdParsed -/

@[simp] theorem holdParsed_status (p : Parse) (s : State) : (s.holdParsed p).status = s.status.newTree := rfl
@[simp] theorem holdParsed_errCode (p : Parse) (s : State) : (s.holdParsed p).errCode = s.errCode := rfl
@[simp] theorem holdParsed_errInfo (p : Parse) (s : State) : (s.holdParsed p).errInfo = s.errInfo := rfl
@[simp] theorem holdParsed_arg0 (p : Parse) (s : State) : (s.holdParsed p).arg0 = s.arg0 := rfl
@[simp] theorem holdParsed_result0 (p : Parse) (s : State) : (s.holdParsed p).result0 = s.result0 := rfl
@[simp] theorem holdParsed_result1 (p : Parse) (s : State) : (s.holdParsed p).result1 = s.result1 := rfl
@[simp] theorem holdParsed_msgLen (p : Parse) (s : State) : (s.holdParsed p).msgLen = s.msgLen := rfl
@[simp] theorem holdParsed_tbsLen (p : Parse) (s : State) : (s.holdParsed p).tbsLen = s.tbsLen := rfl
@[simp] theorem holdParsed_mbsLen (p : Parse) (s : State) : (s.holdParsed p).mbsLen = s.mbsLen := rfl
@[simp] theorem holdParsed_outLen (p : Parse) (s : State) : (s.holdParsed p).outLen = s.outLen := rfl
@[simp] theorem holdParsed_heap (p : Parse) (s : State) : (s.holdParsed p).heap = s.heap := rfl
@[simp] theorem holdParsed_arena (p : Parse) (s : State) : (s.holdParsed p).arena = ⟨p.nodes, 0#9, BitVec.ofNat 10 p.n, BitVec.ofNat 9 p.leaves⟩ := rfl
@[simp] theorem holdParsed_code (p : Parse) (s : State) : (s.holdParsed p).code = s.code := rfl
@[simp] theorem holdParsed_freq (p : Parse) (s : State) : (s.holdParsed p).freq = s.freq := rfl
@[simp] theorem holdParsed_mem (p : Parse) (s : State) : (s.holdParsed p).mem = s.mem := rfl
@[simp] theorem holdParsed_pending (p : Parse) (s : State) : (s.holdParsed p).pending = s.pending := rfl
@[simp] theorem holdParsed_delay (p : Parse) (s : State) : (s.holdParsed p).delay = s.delay := rfl
@[simp] theorem holdParsed_draws (p : Parse) (s : State) : (s.holdParsed p).draws = s.draws := rfl
@[simp] theorem holdParsed_hostQueue (p : Parse) (s : State) : (s.holdParsed p).hostQueue = s.hostQueue := rfl
@[simp] theorem holdParsed_observed (p : Parse) (s : State) : (s.holdParsed p).observed = s.observed := rfl

/-! ## holdIndex -/

@[simp] theorem holdIndex_status (c : Vector CodeEntry Config.symbols) (v : Bool) (s : State) : (s.holdIndex c v).status = s.status.setIndex v := rfl
@[simp] theorem holdIndex_errCode (c : Vector CodeEntry Config.symbols) (v : Bool) (s : State) : (s.holdIndex c v).errCode = s.errCode := rfl
@[simp] theorem holdIndex_errInfo (c : Vector CodeEntry Config.symbols) (v : Bool) (s : State) : (s.holdIndex c v).errInfo = s.errInfo := rfl
@[simp] theorem holdIndex_arg0 (c : Vector CodeEntry Config.symbols) (v : Bool) (s : State) : (s.holdIndex c v).arg0 = s.arg0 := rfl
@[simp] theorem holdIndex_result0 (c : Vector CodeEntry Config.symbols) (v : Bool) (s : State) : (s.holdIndex c v).result0 = s.result0 := rfl
@[simp] theorem holdIndex_result1 (c : Vector CodeEntry Config.symbols) (v : Bool) (s : State) : (s.holdIndex c v).result1 = s.result1 := rfl
@[simp] theorem holdIndex_msgLen (c : Vector CodeEntry Config.symbols) (v : Bool) (s : State) : (s.holdIndex c v).msgLen = s.msgLen := rfl
@[simp] theorem holdIndex_tbsLen (c : Vector CodeEntry Config.symbols) (v : Bool) (s : State) : (s.holdIndex c v).tbsLen = s.tbsLen := rfl
@[simp] theorem holdIndex_mbsLen (c : Vector CodeEntry Config.symbols) (v : Bool) (s : State) : (s.holdIndex c v).mbsLen = s.mbsLen := rfl
@[simp] theorem holdIndex_outLen (c : Vector CodeEntry Config.symbols) (v : Bool) (s : State) : (s.holdIndex c v).outLen = s.outLen := rfl
@[simp] theorem holdIndex_heap (c : Vector CodeEntry Config.symbols) (v : Bool) (s : State) : (s.holdIndex c v).heap = s.heap := rfl
@[simp] theorem holdIndex_arena (c : Vector CodeEntry Config.symbols) (v : Bool) (s : State) : (s.holdIndex c v).arena = s.arena := rfl
@[simp] theorem holdIndex_code (c : Vector CodeEntry Config.symbols) (v : Bool) (s : State) : (s.holdIndex c v).code = c := rfl
@[simp] theorem holdIndex_freq (c : Vector CodeEntry Config.symbols) (v : Bool) (s : State) : (s.holdIndex c v).freq = s.freq := rfl
@[simp] theorem holdIndex_mem (c : Vector CodeEntry Config.symbols) (v : Bool) (s : State) : (s.holdIndex c v).mem = s.mem := rfl
@[simp] theorem holdIndex_pending (c : Vector CodeEntry Config.symbols) (v : Bool) (s : State) : (s.holdIndex c v).pending = s.pending := rfl
@[simp] theorem holdIndex_delay (c : Vector CodeEntry Config.symbols) (v : Bool) (s : State) : (s.holdIndex c v).delay = s.delay := rfl
@[simp] theorem holdIndex_draws (c : Vector CodeEntry Config.symbols) (v : Bool) (s : State) : (s.holdIndex c v).draws = s.draws := rfl
@[simp] theorem holdIndex_hostQueue (c : Vector CodeEntry Config.symbols) (v : Bool) (s : State) : (s.holdIndex c v).hostQueue = s.hostQueue := rfl
@[simp] theorem holdIndex_observed (c : Vector CodeEntry Config.symbols) (v : Bool) (s : State) : (s.holdIndex c v).observed = s.observed := rfl

/-! ## emit -/

@[simp] theorem emit_status (bs : List Byte) (w : Word) (s : State) : (s.emit bs w).status = s.status := rfl
@[simp] theorem emit_errCode (bs : List Byte) (w : Word) (s : State) : (s.emit bs w).errCode = s.errCode := rfl
@[simp] theorem emit_errInfo (bs : List Byte) (w : Word) (s : State) : (s.emit bs w).errInfo = s.errInfo := rfl
@[simp] theorem emit_arg0 (bs : List Byte) (w : Word) (s : State) : (s.emit bs w).arg0 = s.arg0 := rfl
@[simp] theorem emit_result0 (bs : List Byte) (w : Word) (s : State) : (s.emit bs w).result0 = s.result0 := rfl
@[simp] theorem emit_result1 (bs : List Byte) (w : Word) (s : State) : (s.emit bs w).result1 = s.result1 := rfl
@[simp] theorem emit_msgLen (bs : List Byte) (w : Word) (s : State) : (s.emit bs w).msgLen = s.msgLen := rfl
@[simp] theorem emit_tbsLen (bs : List Byte) (w : Word) (s : State) : (s.emit bs w).tbsLen = s.tbsLen := rfl
@[simp] theorem emit_mbsLen (bs : List Byte) (w : Word) (s : State) : (s.emit bs w).mbsLen = s.mbsLen := rfl
@[simp] theorem emit_outLen (bs : List Byte) (w : Word) (s : State) : (s.emit bs w).outLen = w := rfl
@[simp] theorem emit_heap (bs : List Byte) (w : Word) (s : State) : (s.emit bs w).heap = s.heap := rfl
@[simp] theorem emit_arena (bs : List Byte) (w : Word) (s : State) : (s.emit bs w).arena = s.arena := rfl
@[simp] theorem emit_code (bs : List Byte) (w : Word) (s : State) : (s.emit bs w).code = s.code := rfl
@[simp] theorem emit_freq (bs : List Byte) (w : Word) (s : State) : (s.emit bs w).freq = s.freq := rfl
@[simp] theorem emit_mem (bs : List Byte) (w : Word) (s : State) : (s.emit bs w).mem = s.mem.writeBytes Config.outBase bs := rfl
@[simp] theorem emit_pending (bs : List Byte) (w : Word) (s : State) : (s.emit bs w).pending = s.pending := rfl
@[simp] theorem emit_delay (bs : List Byte) (w : Word) (s : State) : (s.emit bs w).delay = s.delay := rfl
@[simp] theorem emit_draws (bs : List Byte) (w : Word) (s : State) : (s.emit bs w).draws = s.draws := rfl
@[simp] theorem emit_hostQueue (bs : List Byte) (w : Word) (s : State) : (s.emit bs w).hostQueue = s.hostQueue := rfl
@[simp] theorem emit_observed (bs : List Byte) (w : Word) (s : State) : (s.emit bs w).observed = s.observed := rfl

/-! ## hostRead -/

@[simp] theorem hostRead_status (off : Nat) (s : State) : (s.hostRead off).status = s.status := rfl
@[simp] theorem hostRead_errCode (off : Nat) (s : State) : (s.hostRead off).errCode = s.errCode := rfl
@[simp] theorem hostRead_errInfo (off : Nat) (s : State) : (s.hostRead off).errInfo = s.errInfo := rfl
@[simp] theorem hostRead_arg0 (off : Nat) (s : State) : (s.hostRead off).arg0 = s.arg0 := rfl
@[simp] theorem hostRead_result0 (off : Nat) (s : State) : (s.hostRead off).result0 = s.result0 := rfl
@[simp] theorem hostRead_result1 (off : Nat) (s : State) : (s.hostRead off).result1 = s.result1 := rfl
@[simp] theorem hostRead_msgLen (off : Nat) (s : State) : (s.hostRead off).msgLen = s.msgLen := rfl
@[simp] theorem hostRead_tbsLen (off : Nat) (s : State) : (s.hostRead off).tbsLen = s.tbsLen := rfl
@[simp] theorem hostRead_mbsLen (off : Nat) (s : State) : (s.hostRead off).mbsLen = s.mbsLen := rfl
@[simp] theorem hostRead_outLen (off : Nat) (s : State) : (s.hostRead off).outLen = s.outLen := rfl
@[simp] theorem hostRead_heap (off : Nat) (s : State) : (s.hostRead off).heap = s.heap := rfl
@[simp] theorem hostRead_arena (off : Nat) (s : State) : (s.hostRead off).arena = s.arena := rfl
@[simp] theorem hostRead_code (off : Nat) (s : State) : (s.hostRead off).code = s.code := rfl
@[simp] theorem hostRead_freq (off : Nat) (s : State) : (s.hostRead off).freq = s.freq := rfl
@[simp] theorem hostRead_mem (off : Nat) (s : State) : (s.hostRead off).mem = s.mem := rfl
@[simp] theorem hostRead_pending (off : Nat) (s : State) : (s.hostRead off).pending = s.pending := rfl
@[simp] theorem hostRead_delay (off : Nat) (s : State) : (s.hostRead off).delay = s.delay := rfl
@[simp] theorem hostRead_draws (off : Nat) (s : State) : (s.hostRead off).draws = s.draws + 1 := rfl
@[simp] theorem hostRead_hostQueue (off : Nat) (s : State) : (s.hostRead off).hostQueue = s.hostQueue := rfl
@[simp] theorem hostRead_observed (off : Nat) (s : State) : (s.hostRead off).observed = ⟨off, s.readValue off⟩ :: s.observed := rfl

/-! ## builtTree -/

@[simp] theorem builtTree_status (s : State) : (s.builtTree).status = s.status.newTree := rfl
@[simp] theorem builtTree_errCode (s : State) : (s.builtTree).errCode = s.errCode := rfl
@[simp] theorem builtTree_errInfo (s : State) : (s.builtTree).errInfo = s.errInfo := rfl
@[simp] theorem builtTree_arg0 (s : State) : (s.builtTree).arg0 = s.arg0 := rfl
@[simp] theorem builtTree_result0 (s : State) : (s.builtTree).result0 = s.result0 := rfl
@[simp] theorem builtTree_result1 (s : State) : (s.builtTree).result1 = s.result1 := rfl
@[simp] theorem builtTree_msgLen (s : State) : (s.builtTree).msgLen = s.msgLen := rfl
@[simp] theorem builtTree_tbsLen (s : State) : (s.builtTree).tbsLen = s.tbsLen := rfl
@[simp] theorem builtTree_mbsLen (s : State) : (s.builtTree).mbsLen = s.mbsLen := rfl
@[simp] theorem builtTree_outLen (s : State) : (s.builtTree).outLen = s.outLen := rfl
@[simp] theorem builtTree_heap (s : State) : (s.builtTree).heap = s.buildMerged.takeRoot.2 := rfl
@[simp] theorem builtTree_arena (s : State) : (s.builtTree).arena = ⟨s.buildMerged.nodes, s.buildMerged.takeRoot.1.tag.setWidth 9, BitVec.ofNat 10 s.buildMerged.n,
      BitVec.ofNat 9 s.buildLeaves.n⟩ := rfl
@[simp] theorem builtTree_code (s : State) : (s.builtTree).code = s.code := rfl
@[simp] theorem builtTree_freq (s : State) : (s.builtTree).freq = tally s.message := rfl
@[simp] theorem builtTree_mem (s : State) : (s.builtTree).mem = s.mem := rfl
@[simp] theorem builtTree_pending (s : State) : (s.builtTree).pending = s.pending := rfl
@[simp] theorem builtTree_delay (s : State) : (s.builtTree).delay = s.delay := rfl
@[simp] theorem builtTree_draws (s : State) : (s.builtTree).draws = s.draws := rfl
@[simp] theorem builtTree_hostQueue (s : State) : (s.builtTree).hostQueue = s.hostQueue := rfl
@[simp] theorem builtTree_observed (s : State) : (s.builtTree).observed = s.observed := rfl

/-! ## STATUS -/

@[simp] theorem status_issue_busy (st : Status) : (st.issue).busy = true := rfl
@[simp] theorem status_issue_done (st : Status) : (st.issue).done = false := rfl
@[simp] theorem status_issue_err (st : Status) : (st.issue).err = false := rfl
@[simp] theorem status_issue_ovr (st : Status) : (st.issue).ovr = st.ovr := rfl
@[simp] theorem status_issue_treeValid (st : Status) : (st.issue).treeValid = st.treeValid := rfl
@[simp] theorem status_issue_indexValid (st : Status) : (st.issue).indexValid = st.indexValid := rfl

@[simp] theorem status_complete_busy (st : Status) : (st.complete).busy = false := rfl
@[simp] theorem status_complete_done (st : Status) : (st.complete).done = true := rfl
@[simp] theorem status_complete_err (st : Status) : (st.complete).err = st.err := rfl
@[simp] theorem status_complete_ovr (st : Status) : (st.complete).ovr = st.ovr := rfl
@[simp] theorem status_complete_treeValid (st : Status) : (st.complete).treeValid = st.treeValid := rfl
@[simp] theorem status_complete_indexValid (st : Status) : (st.complete).indexValid = st.indexValid := rfl

@[simp] theorem status_fail_busy (st : Status) : (st.fail).busy = false := rfl
@[simp] theorem status_fail_done (st : Status) : (st.fail).done = true := rfl
@[simp] theorem status_fail_err (st : Status) : (st.fail).err = true := rfl
@[simp] theorem status_fail_ovr (st : Status) : (st.fail).ovr = st.ovr := rfl
@[simp] theorem status_fail_treeValid (st : Status) : (st.fail).treeValid = st.treeValid := rfl
@[simp] theorem status_fail_indexValid (st : Status) : (st.fail).indexValid = st.indexValid := rfl

@[simp] theorem status_overrun_busy (st : Status) : (st.overrun).busy = st.busy := rfl
@[simp] theorem status_overrun_done (st : Status) : (st.overrun).done = st.done := rfl
@[simp] theorem status_overrun_err (st : Status) : (st.overrun).err = st.err := rfl
@[simp] theorem status_overrun_ovr (st : Status) : (st.overrun).ovr = true := rfl
@[simp] theorem status_overrun_treeValid (st : Status) : (st.overrun).treeValid = st.treeValid := rfl
@[simp] theorem status_overrun_indexValid (st : Status) : (st.overrun).indexValid = st.indexValid := rfl

@[simp] theorem status_clearOvr_busy (st : Status) : (st.clearOvr).busy = st.busy := rfl
@[simp] theorem status_clearOvr_done (st : Status) : (st.clearOvr).done = st.done := rfl
@[simp] theorem status_clearOvr_err (st : Status) : (st.clearOvr).err = st.err := rfl
@[simp] theorem status_clearOvr_ovr (st : Status) : (st.clearOvr).ovr = false := rfl
@[simp] theorem status_clearOvr_treeValid (st : Status) : (st.clearOvr).treeValid = st.treeValid := rfl
@[simp] theorem status_clearOvr_indexValid (st : Status) : (st.clearOvr).indexValid = st.indexValid := rfl

@[simp] theorem status_newTree_busy (st : Status) : (st.newTree).busy = st.busy := rfl
@[simp] theorem status_newTree_done (st : Status) : (st.newTree).done = st.done := rfl
@[simp] theorem status_newTree_err (st : Status) : (st.newTree).err = st.err := rfl
@[simp] theorem status_newTree_ovr (st : Status) : (st.newTree).ovr = st.ovr := rfl
@[simp] theorem status_newTree_treeValid (st : Status) : (st.newTree).treeValid = true := rfl
@[simp] theorem status_newTree_indexValid (st : Status) : (st.newTree).indexValid = false := rfl

@[simp] theorem status_noTree_busy (st : Status) : (st.noTree).busy = st.busy := rfl
@[simp] theorem status_noTree_done (st : Status) : (st.noTree).done = st.done := rfl
@[simp] theorem status_noTree_err (st : Status) : (st.noTree).err = st.err := rfl
@[simp] theorem status_noTree_ovr (st : Status) : (st.noTree).ovr = st.ovr := rfl
@[simp] theorem status_noTree_treeValid (st : Status) : (st.noTree).treeValid = false := rfl
@[simp] theorem status_noTree_indexValid (st : Status) : (st.noTree).indexValid = false := rfl

@[simp] theorem status_setIndex_busy (v : Bool) (st : Status) : (st.setIndex v).busy = st.busy := rfl
@[simp] theorem status_setIndex_done (v : Bool) (st : Status) : (st.setIndex v).done = st.done := rfl
@[simp] theorem status_setIndex_err (v : Bool) (st : Status) : (st.setIndex v).err = st.err := rfl
@[simp] theorem status_setIndex_ovr (v : Bool) (st : Status) : (st.setIndex v).ovr = st.ovr := rfl
@[simp] theorem status_setIndex_treeValid (v : Bool) (st : Status) : (st.setIndex v).treeValid = st.treeValid := rfl
@[simp] theorem status_setIndex_indexValid (v : Bool) (st : Status) : (st.setIndex v).indexValid = v := rfl

/-! ## The arena without a tree -/

@[simp] theorem clear_nodes (a : Arena) : a.clear.nodes = a.nodes := rfl
@[simp] theorem clear_root (a : Arena) : a.clear.root = Config.noNode := rfl
@[simp] theorem clear_count (a : Arena) : a.clear.count = 0#10 := rfl
@[simp] theorem clear_unique (a : Arena) : a.clear.unique = 0#9 := rfl

/-! ## A fresh heap -/

@[simp] theorem create_items (c : BitVec 9) (p : Polarity) (h : Heap) : (h.create c p).items = h.items := rfl
@[simp] theorem create_size (c : BitVec 9) (p : Polarity) (h : Heap) : (h.create c p).size = 0#9 := rfl
@[simp] theorem create_cap (c : BitVec 9) (p : Polarity) (h : Heap) : (h.create c p).cap = c := rfl
@[simp] theorem create_pol (c : BitVec 9) (p : Polarity) (h : Heap) : (h.create c p).pol = p := rfl

end Sys2Proof.Machine
end

