-- ==== Sys2Proof/Laws/Table.lean ====
section
/-! SUPPORT. Reads after writes of table entries, and what a swap does. -/

namespace Sys2Proof.Machine

variable {α : Type} {n : Nat}

theorem tableGet_of_lt [Inhabited α] (t : Vector α n) {i : Nat} (h : i < n) : tableGet t i = t[i] := by
  simp [tableGet, h]

theorem tableGet_of_ge [Inhabited α] (t : Vector α n) {i : Nat} (h : n ≤ i) : tableGet t i = default := by
  simp [tableGet, Nat.not_lt.mpr h]

theorem tableGet_tableSet [Inhabited α] (t : Vector α n) (i j : Nat) (x : α) :
    tableGet (tableSet t i x) j = if i = j ∧ i < n then x else tableGet t j := by
  unfold tableGet tableSet
  rw [Vector.getElem?_setIfInBounds]
  by_cases hij : i = j
  · subst hij
    by_cases hi : i < n <;> simp [hi]
  · simp [hij]

theorem tableGet_tableSet_same [Inhabited α] (t : Vector α n) {i : Nat} (x : α) (h : i < n) :
    tableGet (tableSet t i x) i = x := by
  simp [tableGet_tableSet, h]

theorem tableGet_tableSet_other [Inhabited α] (t : Vector α n) {i j : Nat} (x : α) (h : i ≠ j) :
    tableGet (tableSet t i x) j = tableGet t j := by
  simp [tableGet_tableSet, h]

theorem tableGet_replicate [Inhabited α] (x : α) {i : Nat} (h : i < n) :
    tableGet (Vector.replicate n x) i = x := by
  simp [tableGet, h]

/-- Tables with equal entries are equal. -/
theorem table_ext [Inhabited α] {t u : Vector α n} (h : ∀ i, i < n → tableGet t i = tableGet u i) : t = u := by
  ext i hi
  simpa [tableGet, hi] using h i hi

/-- A swap of two entries inside the table exchanges them and keeps every other entry. -/
theorem tableGet_swapItems (t : Vector HeapItem n) {i j : Nat} (k : Nat) (hi : i < n) (hj : j < n) :
    tableGet (swapItems t i j) k = if k = j then tableGet t i else if k = i then tableGet t j else tableGet t k := by
  unfold swapItems
  rw [tableGet_tableSet, tableGet_tableSet]
  by_cases hkj : k = j
  · subst hkj; simp [hj]
  · by_cases hki : k = i
    · subst hki; simp [hkj, Ne.symm hkj, hi]
    · simp [hkj, hki, Ne.symm hkj, Ne.symm hki]

end Sys2Proof.Machine
end

