-- ==== Sys2Proof/Laws/Heap.lean ====
section
/-! SUPPORT. The heap: its order is a strict weak order, the sifts permute the items and restore the heap property,
and what insert, extract and peek can answer. -/

namespace Sys2Proof.Machine

/-! ## The order -/

theorem before_irrefl (pol : Polarity) (a : HeapItem) : before pol a a = false := by
  cases pol <;> simp [before]

theorem before_asymm {pol : Polarity} {a b : HeapItem} (h : before pol a b = true) : before pol b a = false := by
  cases pol <;> simp only [before, decide_eq_true_eq, decide_eq_false_iff_not] at * <;> bv_omega

/-- "Not before" is transitive. -/
theorem not_before_trans {pol : Polarity} {a b c : HeapItem} (h1 : before pol b a = false)
    (h2 : before pol c b = false) : before pol c a = false := by
  cases pol <;> simp only [before, decide_eq_false_iff_not] at * <;> bv_omega

theorem parentOf_lt {i : Nat} (h : 0 < i) : parentOf i < i := by unfold parentOf; omega

theorem parentOf_leftOf (i : Nat) : parentOf (leftOf i) = i := by unfold parentOf leftOf; omega

theorem parentOf_rightOf (i : Nat) : parentOf (rightOf i) = i := by unfold parentOf rightOf; omega

/-- The children of `i` are `left(i)` and `right(i)`. -/
theorem child_of_parentOf {i k : Nat} (hk : 0 < k) (h : parentOf k = i) : k = leftOf i ∨ k = rightOf i := by
  unfold parentOf at h; unfold leftOf rightOf; omega

/-! ## Swaps and sifts permute -/

/-- The first `m` entries of a table. -/
def entries {n : Nat} (t : Vector HeapItem n) (m : Nat) : List HeapItem := (List.range m).map (tableGet t)

theorem swapItems_perm {n m : Nat} (t : Vector HeapItem n) {i j : Nat} (hm : m ≤ n) (hi : i < m) (hj : j < m) :
    (entries (swapItems t i j) m).Perm (entries t m) := by
  have hget : ∀ k, tableGet (swapItems t i j) k = tableGet t (Equiv.swap i j k) := fun k => by
    rw [tableGet_swapItems t k (by omega) (by omega), Equiv.swap_apply_def]
    split_ifs <;> simp_all
  have hswap : ∀ k, k < m → Equiv.swap i j k < m := fun k hk => by
    rw [Equiv.swap_apply_def]; split_ifs <;> omega
  have hperm : ((List.range m).map (Equiv.swap i j)).Perm (List.range m) :=
    (List.perm_ext_iff_of_nodup (List.nodup_range.map (Equiv.swap i j).injective) List.nodup_range).mpr fun k => by
      simp only [List.mem_map, List.mem_range]
      exact ⟨fun ⟨a, ha, h⟩ => h ▸ hswap a ha, fun hk => ⟨Equiv.swap i j k, hswap k hk, by simp⟩⟩
  have : entries (swapItems t i j) m = ((List.range m).map (Equiv.swap i j)).map (tableGet t) := by
    simp [entries, hget]
  rw [this]
  exact hperm.map _

/-- Sift-up permutes the entries up to its start and leaves those above alone. -/
theorem siftUp_entries {n : Nat} (pol : Polarity) (fuel i : Nat) (t : Vector HeapItem n) (hi : i < n) :
    (∀ m, i < m → m ≤ n → (entries (siftUp pol fuel i t) m).Perm (entries t m)) ∧
      ∀ j, i < j → tableGet (siftUp pol fuel i t) j = tableGet t j := by
  induction fuel generalizing i t with
  | zero => exact ⟨fun m _ _ => .refl _, fun _ _ => rfl⟩
  | succ fuel ih =>
    simp only [siftUp]
    split
    · rename_i h
      have hp := parentOf_lt h.1
      obtain ⟨ih1, ih2⟩ := ih (parentOf i) (swapItems t i (parentOf i)) (by omega)
      refine ⟨fun m hm hmn => (ih1 m (by omega) hmn).trans (swapItems_perm t hmn hm (by omega)), fun j hj => ?_⟩
      rw [ih2 j (by omega), tableGet_swapItems t j hi (by omega), if_neg (by omega), if_neg (by omega)]
    · exact ⟨fun m _ _ => .refl _, fun _ _ => rfl⟩

theorem firstChild_cases (pol : Polarity) (size i : Nat) {n : Nat} (t : Vector HeapItem n) :
    (firstChild pol size i t = rightOf i ∧ rightOf i < size ∧
      before pol (tableGet t (rightOf i)) (tableGet t (leftOf i)) = true) ∨
    (firstChild pol size i t = leftOf i ∧
      (rightOf i < size → before pol (tableGet t (rightOf i)) (tableGet t (leftOf i)) = false)) := by
  unfold firstChild
  split
  · rename_i h; exact .inl ⟨rfl, h⟩
  · rename_i h
    refine .inr ⟨rfl, fun hr => ?_⟩
    rw [← Bool.not_eq_true]
    exact fun hb => h ⟨hr, hb⟩

theorem firstChild_bounds (pol : Polarity) {size i : Nat} {n : Nat} (t : Vector HeapItem n) (h : leftOf i < size) :
    i < firstChild pol size i t ∧ firstChild pol size i t < size ∧ parentOf (firstChild pol size i t) = i := by
  rcases firstChild_cases pol size i t with ⟨h1, h2, -⟩ | ⟨h1, -⟩
  · rw [h1]; exact ⟨by unfold rightOf; omega, h2, parentOf_rightOf i⟩
  · rw [h1]; exact ⟨by unfold leftOf; omega, h, parentOf_leftOf i⟩

/-- Sift-down in a heap of `size` items permutes them and leaves every entry from `size` up alone. -/
theorem siftDown_entries {n : Nat} (pol : Polarity) (size fuel i : Nat) (t : Vector HeapItem n) (hs : size ≤ n) :
    (∀ m, size ≤ m → m ≤ n → (entries (siftDown pol size fuel i t) m).Perm (entries t m)) ∧
      ∀ j, size ≤ j → tableGet (siftDown pol size fuel i t) j = tableGet t j := by
  induction fuel generalizing i t with
  | zero => exact ⟨fun m _ _ => .refl _, fun _ _ => rfl⟩
  | succ fuel ih =>
    simp only [siftDown]
    split
    · rename_i h
      obtain ⟨h1, h2, -⟩ := firstChild_bounds pol t h.1
      obtain ⟨ih1, ih2⟩ := ih (firstChild pol size i t) (swapItems t i (firstChild pol size i t))
      refine ⟨fun m hm hmn => (ih1 m hm hmn).trans (swapItems_perm t hmn (by omega) (by omega)), fun j hj => ?_⟩
      rw [ih2 j hj, tableGet_swapItems t j (by omega) (by omega), if_neg (by omega), if_neg (by omega)]
    · exact ⟨fun m _ _ => .refl _, fun _ _ => rfl⟩

/-! ## The sifts restore the heap property -/

/-- The heap property of the first `m` entries of a table. -/
def OrderedUpTo {n : Nat} (pol : Polarity) (t : Vector HeapItem n) (m : Nat) : Prop :=
  ∀ k, 0 < k → k < m → before pol (tableGet t k) (tableGet t (parentOf k)) = false

/-- Sift-up from `i` ends in a heap, if only the pair of `i` and its parent was wrong before. -/
theorem siftUp_ordered {n m : Nat} (pol : Polarity) (fuel i : Nat) (t : Vector HeapItem n) (hf : i ≤ fuel)
    (hi : i < m) (hm : m ≤ n)
    (h1 : ∀ k, 0 < k → k < m → k ≠ i → before pol (tableGet t k) (tableGet t (parentOf k)) = false)
    (h2 : ∀ k, 0 < k → k < m → parentOf k = i → 0 < i →
      before pol (tableGet t k) (tableGet t (parentOf i)) = false) :
    OrderedUpTo pol (siftUp pol fuel i t) m := by
  induction fuel generalizing i t with
  | zero =>
    obtain rfl : i = 0 := by omega
    exact fun k hk hkm => h1 k hk hkm (by omega)
  | succ fuel ih =>
    simp only [siftUp]
    split
    · rename_i h
      obtain ⟨hpos, hb⟩ := h
      have hp := parentOf_lt hpos
      have hget := fun k => tableGet_swapItems t (i := i) (j := parentOf i) k (by omega) (by omega)
      have hgi : tableGet (swapItems t i (parentOf i)) i = tableGet t (parentOf i) := by
        rw [hget, if_neg (by omega), if_pos rfl]
      have hgp : tableGet (swapItems t i (parentOf i)) (parentOf i) = tableGet t i := by rw [hget, if_pos rfl]
      have hgo : ∀ k, k ≠ i → k ≠ parentOf i → tableGet (swapItems t i (parentOf i)) k = tableGet t k :=
        fun k hki hkp => by rw [hget, if_neg hkp, if_neg hki]
      refine ih (parentOf i) _ (by omega) (by omega) (fun k hk hkm hkp => ?_) fun k hk hkm hkp hpp => ?_
      · by_cases hki : k = i
        · subst hki; rw [hgi, hgp]; exact before_asymm hb
        · have hok := h1 k hk hkm hki
          rw [hgo k hki hkp]
          by_cases hpi : parentOf k = i
          · rw [hpi, hgi]; exact h2 k hk hkm hpi hpos
          · by_cases hpp : parentOf k = parentOf i
            · rw [hpp] at hok
              rw [hpp, hgp]; exact not_before_trans (before_asymm hb) hok
            · rw [hgo _ hpi hpp]; exact hok
      · have hpar := parentOf_lt hpp
        rw [hgo (parentOf (parentOf i)) (by omega) (by omega)]
        have hup := h1 (parentOf i) hpp (by omega) (by omega)
        by_cases hki : k = i
        · subst hki; rw [hgi]; exact hup
        · have hkp' : k ≠ parentOf i := by have := parentOf_lt hk; omega
          rw [hgo k hki hkp']
          have hok := h1 k hk hkm hki
          rw [hkp] at hok
          exact not_before_trans hup hok
    · rename_i h
      intro k hk hkm
      by_cases hki : k = i
      · subst hki
        rw [← Bool.not_eq_true]
        exact fun hb => h ⟨hk, hb⟩
      · exact h1 k hk hkm hki

/-- Sift-down from `i` ends in a heap, if only the pairs of `i` and its children were wrong before. -/
theorem siftDown_ordered {n m : Nat} (pol : Polarity) (fuel i : Nat) (t : Vector HeapItem n) (hf : m ≤ fuel + i)
    (hm : m ≤ n)
    (h1 : ∀ k, 0 < k → k < m → parentOf k ≠ i → before pol (tableGet t k) (tableGet t (parentOf k)) = false)
    (h2 : ∀ k, 0 < k → k < m → parentOf k = i → 0 < i →
      before pol (tableGet t k) (tableGet t (parentOf i)) = false) :
    OrderedUpTo pol (siftDown pol m fuel i t) m := by
  induction fuel generalizing i t with
  | zero =>
    exact fun k hk hkm => h1 k hk hkm (by have := parentOf_lt hk; omega)
  | succ fuel ih =>
    simp only [siftDown]
    split
    · rename_i h
      obtain ⟨hl, hb⟩ := h
      obtain ⟨hc1, hc2, hc3⟩ := firstChild_bounds pol t hl
      generalize hc : firstChild pol m i t = c at *
      have hget := fun k => tableGet_swapItems t (i := i) (j := c) k (by omega) (by omega)
      have hgc : tableGet (swapItems t i c) c = tableGet t i := by rw [hget, if_pos rfl]
      have hgi : tableGet (swapItems t i c) i = tableGet t c := by rw [hget, if_neg (by omega), if_pos rfl]
      have hgo : ∀ k, k ≠ i → k ≠ c → tableGet (swapItems t i c) k = tableGet t k :=
        fun k hki hkc => by rw [hget, if_neg hkc, if_neg hki]
      have hsib : ∀ k, 0 < k → k < m → parentOf k = i → before pol (tableGet t k) (tableGet t c) = false := by
        intro k hk hkm hki
        rcases firstChild_cases pol m i t with ⟨e, -, e2⟩ | ⟨e, e2⟩ <;> rw [hc] at e <;> subst e <;>
          rcases child_of_parentOf hk hki with rfl | rfl
        · exact before_asymm e2
        · exact before_irrefl _ _
        · exact before_irrefl _ _
        · exact e2 hkm
      refine ih c _ (by omega) (fun k hk hkm hkc => ?_) fun k hk hkm hkc hcp => ?_
      · by_cases hki : parentOf k = i
        · rw [hki, hgi]
          by_cases hkc' : k = c
          · subst hkc'; rw [hgc]; exact before_asymm hb
          · rw [hgo k (by have := parentOf_lt hk; omega) hkc']; exact hsib k hk hkm hki
        · have hok := h1 k hk hkm hki
          rw [hgo _ hki hkc]
          have hkc' : k ≠ c := by rintro rfl; exact hki hc3
          by_cases hk' : k = i
          · subst hk'
            rw [hgi]
            exact h2 c (by omega) hc2 hc3 hk
          · rw [hgo k hk' hkc']; exact hok
      · rw [hc3, hgi]
        have hk' : c < k := by have := parentOf_lt hk; omega
        rw [hgo k (by omega) (by omega)]
        have := h1 k hk hkm (by omega)
        rwa [hkc] at this
    · rename_i h
      intro k hk hkm
      by_cases hki : parentOf k = i
      · have hl : leftOf i < m := by
          rcases child_of_parentOf hk hki with rfl | rfl
          · exact hkm
          · unfold rightOf at hkm; unfold leftOf; omega
        have hnb : before pol (tableGet t (firstChild pol m i t)) (tableGet t i) = false := by
          rw [← Bool.not_eq_true]; exact fun hb => h ⟨hl, hb⟩
        rw [hki]
        rcases firstChild_cases pol m i t with ⟨e, -, e2⟩ | ⟨e, e2⟩ <;> rw [e] at hnb <;>
          rcases child_of_parentOf hk hki with rfl | rfl
        · exact not_before_trans hnb (before_asymm e2)
        · exact hnb
        · exact hnb
        · exact not_before_trans hnb (e2 hkm)
      · exact h1 k hk hkm hki

/-! ## Insert, extract, peek -/

/-- Everything an insert can do: nothing when the heap is full; otherwise one item more at its end, sifted up. -/
theorem insert_cases (x : HeapItem) (h : Heap) :
    (h.size = h.cap ∧ h.insert x = none) ∨
    (h.size ≠ h.cap ∧ h.insert x = some { h with
      items := siftUp h.pol h.size.toNat h.size.toNat (tableSet h.items h.size.toNat x)
      size := h.size + 1#9 }) := by
  unfold Heap.insert
  split
  · rename_i hc; exact .inl ⟨hc, rfl⟩
  · rename_i hc; exact .inr ⟨hc, rfl⟩

/-- Everything an extract can do. -/
theorem extract_cases (h : Heap) :
    (h.size = 0#9 ∧ h.extract = none) ∨
    (h.size ≠ 0#9 ∧ h.extract = some (tableGet h.items 0,
      { h with items := h.removeRoot (h.size.toNat - 1), size := h.size - 1#9 })) := by
  unfold Heap.extract
  split
  · rename_i hc; exact .inl ⟨hc, rfl⟩
  · rename_i hc; exact .inr ⟨hc, rfl⟩

/-- Everything a peek can answer. -/
theorem peek_cases (h : Heap) (i : Nat) :
    (i < h.size.toNat ∧ h.peek i = some (tableGet h.items i)) ∨ (h.size.toNat ≤ i ∧ h.peek i = none) := by
  unfold Heap.peek
  split
  · exact .inl ⟨‹_›, rfl⟩
  · exact .inr ⟨Nat.le_of_not_lt ‹_›, rfl⟩

theorem live_eq_entries (h : Heap) : h.live = entries h.items h.size.toNat := rfl

theorem ordered_iff (h : Heap) : h.ordered ↔ OrderedUpTo h.pol h.items h.size.toNat := Iff.rfl

/-- The size after an insert that fits, as a number. -/
theorem insert_size {h : Heap} (hb : h.bounded) (hc : h.size ≠ h.cap) :
    (h.size + 1#9).toNat = h.size.toNat + 1 ∧ h.size.toNat < h.cap.toNat ∧ h.cap.toNat ≤ 256 := by
  obtain ⟨h1, h2⟩ := hb
  have h2' : h.cap.toNat ≤ 256 := h2
  have : h.size.toNat ≠ h.cap.toNat := fun e => hc (BitVec.eq_of_toNat_eq e)
  refine ⟨?_, by omega, h2'⟩
  rw [BitVec.toNat_add]
  simp
  omega

/-- The size after an extract, as a number. -/
theorem extract_size {h : Heap} (hz : h.size ≠ 0#9) :
    (h.size - 1#9).toNat = h.size.toNat - 1 ∧ 0 < h.size.toNat := by
  have h0 : h.size.toNat ≠ 0 := fun e => hz (BitVec.eq_of_toNat_eq (by simpa using e))
  have hlt := h.size.isLt
  refine ⟨?_, by omega⟩
  rw [BitVec.toNat_sub]
  simp
  omega

/-- An insert that fits adds exactly its item. -/
theorem insert_entries (x : HeapItem) {h : Heap} (hb : h.bounded) (hc : h.size ≠ h.cap) :
    (entries (siftUp h.pol h.size.toNat h.size.toNat (tableSet h.items h.size.toNat x)) (h.size.toNat + 1)).Perm
      (x :: h.live) := by
  obtain ⟨-, h1, h2⟩ := insert_size hb hc
  refine ((siftUp_entries h.pol h.size.toNat h.size.toNat _ (by show _ < 256; omega)).1 _ (by omega)
    (by show _ ≤ 256; omega)).trans ?_
  have : entries (tableSet h.items h.size.toNat x) (h.size.toNat + 1) = h.live ++ [x] := by
    rw [live_eq_entries]
    unfold entries
    rw [List.range_succ, List.map_append]
    congr 1
    · refine List.map_congr_left fun k hk => ?_
      rw [tableGet_tableSet_other _ _ (by have := List.mem_range.mp hk; omega)]
    · simp [tableGet_tableSet_same _ x (show h.size.toNat < 256 by omega)]
  rw [this]
  exact List.perm_append_comm

/-- An insert into a heap that is ordered leaves it ordered. -/
theorem insert_ordered (x : HeapItem) {h : Heap} (hb : h.bounded) (hc : h.size ≠ h.cap) (ho : h.ordered) :
    OrderedUpTo h.pol (siftUp h.pol h.size.toNat h.size.toNat (tableSet h.items h.size.toNat x))
      (h.size.toNat + 1) := by
  obtain ⟨-, h1, h2⟩ := insert_size hb hc
  refine siftUp_ordered h.pol _ _ _ (le_refl _) (by omega) (by show _ ≤ 256; omega) (fun k hk hkm hki => ?_)
    fun k hk hkm hki _ => ?_
  · have := parentOf_lt hk
    rw [tableGet_tableSet_other _ _ (by omega), tableGet_tableSet_other _ _ (by omega)]
    exact ho k hk (by omega)
  · have := parentOf_lt hk; omega

/-- An extract removes exactly the root. -/
theorem removeRoot_entries {h : Heap} (hb : h.bounded) (hz : h.size ≠ 0#9) :
    h.live.Perm (tableGet h.items 0 :: entries (h.removeRoot (h.size.toNat - 1)) (h.size.toNat - 1)) := by
  obtain ⟨h1, h2⟩ := hb
  have h2' : h.cap.toNat ≤ 256 := h2
  obtain ⟨-, hpos⟩ := extract_size hz
  generalize hn : h.size.toNat - 1 = n at *
  have hsz : h.size.toNat = n + 1 := by omega
  have hsift := (siftDown_entries h.pol n n 0 (tableSet h.items 0 (tableGet h.items n))
    (by show _ ≤ 256; omega)).1 n (le_refl _) (by show _ ≤ 256; omega)
  refine List.Perm.trans ?_ (hsift.symm.cons _)
  rw [live_eq_entries, hsz]
  cases n with
  | zero => simp [entries]
  | succ n =>
    have e1 : entries h.items (n + 1 + 1) =
        tableGet h.items 0 :: ((List.range n).map (fun k => tableGet h.items (k + 1)) ++ [tableGet h.items (n + 1)]) := by
      unfold entries
      rw [List.range_succ, List.map_append, List.range_succ_eq_map]
      simp [Function.comp_def]
    have e2 : entries (tableSet h.items 0 (tableGet h.items (n + 1))) (n + 1) =
        tableGet h.items (n + 1) :: (List.range n).map (fun k => tableGet h.items (k + 1)) := by
      unfold entries
      rw [List.range_succ_eq_map, List.map_cons, tableGet_tableSet_same _ _ (by omega), List.map_map]
      congr 1
      refine List.map_congr_left fun k _ => ?_
      simp only [Function.comp_def, Nat.succ_eq_add_one]
      rw [tableGet_tableSet_other _ _ (by omega)]
    rw [e1, e2]
    exact (List.perm_append_comm).cons _

/-- An extract from a heap that is ordered leaves it ordered. -/
theorem removeRoot_ordered {h : Heap} (hb : h.bounded) (ho : h.ordered) :
    OrderedUpTo h.pol (h.removeRoot (h.size.toNat - 1)) (h.size.toNat - 1) := by
  obtain ⟨h1, h2⟩ := hb
  have h2' : h.cap.toNat ≤ 256 := h2
  refine siftDown_ordered h.pol _ 0 _ (by omega) (by show _ ≤ 256; omega) (fun k hk hkm hki => ?_)
    fun k _ _ _ h0 => absurd h0 (by omega)
  rw [tableGet_tableSet_other _ _ (by omega), tableGet_tableSet_other _ _ (by omega)]
  exact ho k hk (by omega)

/-- In an ordered heap no item is before the root. -/
theorem root_first {h : Heap} (ho : h.ordered) (i : Nat) (hi : i < h.size.toNat) :
    before h.pol (tableGet h.items i) (tableGet h.items 0) = false := by
  induction i using Nat.strong_induction_on with
  | _ i ih =>
    by_cases h0 : i = 0
    · subst h0; exact before_irrefl _ _
    · have hp := parentOf_lt (Nat.pos_of_ne_zero h0)
      exact not_before_trans (ih _ hp (by omega)) (ho i (by omega) hi)

end Sys2Proof.Machine
end

