-- ==== Sys2Proof/Laws/Exec.lean ====
section
/-! SUPPORT. What each command can answer, once per command: later proofs cite these and unfold no meaning. -/

namespace Sys2Proof.Machine

theorem execHeapNew_cases {cap : BitVec 9} {pol : Polarity} {s t : State} (h : exec (.heapNew cap pol) s = .next t) :
    (cap.toNat ≤ Config.heapSlots ∧ t = ({ s with heap := s.heap.create cap pol } : State).complete) ∨
    (Config.heapSlots < cap.toNat ∧ t = s.raise .illegalCommand (encode (.heapNew cap pol))) := by
  simp only [exec, execHeapNew, Instr.wellFormed, decide_eq_true_eq] at h
  split at h <;> cases h
  · exact .inl ⟨‹_›, rfl⟩
  · exact .inr ⟨by omega, rfl⟩

theorem execHeapInsert_cases {tag : Tag} {s t : State} (h : exec (.heapInsert tag) s = .next t) :
    (s.heap.size ≠ s.heap.cap ∧ t = ({ s with heap := { s.heap with
      items := siftUp s.heap.pol s.heap.size.toNat s.heap.size.toNat
        (tableSet s.heap.items s.heap.size.toNat ⟨s.arg0, tag⟩)
      size := s.heap.size + 1#9 } } : State).complete) ∨
    (s.heap.size = s.heap.cap ∧ t = s.raise .capacityExceeded (s.heap.cap.setWidth 32)) := by
  simp only [exec, execHeapInsert] at h
  rcases insert_cases ⟨s.arg0, tag⟩ s.heap with ⟨hc, e⟩ | ⟨hc, e⟩ <;> rw [e] at h <;> cases h
  · exact .inr ⟨hc, rfl⟩
  · exact .inl ⟨hc, rfl⟩

theorem execHeapExtract_cases {s t : State} (h : exec .heapExtract s = .next t) :
    (s.heap.size ≠ 0#9 ∧ t = ({ s with
      heap := { s.heap with items := s.heap.removeRoot (s.heap.size.toNat - 1), size := s.heap.size - 1#9 }
      result0 := (tableGet s.heap.items 0).key
      result1 := ⟨true, (tableGet s.heap.items 0).tag⟩ } : State).complete) ∨
    (s.heap.size = 0#9 ∧ t = ({ s with result0 := 0#32, result1 := ⟨false, 0#16⟩ } : State).complete) := by
  simp only [exec, execHeapExtract] at h
  rcases extract_cases s.heap with ⟨hc, e⟩ | ⟨hc, e⟩ <;> rw [e] at h <;> cases h
  · exact .inr ⟨hc, rfl⟩
  · exact .inl ⟨hc, rfl⟩

theorem execHeapPeek_cases {idx : BitVec 9} {s t : State} (h : exec (.heapPeek idx) s = .next t) :
    (idx.toNat < s.heap.size.toNat ∧ t = ({ s with
      result0 := (tableGet s.heap.items idx.toNat).key
      result1 := ⟨true, (tableGet s.heap.items idx.toNat).tag⟩ } : State).complete) ∨
    (s.heap.size.toNat ≤ idx.toNat ∧
      t = ({ s with result0 := 0#32, result1 := ⟨false, 0#16⟩ } : State).complete) := by
  simp only [exec, execHeapPeek] at h
  rcases peek_cases s.heap idx.toNat with ⟨hc, e⟩ | ⟨hc, e⟩ <;> rw [e] at h <;> cases h
  · exact .inl ⟨hc, rfl⟩
  · exact .inr ⟨hc, rfl⟩

theorem execHeapSize_cases {s t : State} (h : exec .heapSize s = .next t) :
    t = ({ s with result0 := s.heap.size.setWidth 32, result1 := ⟨false, 0#16⟩ } : State).complete := by
  cases h; rfl

theorem execBuildTree_cases {s t : State} (h : exec .buildTree s = .next t) :
    (s.msgLen = 0#32 ∧ t = s.raise .emptyInput 0#32) ∨
    (s.msgLen ≠ 0#32 ∧ Config.msgMax < s.msgLen.toNat ∧ t = s.raise .bufferOverflow s.msgLen) ∨
    (s.msgLen ≠ 0#32 ∧ s.msgLen.toNat ≤ Config.msgMax ∧ t = s.builtTree.complete) := by
  simp only [exec, execBuildTree] at h
  split at h
  · cases h; exact .inl ⟨‹_›, rfl⟩
  · split at h <;> cases h
    · exact .inr (.inl ⟨‹_›, ‹_›, rfl⟩)
    · exact .inr (.inr ⟨‹_›, by omega, rfl⟩)

theorem execBuildIndex_cases {s t : State} (h : exec .buildIndex s = .next t) :
    (s.status.treeValid = false ∧ t = s.raise .noTree 0#32) ∨
    (s.status.treeValid = true ∧ ∃ T, s.arena.tree = some T ∧
      (T.index.2 = none ∧ t = (s.holdIndex T.index.1 true).complete ∨
        ∃ i, T.index.2 = some i ∧
          t = (s.holdIndex T.index.1 false).raise .invalidTreeFormat (BitVec.ofNat 32 i))) := by
  simp only [exec, execBuildIndex] at h
  split at h
  · rename_i hv
    split at h
    · rename_i T hT
      refine .inr ⟨hv, T, hT, ?_⟩
      split at h <;> rename_i code _ he <;> cases h
      · exact .inl ⟨by rw [he], by rw [he]⟩
      · exact .inr ⟨_, by rw [he], by rw [he]⟩
    · cases h
  · cases h; exact .inl ⟨by simp_all, rfl⟩

theorem execEncode_cases {s t : State} (h : exec .encode s = .next t) :
    (s.status.indexValid = false ∧ t = s.raise .noIndex 0#32) ∨
    (s.status.indexValid = true ∧ Config.msgMax < s.msgLen.toNat ∧ t = s.raise .bufferOverflow s.msgLen) ∨
    (s.status.indexValid = true ∧ s.msgLen.toNat ≤ Config.msgMax ∧
      ((∃ k, firstUncoded s.code 0 s.message = some k ∧ t = s.raise .noCode (BitVec.ofNat 32 k)) ∨
        firstUncoded s.code 0 s.message = none ∧
          (Config.mbsBits < encodedLength s.code s.message ∧
              t = s.raise .bufferOverflow (BitVec.ofNat 32 (encodedLength s.code s.message)) ∨
            encodedLength s.code s.message ≤ Config.mbsBits ∧ t = ({ s with
              mem := s.mem.writeBits Config.mbsBase 0 (encodeBytes s.code s.message)
              mbsLen := BitVec.ofNat 32 (encodedLength s.code s.message) } : State).complete))) := by
  simp only [exec, execEncode] at h
  split at h
  · cases h; exact .inl ⟨by simp_all, rfl⟩
  · rename_i hv
    have hv : s.status.indexValid = true := by simpa using hv
    split at h
    · cases h; exact .inr (.inl ⟨hv, ‹_›, rfl⟩)
    · refine .inr (.inr ⟨hv, by omega, ?_⟩)
      split at h
      · cases h; exact .inl ⟨_, ‹_›, rfl⟩
      · split at h <;> cases h
        · exact .inr ⟨‹_›, .inl ⟨‹_›, rfl⟩⟩
        · exact .inr ⟨‹_›, .inr ⟨by omega, rfl⟩⟩

theorem execEncodeTree_cases {s t : State} (h : exec .encodeTree s = .next t) :
    (s.status.treeValid = false ∧ t = s.raise .noTree 0#32) ∨
    (s.status.treeValid = true ∧ ∃ T, s.arena.tree = some T ∧ t = ({ s with
      mem := s.mem.writeBits Config.tbsBase 0 T.serialize
      tbsLen := BitVec.ofNat 32 T.serialize.length } : State).complete) := by
  simp only [exec, execEncodeTree] at h
  split at h
  · rename_i hv
    split at h <;> cases h
    exact .inr ⟨hv, _, ‹_›, rfl⟩
  · cases h; exact .inl ⟨by simp_all, rfl⟩

theorem execDeserializeTree_cases {s t : State} (h : exec .deserializeTree s = .next t) :
    ((s.tbsLen = 0#32 ∨ Config.tbsBits < s.tbsLen.toNat) ∧ t = s.tearDown.raise .invalidTreeFormat s.tbsLen) ∨
    (s.tbsLen ≠ 0#32 ∧ s.tbsLen.toNat ≤ Config.tbsBits ∧
      ((∃ p, parseTree s.treeBit s.tbsLen.toNat s.arena.nodes = .consumed p ∧
          t = (s.tearDown.holdParsed p).complete) ∨
        ∃ info nodes, parseTree s.treeBit s.tbsLen.toNat s.arena.nodes = .failed info nodes ∧
          t = ({ s.tearDown with arena := { s.tearDown.arena with nodes := nodes } } : State).raise
            .invalidTreeFormat (BitVec.ofNat 32 info))) := by
  simp only [exec, execDeserializeTree] at h
  split at h
  · cases h; exact .inl ⟨‹_›, rfl⟩
  · rename_i hl
    refine .inr ⟨fun e => hl (.inl e), by have := fun e => hl (.inr e); omega, ?_⟩
    split at h <;> cases h
    · exact .inl ⟨_, ‹_›, rfl⟩
    · exact .inr ⟨_, _, ‹_›, rfl⟩

theorem execDecode_cases {s t : State} (h : exec .decode s = .next t) :
    (s.status.treeValid = false ∧ t = ({ s with outLen := 0#32 } : State).raise .noTree 0#32) ∨
    (s.status.treeValid = true ∧ Config.mbsBits < s.mbsLen.toNat ∧
      t = ({ s with outLen := 0#32 } : State).raise .malformedBitstream s.mbsLen) ∨
    (s.status.treeValid = true ∧ s.mbsLen.toNat ≤ Config.mbsBits ∧ ∃ T, s.arena.tree = some T ∧
      ((decodeFrom T T 0 0 s.messageBits).error = none ∧
          t = (s.emit (decodeFrom T T 0 0 s.messageBits).bytes
            (BitVec.ofNat 32 (decodeFrom T T 0 0 s.messageBits).bytes.length)).complete ∨
        ∃ e info, (decodeFrom T T 0 0 s.messageBits).error = some (e, info) ∧
          t = (s.emit (decodeFrom T T 0 0 s.messageBits).bytes 0#32).raise e (BitVec.ofNat 32 info))) := by
  simp only [exec, execDecode] at h
  split at h
  · cases h; exact .inl ⟨by simp_all, rfl⟩
  · rename_i hv
    have hv : s.status.treeValid = true := by simpa using hv
    split at h
    · cases h; exact .inr (.inl ⟨hv, ‹_›, rfl⟩)
    · split at h
      · cases h
      · rename_i T hT
        refine .inr (.inr ⟨hv, by omega, T, hT, ?_⟩)
        split at h <;> rename_i hd <;> cases h
        · exact .inl ⟨by rw [hd], by rw [hd]⟩
        · exact .inr ⟨_, _, by rw [hd], by rw [hd]⟩

theorem execTeardown_cases {s t : State} (h : exec .teardown s = .next t) : t = s.tearDown.complete := by
  cases h; rfl

/-- The only way a command does not complete: a walk over an arena without a tree (log 9). -/
theorem exec_stops {i : Instr} {s : State} (h : ∀ t, exec i s ≠ .next t) :
    (i = .encodeTree ∨ i = .buildIndex ∨ i = .decode) ∧ exec i s = .fault .arenaNotATree := by
  cases i <;> simp only [exec] at h ⊢ <;> (try simp)
  case heapNew cap pol => unfold execHeapNew at h; split at h <;> exact absurd rfl (h _)
  case heapInsert tag => unfold execHeapInsert at h; split at h <;> exact absurd rfl (h _)
  case heapExtract => unfold execHeapExtract at h; split at h <;> exact absurd rfl (h _)
  case heapPeek idx => exact absurd rfl (h _)
  case heapSize => exact absurd rfl (h _)
  case buildTree => unfold execBuildTree at h; split_ifs at h <;> exact absurd rfl (h _)
  case buildIndex =>
    unfold execBuildIndex at h ⊢
    split at h <;> (try exact absurd rfl (h _))
    rename_i hv
    split at h
    · split at h <;> exact absurd rfl (h _)
    · simp [hv]
  case encode =>
    unfold execEncode at h
    split at h <;> (try exact absurd rfl (h _))
    split at h <;> (try exact absurd rfl (h _))
    split at h <;> (try exact absurd rfl (h _))
    split at h <;> exact absurd rfl (h _)
  case encodeTree =>
    unfold execEncodeTree at h ⊢
    split at h <;> (try exact absurd rfl (h _))
    rename_i hv
    split at h
    · exact absurd rfl (h _)
    · simp [hv]
  case deserializeTree =>
    unfold execDeserializeTree at h
    split_ifs at h <;> (try exact absurd rfl (h _))
    split at h <;> exact absurd rfl (h _)
  case decode =>
    unfold execDecode at h ⊢
    split at h <;> (try exact absurd rfl (h _))
    rename_i hv
    split at h <;> (try exact absurd rfl (h _))
    rename_i hl
    split at h
    · rw [if_neg hv, if_neg hl]
    · split at h <;> exact absurd rfl (h _)
  case teardown => exact absurd rfl (h _)

end Sys2Proof.Machine
end

