-- ==== Sys2Proof/Laws/Build.lean ====
section
/-! SUPPORT. The steps of the build and of the parse: what the tally counts, what one merge and one node of the parse
can do. -/

namespace Sys2Proof.Machine

/-! ## The build -/

/-- The tally counts (41_tree_builder.md R171). -/
theorem tally_count (m : List Byte) (h : m.length < 2 ^ 32) (v : Byte) :
    (tableGet (tally m) v.toNat).toNat = m.count v := by
  have hv : v.toNat < 256 := v.isLt
  suffices H : ∀ (l : List Byte) (t : Vector Word 256), (tableGet t v.toNat).toNat + l.length < 2 ^ 32 →
      (tableGet (l.foldl (fun t b => tableSet t b.toNat (tableGet t b.toNat + 1#32)) t) v.toNat).toNat =
        (tableGet t v.toNat).toNat + l.count v by
    have h0 : tableGet (Vector.replicate 256 (0#32)) v.toNat = 0#32 := tableGet_replicate _ hv
    have := H m (Vector.replicate 256 0#32) (by rw [h0]; simpa using h)
    rw [h0] at this
    simpa [tally] using this
  intro l
  induction l with
  | nil => intro t _; simp
  | cons b bs ih =>
    intro t ht
    simp only [List.length_cons] at ht
    simp only [List.foldl_cons]
    by_cases hb : b = v
    · subst hb
      have hg : tableGet (tableSet t b.toNat (tableGet t b.toNat + 1#32)) b.toNat = tableGet t b.toNat + 1#32 :=
        tableGet_tableSet_same _ _ hv
      have hn : (tableGet t b.toNat + 1#32).toNat = (tableGet t b.toNat).toNat + 1 := by
        rw [BitVec.toNat_add]; simp; omega
      rw [ih _ (by rw [hg, hn]; omega), hg, hn, List.count_cons_self]
      omega
    · have hne : b.toNat ≠ v.toNat := fun e => hb (BitVec.eq_of_toNat_eq e)
      have hg : tableGet (tableSet t b.toNat (tableGet t b.toNat + 1#32)) v.toNat = tableGet t v.toNat :=
        tableGet_tableSet_other _ _ hne
      rw [ih _ (by rw [hg]; omega), hg, List.count_cons_of_ne hb]

/-- Everything an insertion of the build can do. -/
theorem build_insert_cases (key : Word) (b : Build) :
    (b.heap.size = b.heap.cap ∧ b.insert key = b.heap) ∨
    (b.heap.size ≠ b.heap.cap ∧ b.insert key = { b.heap with
      items := siftUp b.heap.pol b.heap.size.toNat b.heap.size.toNat
        (tableSet b.heap.items b.heap.size.toNat ⟨key, BitVec.ofNat 16 b.n⟩)
      size := b.heap.size + 1#9 }) := by
  unfold Build.insert
  rcases insert_cases ⟨key, BitVec.ofNat 16 b.n⟩ b.heap with ⟨h, e⟩ | ⟨h, e⟩ <;> rw [e]
  · exact .inl ⟨h, rfl⟩
  · exact .inr ⟨h, rfl⟩

/-- Everything a merge can do: it joins the two items extracted first, in their order (41_tree_builder.md R173). -/
theorem merge_cases (b : Build) :
    (∃ l h r h', b.heap.extract = some (l, h) ∧ h.extract = some (r, h') ∧ b.merge = b.join l r h') ∨
    b.merge = b := by
  unfold Build.merge
  split
  · exact .inr rfl
  · split
    · exact .inr rfl
    · exact .inl ⟨_, _, _, _, ‹_›, ‹_›, rfl⟩

/-! ## The parse -/

/-- Everything one node of the parse can do, in the order of its checks (42_tree_serdes.md R194, R196). -/
theorem parse_node_cases (bit : Nat → Bool) (len : Nat) (p : Parse) :
    (p.n ≠ 0 ∧ p.slot = Config.noNode ∧ p.node bit len = .error p.pos) ∨
    (¬(p.n ≠ 0 ∧ p.slot = Config.noNode) ∧
      ((p.n = Config.nodeSlots ∧ p.node bit len = .error p.pos) ∨
        p.n ≠ Config.nodeSlots ∧
          ((bit p.pos = true ∧ p.node bit len = .ok (p.addInternal p.slot)) ∨
            (bit p.pos = false ∧ len < p.pos + 9 ∧ p.node bit len = .error len) ∨
            (bit p.pos = false ∧ p.pos + 9 ≤ len ∧
              p.node bit len = .ok (p.addLeaf p.slot (readValue bit p.pos)))))) := by
  unfold Parse.node
  split
  · rename_i h; exact .inl ⟨h.1, h.2, rfl⟩
  · rename_i h
    refine .inr ⟨h, ?_⟩
    split
    · exact .inl ⟨‹_›, rfl⟩
    · rename_i hn
      refine .inr ⟨hn, ?_⟩
      split
      · exact .inl ⟨‹_›, rfl⟩
      · rename_i hb
        have hb : bit p.pos = false := by simpa using hb
        split
        · exact .inr (.inl ⟨hb, ‹_›, rfl⟩)
        · exact .inr (.inr ⟨hb, by omega, rfl⟩)

/-- A node found open is open, and no other node is found (42_tree_serdes.md R195). -/
theorem findOpen_isOpen (nodes : Vector Node Config.nodeSlots) (fuel : Nat) (i : NodeIndex)
    (h : findOpen nodes fuel i ≠ Config.noNode) : (tableGet nodes (findOpen nodes fuel i).toNat).isOpen = true := by
  induction fuel generalizing i with
  | zero => exact absurd rfl h
  | succ fuel ih =>
    unfold findOpen at h ⊢
    split
    · rename_i hi; rw [if_pos hi] at h; exact absurd rfl h
    · rename_i hi
      rw [if_neg hi] at h
      split
      · assumption
      · rename_i ho
        rw [if_neg ho] at h
        exact ih _ h

/-- The value read after a shape bit, most significant bit first (42_tree_serdes.md R191). -/
theorem readValue_getLsbD (bit : Nat → Bool) (pos : Nat) {j : Nat} (hj : j < 8) :
    (readValue bit pos).getLsbD (7 - j) = bit (pos + 1 + j) := by
  unfold readValue
  simp only [show List.range 8 = [0, 1, 2, 3, 4, 5, 6, 7] from rfl, List.foldl_cons, List.foldl_nil]
  interval_cases j <;>
    simp [BitVec.getLsbD_or, BitVec.getLsbD_shiftLeft, BitVec.getLsbD_setWidth, BitVec.getLsbD_ofBool,
      -BitVec.getLsbD_eq_getElem]

end Sys2Proof.Machine
end

