-- ==== Sys2Proof/Laws/Memory.lean ====
section
/-! SUPPORT. The buffers: every operation keeps the canonical form, a read after a write gives what was written, and
a write leaves every other place alone. -/

namespace Sys2Proof.Machine

/-! ## Lists of cells -/

theorem cellsGet_cellsSet (l : List Host.Cell) (hl : l.Pairwise fun c d => c.1 < d.1) (a b : Nat) (v : Byte) :
    cellsGet (cellsSet l a v) b = if b = a then v else cellsGet l b := by
  induction l with
  | nil => by_cases hv : v = unlistedByte <;> by_cases hb : b = a <;> simp [cellsSet, cellsGet, hv, hb]
  | cons c rest ih =>
    obtain ⟨x, w⟩ := c
    have hrest := ih hl.of_cons
    have hlt : ∀ d ∈ rest, x < d.1 := (List.pairwise_cons.mp hl).1
    have absent : ∀ y, y ≤ x → cellsGet rest y = unlistedByte := by
      intro y hy
      clear hrest ih hl
      induction rest with
      | nil => rfl
      | cons d ds ihd =>
        have hd := hlt d (by simp)
        simp only [cellsGet]
        rw [if_neg (by omega)]
        exact ihd fun e he => hlt e (by simp [he])
    unfold cellsSet
    split
    · rename_i hax
      by_cases hv : v = unlistedByte
      · by_cases hb : b = a
        · subst hb
          simp [hv, cellsGet, Nat.ne_of_lt hax, absent b (Nat.le_of_lt hax)]
        · simp [hv, hb]
      · by_cases hb : b = a <;> simp [hv, hb, cellsGet]
    · split
      · rename_i hax hxa
        subst hxa
        by_cases hv : v = unlistedByte
        · by_cases hb : b = a
          · subst hb; simp [hv, absent]
          · simp [hv, hb, cellsGet]
        · by_cases hb : b = a <;> simp [hv, hb, cellsGet]
      · rename_i hax hxa
        simp only [cellsGet]
        by_cases hb : b = x
        · subst hb; simp [Ne.symm hxa]
        · simp [hb, hrest]

theorem mem_cellsSet {l : List Host.Cell} {a : Nat} {v : Byte} {c : Host.Cell} (h : c ∈ cellsSet l a v) :
    c ∈ l ∨ (c = (a, v) ∧ v ≠ unlistedByte) := by
  induction l with
  | nil =>
    by_cases hv : v = unlistedByte
    · simp [cellsSet, hv] at h
    · simp only [cellsSet, if_neg hv, List.mem_singleton] at h
      exact .inr ⟨h, hv⟩
  | cons d rest ih =>
    unfold cellsSet at h
    split at h
    · split at h
      · exact .inl h
      · rcases List.mem_cons.mp h with h | h
        · exact .inr ⟨h, ‹_›⟩
        · exact .inl h
    · split at h
      · split at h
        · exact .inl (List.mem_cons_of_mem _ h)
        · rcases List.mem_cons.mp h with h | h
          · exact .inr ⟨h, ‹_›⟩
          · exact .inl (List.mem_cons_of_mem _ h)
      · rcases List.mem_cons.mp h with h | h
        · exact .inl (by simp [h])
        · rcases ih h with h | h
          · exact .inl (List.mem_cons_of_mem _ h)
          · exact .inr h

theorem cellsSet_wf {l : List Host.Cell} (hl : CellsWf l) (a : Nat) (v : Byte) : CellsWf (cellsSet l a v) := by
  obtain ⟨hp, hn⟩ := hl
  refine ⟨?_, ?_⟩
  · induction l with
    | nil => by_cases hv : v = unlistedByte <;> simp [cellsSet, hv]
    | cons d rest ih =>
      obtain ⟨x, w⟩ := d
      have hlt := (List.pairwise_cons.mp hp).1
      have hrest := ih hp.of_cons fun c hc => hn c (by simp [hc])
      unfold cellsSet
      split
      · rename_i hax
        split
        · exact hp
        · refine List.pairwise_cons.mpr ⟨fun c hc => ?_, hp⟩
          rcases List.mem_cons.mp hc with rfl | hc
          · exact hax
          · exact Nat.lt_trans hax (hlt c hc)
      · split
        · rename_i hxa
          split
          · exact hp.of_cons
          · exact List.pairwise_cons.mpr ⟨fun c hc => hxa ▸ hlt c hc, hp.of_cons⟩
        · rename_i hax hxa
          refine List.pairwise_cons.mpr ⟨fun c hc => ?_, hrest⟩
          rcases mem_cellsSet hc with hc | ⟨rfl, -⟩
          · exact hlt c hc
          · show x < a
            omega
  · intro c hc
    rcases mem_cellsSet hc with hc | ⟨rfl, hv⟩
    · exact hn c hc
    · exact hv

/-- An address a canonical list does not list reads as unlisted; one it lists does not. -/
theorem mem_of_cellsGet_ne {l : List Host.Cell} {a : Nat} (h : cellsGet l a ≠ unlistedByte) :
    (a, cellsGet l a) ∈ l := by
  induction l with
  | nil => simp [cellsGet] at h
  | cons d rest ih =>
    obtain ⟨x, w⟩ := d
    unfold cellsGet at h ⊢
    by_cases hax : a = x
    · subst hax; simp
    · simp only [if_neg hax] at h ⊢
      exact List.mem_cons_of_mem _ (ih h)

theorem cellsGet_of_mem {l : List Host.Cell} (hl : l.Pairwise fun c d => c.1 < d.1) {c : Host.Cell} (h : c ∈ l) :
    cellsGet l c.1 = c.2 := by
  induction l with
  | nil => simp at h
  | cons d rest ih =>
    obtain ⟨x, w⟩ := d
    rcases List.mem_cons.mp h with rfl | h
    · simp [cellsGet]
    · have := (List.pairwise_cons.mp hl).1 c h
      simp only [cellsGet]
      rw [if_neg (by simp at this; omega), ih hl.of_cons h]

/-- Canonical lists that read the same everywhere are the same list. -/
theorem cells_ext {l m : List Host.Cell} (hl : CellsWf l) (hm : CellsWf m)
    (h : ∀ a, cellsGet l a = cellsGet m a) : l = m := by
  have sub : ∀ {l m : List Host.Cell}, CellsWf l → (∀ a, cellsGet l a = cellsGet m a) → ∀ c ∈ l, c ∈ m := by
    intro l m hl h c hc
    have hg := cellsGet_of_mem hl.1 hc
    have : (c.1, cellsGet m c.1) ∈ m := mem_of_cellsGet_ne (by rw [← h, hg]; exact hl.2 c hc)
    rwa [← h, hg] at this
  have asym : ∀ a b : Host.Cell, a ∈ l → b ∈ m → a.1 < b.1 → b.1 < a.1 → a = b := fun _ _ _ _ h1 h2 => by omega
  have nd : ∀ {l : List Host.Cell}, CellsWf l → l.Nodup := fun hl => hl.1.imp fun h => by
    rintro rfl; exact Nat.lt_irrefl _ h
  have perm : l.Perm m := (List.perm_ext_iff_of_nodup (nd hl) (nd hm)).mpr fun c =>
    ⟨sub hl h c, sub hm (fun a => (h a).symm) c⟩
  exact perm.eq_of_pairwise asym hl.1 hm.1

/-! ## What a memory holds at an address -/

/-- A byte's value bits and its mask of written bits after any single-byte update. -/
theorem writeByte_get {m : Memory} (hm : m.wf) (a b : Nat) (v : Byte) :
    cellsGet (m.writeByte a v).data b = (if b = a then v else cellsGet m.data b) ∧
      cellsGet (m.writeByte a v).written b = if b = a then 0xFF#8 else cellsGet m.written b :=
  ⟨cellsGet_cellsSet _ hm.1.1 .., cellsGet_cellsSet _ hm.2.1.1 ..⟩

theorem writeBit_get {m : Memory} (hm : m.wf) (base i b : Nat) (v : Bool) :
    cellsGet (m.writeBit base i v).data b =
        (if b = base + i / 8 then
          (if v then cellsGet m.data (base + i / 8) ||| bitMask (i % 8)
            else cellsGet m.data (base + i / 8) &&& ~~~bitMask (i % 8))
        else cellsGet m.data b) ∧
      cellsGet (m.writeBit base i v).written b =
        if b = base + i / 8 then cellsGet m.written (base + i / 8) ||| bitMask (i % 8) else cellsGet m.written b :=
  ⟨cellsGet_cellsSet _ hm.1.1 .., cellsGet_cellsSet _ hm.2.1.1 ..⟩

/-- In a canonical memory no value bit stands outside the mask of written bits. -/
theorem data_within_written {m : Memory} (hm : m.wf) (a : Nat) : cellsGet m.data a &&& ~~~cellsGet m.written a = 0#8 := by
  by_cases h : cellsGet m.data a = unlistedByte
  · rw [h]; simp [unlistedByte]
  · exact hm.2.2.2 _ (mem_of_cellsGet_ne h)

/-! ## Every operation keeps the canonical form -/

theorem reset_wf : Memory.reset.wf := by decide

theorem wf_of_get {d w : List Host.Cell} (hd : CellsWf d) (hw : CellsWf w) (hb : ∀ c ∈ w, InBuffer c.1)
    (h : ∀ a, cellsGet d a &&& ~~~cellsGet w a = 0#8) : Memory.wf ⟨d, w⟩ :=
  ⟨hd, hw, hb, fun c hc => by rw [← cellsGet_of_mem hd.1 hc]; exact h _⟩

theorem writeByte_wf {m : Memory} (hm : m.wf) {a : Nat} (ha : InBuffer a) (v : Byte) : (m.writeByte a v).wf := by
  refine wf_of_get (cellsSet_wf hm.1 ..) (cellsSet_wf hm.2.1 ..) (fun c hc => ?_) fun b => ?_
  · rcases mem_cellsSet hc with hc | ⟨rfl, -⟩
    · exact hm.2.2.1 c hc
    · exact ha
  · have := writeByte_get hm a b v
    simp only [Memory.writeByte] at this
    rw [this.1, this.2]
    by_cases hb : b = a
    · simp [hb]
    · simpa [hb] using data_within_written hm b

theorem writeBit_wf {m : Memory} (hm : m.wf) {base i : Nat} (ha : InBuffer (base + i / 8)) (v : Bool) :
    (m.writeBit base i v).wf := by
  refine wf_of_get (cellsSet_wf hm.1 ..) (cellsSet_wf hm.2.1 ..) (fun c hc => ?_) fun b => ?_
  · rcases mem_cellsSet hc with hc | ⟨rfl, -⟩
    · exact hm.2.2.1 c hc
    · exact ha
  · have := writeBit_get hm base i b v
    simp only [Memory.writeBit] at this
    rw [this.1, this.2]
    by_cases hb : b = base + i / 8
    · have hd := data_within_written hm (base + i / 8)
      subst hb
      simp only [if_true]
      generalize cellsGet m.data (base + i / 8) = d at hd ⊢
      generalize cellsGet m.written (base + i / 8) = w at hd ⊢
      generalize bitMask (i % 8) = k
      ext j hj
      have hdj := congrArg (fun x : Byte => x.getLsbD j) hd
      cases v <;> simp [hj] at hdj ⊢ <;> revert hdj <;> cases d[j] <;> cases w[j] <;> cases k[j] <;> simp
    · simpa [hb] using data_within_written hm b

theorem writeBytes_wf {m : Memory} (hm : m.wf) (bs : List Byte) {a : Nat}
    (ha : ∀ k, k < bs.length → InBuffer (a + k)) : (m.writeBytes a bs).wf := by
  induction bs generalizing m a with
  | nil => exact hm
  | cons b bs ih =>
    refine ih (writeByte_wf hm (ha 0 (by simp)) b) fun k hk => ?_
    rw [show a + 1 + k = a + (k + 1) by omega]
    exact ha (k + 1) (by simpa using hk)

theorem writeBits_wf {m : Memory} (hm : m.wf) (base : Nat) (bs : List Bool) {p : Nat}
    (ha : ∀ k, k < bs.length → InBuffer (base + (p + k) / 8)) : (m.writeBits base p bs).wf := by
  induction bs generalizing m p with
  | nil => exact hm
  | cons b bs ih =>
    refine ih (writeBit_wf hm (ha 0 (by simp)) b) fun k hk => ?_
    rw [show p + 1 + k = p + (k + 1) by omega]
    exact ha (k + 1) (by simpa using hk)

theorem writeWord_wf {m : Memory} (hm : m.wf) {a : Nat} (ha : ∀ k, k < 4 → InBuffer (a + k)) (w : Word) :
    (m.writeWord a w).wf :=
  writeByte_wf (writeByte_wf (writeByte_wf (writeByte_wf hm (ha 0 (by omega)) _) (ha 1 (by omega)) _)
    (ha 2 (by omega)) _) (ha 3 (by omega)) _

/-! ## Reads after writes -/

theorem bitMask_getLsbD {p q : Nat} (hp : p < 8) (hq : q < 8) : (bitMask p).getLsbD q = decide (q = p) := by
  interval_cases p <;> interval_cases q <;> rfl

/-- A byte reads as its value bits where they are written and as the draw elsewhere. -/
theorem readByte_getLsbD (m : Memory) (n a j : Nat) :
    (m.readByte n a).getLsbD j =
      if (cellsGet m.written a).getLsbD j then (cellsGet m.data a).getLsbD j
      else (Config.freeByte n a).getLsbD j && decide (j < 8) := by
  unfold Memory.readByte
  by_cases hj : j < 8
  · split
    · rename_i hw
      simp [hw, hj]
      interval_cases j <;> simp
    · simp only [BitVec.getLsbD_or, BitVec.getLsbD_and, BitVec.getLsbD_not, hj, decide_true, Bool.true_and]
      cases (cellsGet m.written a).getLsbD j <;> simp
  · rw [BitVec.getLsbD_of_ge _ j (Nat.le_of_not_lt hj)]
    simp [hj, BitVec.getLsbD_of_ge _ j (Nat.le_of_not_lt hj)]

theorem readBit_eq_readByte (m : Memory) (n base i : Nat) :
    m.readBit n base i = (m.readByte n (base + i / 8)).getLsbD (i % 8) := by
  rw [readByte_getLsbD]
  simp [Memory.readBit, Nat.mod_lt]

theorem readByte_writeByte {m : Memory} (hm : m.wf) (n a b : Nat) (v : Byte) :
    (m.writeByte a v).readByte n b = if b = a then v else m.readByte n b := by
  have := writeByte_get hm a b v
  unfold Memory.readByte
  rw [this.1, this.2]
  by_cases hb : b = a <;> simp [hb]

theorem readBit_writeBit {m : Memory} (hm : m.wf) (n base i j : Nat) (v : Bool) :
    (m.writeBit base i v).readBit n base j = if j = i then v else m.readBit n base j := by
  have := writeBit_get hm base i (base + j / 8) v
  unfold Memory.readBit
  rw [this.1, this.2]
  have hm8 := bitMask_getLsbD (p := i % 8) (q := j % 8) (Nat.mod_lt _ (by omega)) (Nat.mod_lt _ (by omega))
  have hj8 : j % 8 < 8 := Nat.mod_lt _ (by omega)
  by_cases hb : j / 8 = i / 8
  · by_cases hij : j % 8 = i % 8
    · obtain rfl : j = i := by omega
      cases v <;> simp [BitVec.getLsbD_or, BitVec.getLsbD_and, BitVec.getLsbD_not, hm8, hj8, -BitVec.getLsbD_eq_getElem]
    · have hne : j ≠ i := by rintro rfl; exact hij rfl
      rw [decide_eq_false hij] at hm8
      cases v <;>
        simp [hb, hne, BitVec.getLsbD_or, BitVec.getLsbD_and, BitVec.getLsbD_not, hm8, hj8, -BitVec.getLsbD_eq_getElem]
  · have hne : j ≠ i := by rintro rfl; exact hb rfl
    have hba : base + j / 8 ≠ base + i / 8 := by omega
    simp only [if_neg hba, if_neg hne]

/-- A run of bytes reads back, and every other byte reads as before. -/
theorem readByte_writeBytes {m : Memory} (hm : m.wf) (n : Nat) (bs : List Byte) {a : Nat}
    (ha : ∀ k, k < bs.length → InBuffer (a + k)) (b : Nat) :
    (m.writeBytes a bs).readByte n b = if a ≤ b then bs[b - a]?.getD (m.readByte n b) else m.readByte n b := by
  induction bs generalizing m a with
  | nil => simp [Memory.writeBytes]
  | cons x xs ih =>
    have h0 : InBuffer a := ha 0 (by simp)
    have htl : ∀ k, k < xs.length → InBuffer (a + 1 + k) := fun k hk => by
      rw [show a + 1 + k = a + (k + 1) by omega]; exact ha (k + 1) (by simpa using hk)
    show ((m.writeByte a x).writeBytes (a + 1) xs).readByte n b = _
    rw [ih (writeByte_wf hm h0 x) htl, readByte_writeByte hm]
    by_cases h1 : a + 1 ≤ b
    · have h2 : a ≤ b := by omega
      have h3 : ¬b = a := by omega
      rw [show b - a = b - (a + 1) + 1 by omega]
      simp [h1, h2, h3]
    · by_cases h2 : b = a
      · subst h2; simp
      · have h3 : ¬a ≤ b := by omega
        simp only [if_neg h1, if_neg h2, if_neg h3]

/-- A run of stream bits reads back, and every other stream bit of the buffer reads as before. -/
theorem readBit_writeBits {m : Memory} (hm : m.wf) (n base : Nat) (bs : List Bool) {p : Nat}
    (ha : ∀ k, k < bs.length → InBuffer (base + (p + k) / 8)) (j : Nat) :
    (m.writeBits base p bs).readBit n base j =
      if p ≤ j then bs[j - p]?.getD (m.readBit n base j) else m.readBit n base j := by
  induction bs generalizing m p with
  | nil => simp [Memory.writeBits]
  | cons x xs ih =>
    have h0 : InBuffer (base + p / 8) := ha 0 (by simp)
    have htl : ∀ k, k < xs.length → InBuffer (base + (p + 1 + k) / 8) := fun k hk => by
      rw [show p + 1 + k = p + (k + 1) by omega]; exact ha (k + 1) (by simpa using hk)
    show ((m.writeBit base p x).writeBits base (p + 1) xs).readBit n base j = _
    rw [ih (writeBit_wf hm h0 x) htl, readBit_writeBit hm]
    by_cases h1 : p + 1 ≤ j
    · have h2 : p ≤ j := by omega
      have h3 : ¬j = p := by omega
      rw [show j - p = j - (p + 1) + 1 by omega]
      simp [h1, h2, h3]
    · by_cases h2 : j = p
      · subst h2; simp
      · have h3 : ¬p ≤ j := by omega
        simp only [if_neg h1, if_neg h2, if_neg h3]

/-- A run of stream bits leaves every byte outside it as it was. -/
theorem readByte_writeBits_outside {m : Memory} (hm : m.wf) (n base : Nat) (bs : List Bool) {p : Nat}
    (ha : ∀ k, k < bs.length → InBuffer (base + (p + k) / 8)) {b : Nat}
    (hb : ∀ k, k < bs.length → b ≠ base + (p + k) / 8) :
    (m.writeBits base p bs).readByte n b = m.readByte n b := by
  induction bs generalizing m p with
  | nil => rfl
  | cons x xs ih =>
    have h0 : InBuffer (base + p / 8) := ha 0 (by simp)
    have step : ∀ k, p + 1 + k = p + (k + 1) := fun k => by omega
    have hget := writeBit_get hm base p b x
    have hne := hb 0 (by simp)
    simp only [Nat.add_zero] at hne
    show ((m.writeBit base p x).writeBits base (p + 1) xs).readByte n b = _
    rw [ih (writeBit_wf hm h0 x) (fun k hk => by rw [step]; exact ha (k + 1) (by simpa using hk))
      fun k hk => by rw [step]; exact hb (k + 1) (by simpa using hk)]
    unfold Memory.readByte
    rw [hget.1, hget.2, if_neg hne, if_neg hne]

/-! ## Words -/

/-- Bit j of a word is bit j mod 8 of its byte j / 8. -/
theorem readWord_getLsbD (m : Memory) (n a : Nat) {j : Nat} (hj : j < 32) :
    (m.readWord n a).getLsbD j = (m.readByte n (a + j / 8)).getLsbD (j % 8) := by
  unfold Memory.readWord
  simp only [BitVec.getLsbD_append]
  by_cases h1 : j < 8
  · simp [h1, show j / 8 = 0 by omega, show j % 8 = j by omega]
  · by_cases h2 : j < 16
    · simp [h1, show j - 8 < 8 by omega, show j / 8 = 1 by omega, show j % 8 = j - 8 by omega]
    · by_cases h3 : j < 24
      · simp [h1, show ¬j - 8 < 8 by omega, show j - 8 - 8 < 8 by omega, show j / 8 = 2 by omega,
          show j % 8 = j - 8 - 8 by omega]
      · simp [h1, show ¬j - 8 < 8 by omega, show ¬j - 8 - 8 < 8 by omega, show j / 8 = 3 by omega,
          show j % 8 = j - 8 - 8 - 8 by omega]

/-- Stream bit i is bit i mod 32 of word i / 32 (20_memory.md R84). -/
theorem readBit_eq_readWord (m : Memory) (n base i : Nat) :
    m.readBit n base i = (m.readWord n (base + 4 * (i / 32))).getLsbD (i % 32) := by
  rw [readBit_eq_readByte, readWord_getLsbD _ _ _ (Nat.mod_lt _ (by omega))]
  rw [show base + 4 * (i / 32) + i % 32 / 8 = base + i / 8 by omega, show i % 32 % 8 = i % 8 by omega]

/-- A word write, byte by byte. -/
theorem readByte_writeWord {m : Memory} (hm : m.wf) {a : Nat} (ha : ∀ k, k < 4 → InBuffer (a + k)) (w : Word)
    (n b : Nat) :
    (m.writeWord a w).readByte n b =
      if a ≤ b ∧ b < a + 4 then w.extractLsb' (8 * (b - a)) 8 else m.readByte n b := by
  have h0 : (m.writeByte a (w.extractLsb' 0 8)).wf := writeByte_wf hm (ha 0 (by omega)) _
  have h1 := writeByte_wf h0 (ha 1 (by omega)) (w.extractLsb' 8 8)
  have h2 := writeByte_wf h1 (ha 2 (by omega)) (w.extractLsb' 16 8)
  unfold Memory.writeWord
  rw [readByte_writeByte h2, readByte_writeByte h1, readByte_writeByte h0, readByte_writeByte hm]
  by_cases c3 : b = a + 3
  · subst c3; simp
  · by_cases c2 : b = a + 2
    · subst c2; simp
    · by_cases c1 : b = a + 1
      · subst c1; simp
      · by_cases c0 : b = a
        · subst c0; simp
        · simp only [c3, c2, c1, c0, if_false, show ¬(a ≤ b ∧ b < a + 4) by omega]

/-- A word reads back, and an aligned word elsewhere reads as before. -/
theorem readWord_writeWord {m : Memory} (hm : m.wf) {a b : Nat} (ha : ∀ k, k < 4 → InBuffer (a + k)) (w : Word)
    (n : Nat) (h4 : a % 4 = 0) (h4' : b % 4 = 0) :
    (m.writeWord a w).readWord n b = if b = a then w else m.readWord n b := by
  apply BitVec.eq_of_getLsbD_eq
  intro j hj
  rw [readWord_getLsbD _ _ _ hj, readByte_writeWord hm ha]
  by_cases hb : b = a
  · subst hb
    rw [if_pos ⟨by omega, by omega⟩, if_pos rfl, BitVec.getLsbD_extractLsb']
    simp only [show j % 8 < 8 from Nat.mod_lt _ (by omega), decide_true, Bool.true_and]
    congr 1
    omega
  · rw [if_neg (by omega), if_neg hb, readWord_getLsbD _ _ _ hj]

end Sys2Proof.Machine
end

