-- ==== Sys2Proof/Laws/PerInstr.lean ====
section
/-! SUPPORT. Facts about every command as syntax, one lemma per constructor: a well-formed command is read back from
its word (30_encoding.md R112 to R123). -/

namespace Sys2Proof

/-! ## The fields of the words the formats lay out -/

theorem encode_heapNew_getLsbD (cap : BitVec 9) (pol : Polarity) (i : Nat) :
    (encode (.heapNew cap pol)).getLsbD i = if i < 8 then (0x01#8).getLsbD i else if i < 17 then cap.getLsbD (i - 8)
      else if i < 24 then false else if i < 25 then pol.bit.getLsbD (i - 24) else false := by
  have h : (encode (.heapNew cap pol)).getLsbD i = (0#7 ++ pol.bit ++ 0#7 ++ cap ++ 0x01#8).getLsbD i := rfl
  rw [h]
  simp only [BitVec.getLsbD_append]
  by_cases h1 : i < 8
  · simp [h1]
  · by_cases h2 : i < 17
    · simp [h1, h2, show i - 8 < 9 by omega]
    · by_cases h3 : i < 24
      · simp [h1, h2, h3, show ¬i - 8 < 9 by omega, show i - 8 - 9 < 7 by omega]
      · by_cases h4 : i < 25
        · obtain rfl : i = 24 := by omega
          simp
        · simp [h1, h2, h3, h4, show ¬i - 8 < 9 by omega, show ¬i - 8 - 9 < 7 by omega,
            show ¬i - 8 - 9 - 7 < 1 by omega]

theorem encode_heapInsert_getLsbD (tag : Tag) (i : Nat) :
    (encode (.heapInsert tag)).getLsbD i =
      if i < 8 then (0x02#8).getLsbD i else if i < 24 then tag.getLsbD (i - 8) else false := by
  have h : (encode (.heapInsert tag)).getLsbD i = (0#8 ++ tag ++ 0x02#8).getLsbD i := rfl
  rw [h]
  simp only [BitVec.getLsbD_append]
  by_cases h1 : i < 8
  · simp [h1]
  · by_cases h2 : i < 24
    · simp [h1, h2, show i - 8 < 16 by omega]
    · simp [h1, h2, show ¬i - 8 < 16 by omega]

theorem encode_heapPeek_getLsbD (idx : BitVec 9) (i : Nat) :
    (encode (.heapPeek idx)).getLsbD i =
      if i < 8 then (0x04#8).getLsbD i else if i < 17 then idx.getLsbD (i - 8) else false := by
  have h : (encode (.heapPeek idx)).getLsbD i = (0#15 ++ idx ++ 0x04#8).getLsbD i := rfl
  rw [h]
  simp only [BitVec.getLsbD_append]
  by_cases h1 : i < 8
  · simp [h1]
  · by_cases h2 : i < 17
    · simp [h1, h2, show i - 8 < 9 by omega]
    · simp [h1, h2, show ¬i - 8 < 9 by omega]

theorem formatC_fields (cap : BitVec 9) (pol : Polarity) :
    opcField (encode (.heapNew cap pol)) = 0x01#8 ∧ encode (.heapNew cap pol) &&& 0xFEFE00FF#32 = 0x01#32 ∧
      capField (encode (.heapNew cap pol)) = cap ∧ polField (encode (.heapNew cap pol)) = pol := by
  refine ⟨?_, ?_, ?_, ?_⟩
  · apply BitVec.eq_of_getLsbD_eq; intro i hi
    simp [opcField, encode_heapNew_getLsbD, hi, -BitVec.getLsbD_eq_getElem]
  · apply BitVec.eq_of_getLsbD_eq; intro i hi
    rw [BitVec.getLsbD_and, encode_heapNew_getLsbD]
    interval_cases i <;> simp
  · apply BitVec.eq_of_getLsbD_eq; intro i hi
    simp [capField, encode_heapNew_getLsbD, hi, show 8 + i < 17 by omega, -BitVec.getLsbD_eq_getElem]
  · rw [polField, encode_heapNew_getLsbD]
    cases pol <;> rfl

theorem formatT_fields (tag : Tag) :
    opcField (encode (.heapInsert tag)) = 0x02#8 ∧ encode (.heapInsert tag) &&& 0xFF0000FF#32 = 0x02#32 ∧
      tagField (encode (.heapInsert tag)) = tag := by
  refine ⟨?_, ?_, ?_⟩
  · apply BitVec.eq_of_getLsbD_eq; intro i hi
    simp [opcField, encode_heapInsert_getLsbD, hi, -BitVec.getLsbD_eq_getElem]
  · apply BitVec.eq_of_getLsbD_eq; intro i hi
    rw [BitVec.getLsbD_and, encode_heapInsert_getLsbD]
    interval_cases i <;> simp
  · apply BitVec.eq_of_getLsbD_eq; intro i hi
    simp [tagField, encode_heapInsert_getLsbD, hi, show 8 + i < 24 by omega, -BitVec.getLsbD_eq_getElem]

theorem formatI_fields (idx : BitVec 9) :
    opcField (encode (.heapPeek idx)) = 0x04#8 ∧ encode (.heapPeek idx) &&& 0xFFFE00FF#32 = 0x04#32 ∧
      idxField (encode (.heapPeek idx)) = idx := by
  refine ⟨?_, ?_, ?_⟩
  · apply BitVec.eq_of_getLsbD_eq; intro i hi
    simp [opcField, encode_heapPeek_getLsbD, hi, -BitVec.getLsbD_eq_getElem]
  · apply BitVec.eq_of_getLsbD_eq; intro i hi
    rw [BitVec.getLsbD_and, encode_heapPeek_getLsbD]
    interval_cases i <;> simp
  · apply BitVec.eq_of_getLsbD_eq; intro i hi
    simp [idxField, encode_heapPeek_getLsbD, hi, show 8 + i < 17 by omega, -BitVec.getLsbD_eq_getElem]

/-! ## The family -/

/-- A well-formed command is what the decoder reads from its word. -/
def Laws.ReadBack.Statement (i : Instr) : Prop := i.wellFormed = true → decode (encode i) = .ok i

theorem Laws.ReadBack.heapNew (cap : BitVec 9) (pol : Polarity) : Laws.ReadBack.Statement (.heapNew cap pol) := by
  intro h
  obtain ⟨h1, h2, h3, h4⟩ := formatC_fields cap pol
  simp only [decode, h1]
  simp [opcodeRow, opcodeTable, instrOf, h2, h3, h4, h]

theorem Laws.ReadBack.heapInsert (tag : Tag) : Laws.ReadBack.Statement (.heapInsert tag) := by
  intro h
  obtain ⟨h1, h2, h3⟩ := formatT_fields tag
  simp only [decode, h1]
  simp [opcodeRow, opcodeTable, instrOf, h2, h3, h]

theorem Laws.ReadBack.heapPeek (idx : BitVec 9) : Laws.ReadBack.Statement (.heapPeek idx) := by
  intro h
  obtain ⟨h1, h2, h3⟩ := formatI_fields idx
  simp only [decode, h1]
  simp [opcodeRow, opcodeTable, instrOf, h2, h3, h]

theorem Laws.ReadBack.heapExtract : Laws.ReadBack.Statement .heapExtract := fun _ => rfl
theorem Laws.ReadBack.heapSize : Laws.ReadBack.Statement .heapSize := fun _ => rfl
theorem Laws.ReadBack.buildTree : Laws.ReadBack.Statement .buildTree := fun _ => rfl
theorem Laws.ReadBack.buildIndex : Laws.ReadBack.Statement .buildIndex := fun _ => rfl
theorem Laws.ReadBack.encode : Laws.ReadBack.Statement .encode := fun _ => rfl
theorem Laws.ReadBack.encodeTree : Laws.ReadBack.Statement .encodeTree := fun _ => rfl
theorem Laws.ReadBack.deserializeTree : Laws.ReadBack.Statement .deserializeTree := fun _ => rfl
theorem Laws.ReadBack.decode : Laws.ReadBack.Statement .decode := fun _ => rfl
theorem Laws.ReadBack.teardown : Laws.ReadBack.Statement .teardown := fun _ => rfl

end Sys2Proof
end

