-- ==== Sys2Proof/Laws/Step.lean ====
section
/-! SUPPORT. What one step can be, and what each host event can do, once for all later proofs. -/

namespace Sys2Proof.Machine

/-! ## Steps -/

theorem completing_iff (w : Word) (s : State) : s.completing w ↔ s.nextAgent = .engine ∧ s.pending = some w := Iff.rfl

theorem nextAgent_engine {s : State} :
    s.nextAgent = .engine ↔ s.status.busy = true ∧ (s.delay = 0 ∨ s.hostQueue = []) := by
  unfold State.nextAgent
  by_cases hd : s.delay = 0 <;> cases s.status.busy <;> simp [List.isEmpty_iff, hd]

theorem nextAgent_host {s : State} :
    s.nextAgent = .host ↔ s.status.busy = false ∨ (s.delay ≠ 0 ∧ s.hostQueue ≠ []) := by
  unfold State.nextAgent
  cases s.status.busy <;> simp [List.isEmpty_iff]

/-- What a step is, in every state. -/
theorem step_eq (s : State) :
    (s.nextAgent = .host → step s = hostStep s) ∧
    (s.nextAgent = .engine → s.pending = none → step s = .fault .nothingPending) ∧
    (∀ w i, s.completing w → decode w = .ok i → step s = exec i s) ∧
    (∀ w e, s.completing w → decode w = .error e → step s = .next (s.raise .illegalCommand w)) := by
  refine ⟨fun h => ?_, fun h hp => ?_, fun w i ⟨h, hp⟩ hd => ?_, fun w e ⟨h, hp⟩ hd => ?_⟩ <;> unfold step <;>
    rw [h]
  · rw [hp]
  · rw [hp]; show (match decode w with | .ok i => exec i s | .error _ => _) = _; rw [hd]
  · rw [hp]; show (match decode w with | .ok i => exec i s | .error _ => _) = _; rw [hd]

/-- Every step that goes on is a host event, a command, or the report of an illegal word. -/
theorem step_cases {s t : State} (h : step s = .next t) :
    (s.nextAgent = .host ∧ hostStep s = .next t) ∨
    (∃ w i, s.completing w ∧ decode w = .ok i ∧ exec i s = .next t) ∨
    (∃ w e, s.completing w ∧ decode w = .error e ∧ t = s.raise .illegalCommand w) := by
  unfold step at h
  split at h
  · exact .inl ⟨‹_›, h⟩
  · rename_i ha
    split at h
    · cases h
    · rename_i w hp
      split at h
      · exact .inr (.inl ⟨w, _, ⟨ha, hp⟩, ‹_›, h⟩)
      · cases h; exact .inr (.inr ⟨w, _, ⟨ha, hp⟩, ‹_›, rfl⟩)

/-- What a host step is: nothing when the program has ended, otherwise its first event. -/
theorem hostStep_cases {s t : State} (h : hostStep s = .next t) :
    (s.hostQueue = [] ∧ t = s) ∨
    (∃ e rest, s.hostQueue = e :: rest ∧
      performEvent e { s with hostQueue := rest, delay := s.delay - 1 } = .next t) := by
  unfold hostStep at h
  split at h
  · cases h; exact .inl ⟨‹_›, rfl⟩
  · exact .inr ⟨_, _, ‹_›, h⟩

/-! ## Accesses -/

/-- A legal access: an aligned 32-bit word inside the aperture. -/
theorem checkAccess_next {loc : Loc} {bytes off : Nat} :
    checkAccess loc bytes = .next off ↔ loc.resolve = some off ∧ bytes = 4 ∧ off % 4 = 0 := by
  unfold checkAccess
  split
  · simp [*]
  · rename_i o ho
    rw [ho]
    split
    · simp only [Host.Outcome.next.injEq, Option.some.injEq]
      exact ⟨by rintro rfl; exact ⟨rfl, ‹_›⟩, fun h => h.1⟩
    · rename_i hn
      simp only [reduceCtorEq, Option.some.injEq, false_iff]
      rintro ⟨rfl, h⟩
      exact hn h

theorem resolve_lt {loc : Loc} {off : Nat} (h : loc.resolve = some off) : off < Config.apertureSize := by
  unfold Loc.resolve at h
  split at h <;> split at h <;> cases h
  · assumption
  · rename_i hc; exact hc.2

/-- What one event can do. -/
theorem performEvent_cases {e : HostEvent} {s t : State} (h : performEvent e s = .next t) :
    (∃ loc bytes off, e = .read loc bytes ∧ checkAccess loc bytes = .next off ∧ t = s.hostRead off) ∨
    (∃ loc bytes v off, e = .write loc bytes v ∧ checkAccess loc bytes = .next off ∧ s.hostWrite off v = .next t) ∨
    (e = .wait ∧ s.status.busy = true ∧ t = { s with hostQueue := .wait :: s.hostQueue }) ∨
    (e = .wait ∧ s.status.busy = false ∧ t = s) ∨
    (∃ n, e = .skipIfErr n ∧ s.status.err = true ∧ t = { s with hostQueue := s.hostQueue.drop n }) ∨
    (∃ n, e = .skipIfErr n ∧ s.status.err = false ∧ t = s) ∨
    (e = .reset ∧ t = s.platformReset) := by
  unfold performEvent at h
  split at h
  · split at h <;> cases h
    exact .inl ⟨_, _, _, rfl, ‹_›, rfl⟩
  · split at h <;> (try cases h)
    exact .inr (.inl ⟨_, _, _, _, rfl, ‹_›, h⟩)
  · split at h <;> cases h
    · exact .inr (.inr (.inl ⟨rfl, ‹_›, rfl⟩))
    · exact .inr (.inr (.inr (.inl ⟨rfl, by simp_all, rfl⟩)))
  · split at h <;> cases h
    · exact .inr (.inr (.inr (.inr (.inl ⟨_, rfl, ‹_›, rfl⟩))))
    · exact .inr (.inr (.inr (.inr (.inr (.inl ⟨_, rfl, by simp_all, rfl⟩)))))
  · cases h
    exact .inr (.inr (.inr (.inr (.inr (.inr ⟨rfl, rfl⟩)))))

/-- What a host write can do: an idle write, or one of the two writes allowed while BUSY = 1. -/
theorem hostWrite_cases {s t : State} {off : Nat} {v : Word} (h : s.hostWrite off v = .next t) :
    (s.status.busy = false ∧ t = s.writeIdle off v) ∨
    (s.status.busy = true ∧ target off = .csr .cmd ∧ t = { s with status := s.status.overrun }) ∨
    (s.status.busy = true ∧ target off = .csr .status ∧ v.getLsbD 3 = true ∧
      t = { s with status := s.status.clearOvr }) := by
  unfold State.hostWrite State.writeBusy at h
  split at h
  · split at h
    · cases h; exact .inr (.inl ⟨‹_›, ‹_›, rfl⟩)
    · split at h <;> cases h
      rename_i hb _ hc
      exact .inr (.inr ⟨hb, hc.1, hc.2, rfl⟩)
  · cases h; exact .inl ⟨by simp_all, rfl⟩

/-- What an idle write can do, by what the offset names. -/
theorem writeIdle_cases (off : Nat) (v : Word) (s : State) :
    (target off = .buffer ∧ s.writeIdle off v = { s with mem := s.mem.writeWord off v }) ∨
    (target off = .csr .cmd ∧ s.writeIdle off v = s.issue v) ∨
    (target off = .csr .status ∧ v.getLsbD 3 = true ∧
      s.writeIdle off v = { s with status := s.status.clearOvr }) ∨
    (target off = .csr .arg0 ∧ s.writeIdle off v = { s with arg0 := v }) ∨
    (target off = .csr .msgLen ∧ s.writeIdle off v = { s with msgLen := v }) ∨
    (target off = .csr .tbsLen ∧ s.writeIdle off v = { s with tbsLen := v }) ∨
    (target off = .csr .mbsLen ∧ s.writeIdle off v = { s with mbsLen := v }) ∨
    s.writeIdle off v = s := by
  unfold State.writeIdle
  cases ht : target off with
  | csr r => cases r <;> simp only [State.writeCsr] <;> (try split) <;> simp [*]
  | _ => simp

/-- A word the address map calls a buffer word lies in a buffer with all four of its bytes. -/
theorem target_buffer {off : Nat} (h : target off = .buffer) (ha : off % 4 = 0) :
    ∀ k, k < 4 → InBuffer (off + k) := by
  have key : (Config.msgBase ≤ off ∧ off < Config.tbsEnd) ∨ (Config.mbsBase ≤ off ∧ off < Config.nodeBase) := by
    by_contra hn
    unfold target at h
    by_cases c1 : off < Config.msgBase
    · rw [if_pos c1] at h
      unfold csrTarget at h
      split at h <;> cases h
    rw [if_neg c1] at h
    by_cases c2 : off < Config.tbsEnd
    · exact hn (.inl ⟨Nat.le_of_not_lt c1, c2⟩)
    rw [if_neg c2] at h
    by_cases c3 : off < Config.mbsBase
    · rw [if_pos c3] at h; cases h
    rw [if_neg c3] at h
    by_cases c4 : off < Config.nodeBase
    · exact hn (.inr ⟨Nat.le_of_not_lt c3, c4⟩)
    rw [if_neg c4] at h
    by_cases c5 : off < Config.nodeEnd
    · rw [if_pos c5] at h; cases h
    rw [if_neg c5] at h
    by_cases c6 : off < Config.codeBase
    · rw [if_pos c6] at h; cases h
    rw [if_neg c6] at h
    by_cases c7 : off < Config.codeEnd
    · rw [if_pos c7] at h; cases h
    rw [if_neg c7] at h
    by_cases c8 : off < Config.heapBase
    · rw [if_pos c8] at h; cases h
    rw [if_neg c8] at h
    by_cases c9 : off < Config.heapEnd
    · rw [if_pos c9] at h; cases h
    rw [if_neg c9] at h
    by_cases c10 : off < Config.freqBase
    · rw [if_pos c10] at h; cases h
    rw [if_neg c10] at h
    by_cases c11 : off < Config.freqEnd
    · rw [if_pos c11] at h; cases h
    rw [if_neg c11] at h
    cases h
  intro k hk
  simp only [Config.msgBase, Config.tbsEnd, Config.mbsBase, Config.nodeBase, InBuffer] at key ⊢
  omega

/-- A host write keeps the buffers canonical. -/
theorem hostWrite_mem_wf {s t : State} {off : Nat} {v : Word} (hw : s.mem.wf) (ha : off % 4 = 0)
    (h : s.hostWrite off v = .next t) : t.mem.wf := by
  rcases hostWrite_cases h with ⟨-, rfl⟩ | ⟨-, -, rfl⟩ | ⟨-, -, -, rfl⟩
  · rcases writeIdle_cases off v s with ⟨ht, e⟩ | ⟨-, e⟩ | ⟨-, -, e⟩ | ⟨-, e⟩ | ⟨-, e⟩ | ⟨-, e⟩ | ⟨-, e⟩ | e <;> rw [e]
    · exact writeWord_wf hw (target_buffer ht ha) v
    all_goals exact hw
  · exact hw
  · exact hw

end Sys2Proof.Machine
end

