-- ==== Sys2Proof/Laws/Tree.lean ====
section
/-! SUPPORT. Trees: their counts, their bitstream as a word of the grammar, their codes as root-to-leaf paths. -/

namespace Sys2Proof.Machine

/-! ## Counts -/

theorem leafCount_pos (t : Tree) : 0 < t.leafCount := by
  induction t with
  | leaf => simp [Tree.leafCount]
  | node _ l r ihl ihr => simp only [Tree.leafCount]; omega

/-- A tree of n leaves has 2n − 1 nodes (10_state.md R58). -/
theorem indices_length (t : Tree) : t.indices.length + 1 = 2 * t.leafCount := by
  induction t with
  | leaf => rfl
  | node _ l r ihl ihr => simp only [Tree.indices, Tree.leafCount, List.length_cons, List.length_append]; omega

theorem values_length (t : Tree) : t.shape.values.length = t.leafCount := by
  induction t with
  | leaf => rfl
  | node _ l r ihl ihr => simp only [Tree.shape, Shape.values, Tree.leafCount, List.length_append]; omega

/-! ## The bitstream -/

/-- What ENCODE_TREE writes is the word of the grammar (42_tree_serdes.md R190, R191). -/
theorem serialize_eq_word (t : Tree) : t.serialize = t.shape.word := by
  induction t with
  | leaf i v => rfl
  | node i l r ihl ihr => simp [Tree.serialize, Tree.shape, Shape.word, ihl, ihr]

/-- A word of n leaves has 10n − 1 bits (42_tree_serdes.md R192). -/
theorem word_length (σ : Shape) : σ.word.length + 1 = 10 * σ.values.length := by
  induction σ with
  | leaf => rfl
  | node l r ihl ihr => simp only [Shape.word, Shape.values, List.length_cons, List.length_append]; omega

/-- A word of n leaves has 2n − 1 shape bits, one for each node. -/
theorem starts_length (σ : Shape) (p : Nat) : (σ.starts p).length + 1 = 2 * σ.values.length := by
  induction σ generalizing p with
  | leaf => rfl
  | node l r ihl ihr =>
    have h1 := ihl (p + 1)
    have h2 := ihr (p + 1 + l.word.length)
    simp only [Shape.starts, Shape.values, List.length_cons, List.length_append]
    omega

/-- Every shape bit's position lies inside its word. -/
theorem starts_bounds (σ : Shape) (p : Nat) : ∀ q ∈ σ.starts p, p ≤ q ∧ q < p + σ.word.length := by
  induction σ generalizing p with
  | leaf v => simp [Shape.starts, Shape.word]
  | node l r ihl ihr =>
    intro q hq
    simp only [Shape.starts, List.mem_cons, List.mem_append] at hq
    simp only [Shape.word, List.length_cons, List.length_append]
    rcases hq with rfl | hq | hq
    · omega
    · have := ihl _ q hq; omega
    · have := ihr _ q hq; omega

/-- Reading a word of the grammar back is unambiguous: two words with anything after them agree only if the shapes
do. -/
theorem word_append_inj (σ τ : Shape) (x y : List Bool) (h : σ.word ++ x = τ.word ++ y) : σ = τ ∧ x = y := by
  induction σ generalizing τ x y with
  | leaf v =>
    cases τ with
    | leaf w =>
      simp only [Shape.word, List.cons_append, List.nil_append, List.cons.injEq, true_and] at h
      obtain ⟨h7, h6, h5, h4, h3, h2, h1, h0, rfl⟩ := h
      refine ⟨?_, rfl⟩
      congr 1
      apply BitVec.eq_of_getLsbD_eq
      intro j hj
      interval_cases j <;> assumption
    | node l r => simp [Shape.word] at h
  | node l r ihl ihr =>
    cases τ with
    | leaf w => simp [Shape.word] at h
    | node l' r' =>
      simp only [Shape.word, List.cons_append, List.append_assoc, List.cons.injEq, true_and] at h
      obtain ⟨rfl, h2⟩ := ihl _ _ _ h
      obtain ⟨rfl, h3⟩ := ihr _ _ _ h2
      exact ⟨rfl, h3⟩

/-! ## The codes -/

/-- The leaves the walk reaches, by value and path, are those of the shape (43_message_codec.md R210). -/
theorem codedLeaves_paths (t : Tree) (path : List Bool) :
    (t.codedLeaves path).map (fun x => (x.path, x.value)) = t.shape.paths.map fun p => (path ++ p.1, p.2) := by
  induction t generalizing path with
  | leaf => simp [Tree.codedLeaves, Tree.shape, Shape.paths]
  | node _ l r ihl ihr => simp [Tree.codedLeaves, Tree.shape, Shape.paths, ihl, ihr, Function.comp_def]

theorem codedLeaves_length (t : Tree) (path : List Bool) : (t.codedLeaves path).length = t.leafCount := by
  induction t generalizing path with
  | leaf => rfl
  | node _ l r ihl ihr => simp [Tree.codedLeaves, Tree.leafCount, ihl, ihr]

theorem codedLeaves_prefix (t : Tree) (path : List Bool) : ∀ x ∈ t.codedLeaves path, path <+: x.path := by
  induction t generalizing path with
  | leaf => simp [Tree.codedLeaves]
  | node _ l r ihl ihr =>
    intro x hx
    rcases List.mem_append.mp hx with hx | hx
    · exact (List.prefix_append _ _).trans (ihl _ x hx)
    · exact (List.prefix_append _ _).trans (ihr _ x hx)

/-- A code's bit j is its step j (10_state.md R59). -/
theorem codeBits_getLsbD (p : List Bool) (hp : p.length ≤ 255) (j : Nat) :
    (codeBits p).getLsbD j = p[j]?.getD false := by
  induction p generalizing j with
  | nil => simp [codeBits]
  | cons b bs ih =>
    have hlen : bs.length ≤ 255 := by simp at hp; omega
    simp only [codeBits, BitVec.getLsbD_or, BitVec.getLsbD_shiftLeft, BitVec.getLsbD_setWidth,
      BitVec.getLsbD_ofBool]
    cases j with
    | zero => cases b <;> simp
    | succ j =>
      by_cases hj : j + 1 < 255
      · simp [hj, ih hlen]
      · have : bs[j]? = none := List.getElem?_eq_none (by simp at hp; omega)
        simp [hj, this]

/-! ## Reading the arena -/

/-- What a tree read from the arena says of the entry at its root. -/
theorem readTree_some {nodes : Vector Node Config.nodeSlots} {fuel : Nat} {i : NodeIndex} {t : Tree}
    (h : readTree nodes fuel i = some t) :
    ∃ f, fuel = f + 1 ∧ i ≠ Config.noNode ∧ t.idx = i.toNat ∧
      (((tableGet nodes i.toNat).kind = .leaf ∧ t = .leaf i.toNat (tableGet nodes i.toNat).value) ∨
        ∃ l r, (tableGet nodes i.toNat).kind = .internal ∧ t = .node i.toNat l r ∧
          readTree nodes f (tableGet nodes i.toNat).left = some l ∧
          readTree nodes f (tableGet nodes i.toNat).right = some r) := by
  cases fuel with
  | zero => cases h
  | succ f =>
    simp only [readTree] at h
    split at h
    · cases h
    · rename_i hi
      split at h
      · cases h; exact ⟨f, rfl, hi, rfl, .inl ⟨‹_›, rfl⟩⟩
      · split at h <;> cases h
        exact ⟨f, rfl, hi, rfl, .inr ⟨_, _, ‹_›, rfl, ‹_›, ‹_›⟩⟩

/-- More fuel reads the same tree. -/
theorem readTree_fuel {nodes : Vector Node Config.nodeSlots} {fuel fuel' : Nat} {i : NodeIndex} {t : Tree}
    (h : readTree nodes fuel i = some t) (hf : fuel ≤ fuel') : readTree nodes fuel' i = some t := by
  induction fuel generalizing fuel' i t with
  | zero => cases h
  | succ f ih =>
    cases fuel' with
    | zero => omega
    | succ f' =>
      obtain ⟨f0, hf0, hi, -, ⟨hk, rfl⟩ | ⟨l, r, hk, rfl, hl, hr⟩⟩ := readTree_some h
      · simp only [readTree, if_neg hi, hk]
      · obtain rfl : f = f0 := by omega
        simp only [readTree, if_neg hi, hk, ih hl (by omega : f ≤ f'), ih hr (by omega : f ≤ f')]

/-- A tree the block reads below ROOT has at most 256 leaves (00_scope.md R14; log 9). -/
theorem arena_tree_some {a : Arena} {t : Tree} (h : a.tree = some t) :
    readTree a.nodes 256 a.root = some t ∧ t.leafCount ≤ 256 := by
  unfold Arena.tree at h
  rw [Option.filter_eq_some_iff] at h
  exact ⟨h.1, by simpa using h.2⟩

end Sys2Proof.Machine
end

