-- ==== Sys2Proof/Tests/Slice0.lean ====
section
/-! SUPPORT. Tests: small runs against the vectors of 95_test_vectors.md (named at each), words written out from
30_encoding.md, the ill-formed term the well-formedness check refuses, and a state meeting the hypotheses of each
obligation that has some. -/

namespace Sys2Proof.Tests

-- One theorem at a time: many kernel evaluations waiting for each other each hold a thread.
set_option Elab.async false

open Sys2Proof.Machine

/-! ## Helpers -/

/-- The state a command leaves. -/
def after (i : Instr) (s : State) : State :=
  match exec i s with
  | .next t => t
  | _ => s

/-- The state a step leaves. -/
def stepped (s : State) : State :=
  match step s with
  | .next t => t
  | _ => s

/-- Whether the decoder rejects a word. -/
def rejects (w : Word) : Bool :=
  match decode w with
  | .ok _ => false
  | .error _ => true

/-- The items held, as numbers. -/
def items (s : State) : List (Nat × Nat) := s.heap.live.map fun x => (x.key.toNat, x.tag.toNat)

/-- A table with a list of entries at its start. -/
def fill {α : Type} {n : Nat} (t : Vector α n) : Nat → List α → Vector α n
  | _, [] => t
  | k, x :: xs => fill (tableSet t k x) (k + 1) xs

/-- The reset state holding a heap. -/
def withHeap (cap : BitVec 9) (pol : Polarity) (xs : List HeapItem) : State :=
  { State.reset with heap := ⟨fill Heap.reset.items 0 xs, BitVec.ofNat 9 xs.length, cap, pol⟩ }

/-- The reset state holding a tree. -/
def withTree (xs : List Node) (root : NodeIndex) (unique : BitVec 9) : State :=
  { State.reset with
    arena := ⟨fill Arena.reset.nodes 0 xs, root, BitVec.ofNat 10 xs.length, unique⟩
    status := { Status.reset with treeValid := true } }

/-- A host program waiting to run. -/
def withQueue (q : List HostEvent) (s : State) : State := { s with hostQueue := q }

/-- BUSY with one host event still to come before completion. -/
def busyState (w : Word) : State := State.reset.issueAfter w 1

def leafNode (v : Byte) (parent : NodeIndex) (w : Word) : Node := ⟨.leaf, v, 0x1FF#9, 0x1FF#9, parent, w⟩

/-- The heap after the six pushes of V-H1. -/
def pushed : State :=
  withHeap 6#9 .min [⟨1#32, 3#16⟩, ⟨3#32, 1#16⟩, ⟨2#32, 5#16⟩, ⟨5#32, 0#16⟩, ⟨9#32, 4#16⟩, ⟨8#32, 2#16⟩]

/-- MSG = "aab" (V-T1). -/
def aabMessage : State := { State.reset with msgLen := 3#32, mem := Memory.reset.writeWord 0x10000 0x00626161#32 }

/-- The tree of "aab" (V-T1), held. -/
def aab : State :=
  withTree [leafNode 0x61#8 2#9 2#32, leafNode 0x62#8 2#9 1#32, ⟨.internal, 0#8, 1#9, 0#9, 0x1FF#9, 3#32⟩] 2#9 2#9

def aabTree : Machine.Tree := .node 2 (.leaf 1 0x62#8) (.leaf 0 0x61#8)

/-- The "aab" tree with its index (V-C1) and its message. -/
def aabIndexed : State :=
  { aab with
    code := tableSet (tableSet emptyIndex 0x61 ⟨true, 1#8, 1#255⟩) 0x62 ⟨true, 1#8, 0#255⟩
    status := { Status.reset with treeValid := true, indexValid := true }
    msgLen := 3#32
    mem := Memory.reset.writeWord 0x10000 0x00626161#32 }

/-- The single-leaf tree of 'a' (V-T2), held. -/
def single : State := withTree [leafNode 0x61#8 0x1FF#9 1#32] 0#9 1#9

/-- The repeated-leaf tree of V-C13, held. -/
def repeated : State :=
  withTree [⟨.internal, 0#8, 1#9, 2#9, 0x1FF#9, 0#32⟩, leafNode 0x61#8 0#9 0#32, leafNode 0x61#8 0#9 0#32] 0#9 2#9

/-- The first word of a bitstream buffer and its length. -/
def withTbs (w : Word) (len : Word) (s : State) : State := { s with tbsLen := len, mem := s.mem.writeWord 0x30000 w }
def withMbs (w : Word) (len : Word) (s : State) : State := { s with mbsLen := len, mem := s.mem.writeWord 0x40000 w }

/-! ## Well-formedness -/

theorem test_cap_257_is_ill_formed : (Instr.heapNew 257#9 .min).wellFormed = false := by decide
theorem test_cap_256_is_well_formed : (Instr.heapNew 256#9 .max).wellFormed = true := by decide

/-! ## Decoding: words written out from the bit patterns of 30_encoding.md R112 to R117 -/

theorem test_decode_heapNew : decode 0b00000001000000010000000000000001#32 = .ok (.heapNew 256#9 .max) := by rfl
theorem test_decode_heapInsert : decode 0b00000000000000000000010100000010#32 = .ok (.heapInsert 5#16) := by rfl
theorem test_decode_heapPeek : decode 0b00000000000000011111111100000100#32 = .ok (.heapPeek 511#9) := by rfl
theorem test_decode_formatN :
    decode 0b00000000000000000000000000000011#32 = .ok .heapExtract ∧
    decode 0b00000000000000000000000000000101#32 = .ok .heapSize ∧
    decode 0b00000000000000000000000000010000#32 = .ok .buildTree ∧
    decode 0b00000000000000000000000000010001#32 = .ok .buildIndex ∧
    decode 0b00000000000000000000000000010010#32 = .ok .encode ∧
    decode 0b00000000000000000000000000010011#32 = .ok .encodeTree ∧
    decode 0b00000000000000000000000000010100#32 = .ok .deserializeTree ∧
    decode 0b00000000000000000000000000010101#32 = .ok .decode ∧
    decode 0b00000000000000000000000000010110#32 = .ok .teardown := by
  refine ⟨rfl, rfl, rfl, rfl, rfl, rfl, rfl, rfl, rfl⟩
/-- V-E1, its illegal words. -/
theorem test_illegal_words : [0x00000000#32, 0x00000006#32, 0x00000017#32, 0x000000FF#32, 0x00010101#32, 0x00020001#32,
    0x02000001#32, 0x01000002#32, 0x00020004#32, 0x00000103#32, 0x80000010#32].all rejects = true := by decide
/-- The opcode map's rows do not overlap (R117). -/
theorem test_opcodes_distinct : opcodeTable.Pairwise fun a b => a.opc ≠ b.opc := by decide

/-! ## The heap -/

/-- V-H10. -/
theorem test_heapNew : (after (.heapNew 2#9 .max) pushed).readOffset 0x040 = 0x00010002#32 ∧
    (after (.heapNew 2#9 .max) pushed).readOffset 0x70000 = 0#32 := by decide +kernel
/-- V-H1, the last push. -/
theorem test_heapInsert : items (after (.heapInsert 5#16)
    { withHeap 6#9 .min [⟨1#32, 3#16⟩, ⟨3#32, 1#16⟩, ⟨8#32, 2#16⟩, ⟨5#32, 0#16⟩, ⟨9#32, 4#16⟩] with arg0 := 2#32 }) =
    [(1, 3), (3, 1), (2, 5), (5, 0), (9, 4), (8, 2)] := by decide +kernel
/-- V-H2. -/
theorem test_heapInsert_full : let t := after (.heapInsert 6#16) { pushed with arg0 := 99#32 }
    t.readOffset 0x008 = 0x06#32 ∧ t.readOffset 0x00C = 0x01#32 ∧ t.errInfo = 6#32 ∧ items t = items pushed := by
  decide +kernel
/-- V-H3, the first extract. -/
theorem test_heapExtract : let t := after .heapExtract pushed
    t.readOffset 0x018 = 1#32 ∧ t.readOffset 0x01C = 0x80000003#32 ∧
      items t = [(2, 5), (3, 1), (8, 2), (5, 0), (9, 4)] := by decide +kernel
/-- V-H6: of two equal children the left one is taken. -/
theorem test_heapExtract_equal_children :
    items (after .heapExtract (withHeap 4#9 .min [⟨1#32, 0#16⟩, ⟨4#32, 1#16⟩, ⟨4#32, 2#16⟩, ⟨9#32, 3#16⟩])) =
      [(4, 1), (9, 3), (4, 2)] := by decide +kernel
/-- V-H8. -/
theorem test_heapPeek : let t := after (.heapPeek 2#9) pushed
    t.readOffset 0x018 = 2#32 ∧ t.readOffset 0x01C = 0x80000005#32 := by decide +kernel
theorem test_heapPeek_beyond : let t := after (.heapPeek 511#9) { pushed with result0 := 7#32 }
    t.readOffset 0x018 = 0#32 ∧ t.readOffset 0x01C = 0#32 ∧ t.readOffset 0x008 = 0x02#32 := by decide +kernel
/-- V-H9. -/
theorem test_heapSize : (after .heapSize pushed).readOffset 0x018 = 6#32 := by decide +kernel

/-! ## The tree -/

/-- V-T1: the NODE window, the tree registers and the heap. -/
theorem test_buildTree_aab : let t := after .buildTree aabMessage
    [0x50000, 0x50004, 0x50008, 0x5000C, 0x50010, 0x50014, 0x50018, 0x5001C, 0x50020, 0x50024, 0x50028, 0x5002C,
      0x50030, 0x030, 0x034, 0x038, 0x03C, 0x040, 0x008, 0x80184, 0x80188].map t.readOffset =
    [0x00006100#32, 0x01FF01FF#32, 2#32, 2#32, 0x00006200#32, 0x01FF01FF#32, 2#32, 1#32, 1#32, 1#32, 0x1FF#32, 3#32,
      0#32, 2#32, 3#32, 2#32, 0#32, 3#32, 0x12#32, 2#32, 1#32] := by decide +kernel
/-- V-T4: the ties of "abcd". -/
theorem test_buildTree_abcd :
    let t := after .buildTree
      { State.reset with msgLen := 4#32, mem := Memory.reset.writeWord 0x10000 0x64636261#32 }
    t.arena.unique = 4#9 ∧ t.arena.count = 7#10 ∧
    ([4, 5, 6].map fun n => ((tableGet t.arena.nodes n).left.toNat, (tableGet t.arena.nodes n).right.toNat)) =
      [(0, 3), (2, 1), (4, 5)] := by decide +kernel
/-- V-S1. -/
theorem test_encodeTree : let t := after .encodeTree (withTbs 0#32 0#32 aab)
    t.tbsLen = 19#32 ∧ t.readOffset 0x30000 = 0x00043119#32 := by decide +kernel
/-- V-S2. -/
theorem test_deserializeTree : let t := after .deserializeTree (withTbs 0x00043119#32 19#32 State.reset)
    t.arena.tree = some (.node 0 (.leaf 1 0x62#8) (.leaf 2 0x61#8)) ∧ t.readOffset 0x008 = 0x12#32 ∧
      t.arena.count = 3#10 ∧ t.arena.unique = 2#9 ∧ t.arena.root = 0#9 := by decide +kernel
/-- V-S4: a third child, an old tree held before. -/
theorem test_deserializeTree_third_child : let t := after .deserializeTree (withTbs 0x08623219#32 28#32 aab)
    t.readOffset 0x00C = 0x03#32 ∧ t.errInfo = 19#32 ∧ t.readOffset 0x008 = 0x06#32 ∧
      t.readOffset 0x030 = 0x1FF#32 := by decide +kernel

/-! ## The codes -/

/-- V-C1. -/
theorem test_buildIndex : let t := after .buildIndex aab
    [0x61840, 0x61844, 0x61880, 0x61884, 0x618C0, 0x008].map t.readOffset =
      [0x80000001#32, 1#32, 0x80000001#32, 0#32, 0#32, 0x32#32] := by decide +kernel
/-- V-C13. -/
theorem test_buildIndex_repeated : let t := after .buildIndex repeated
    t.readOffset 0x00C = 0x03#32 ∧ t.errInfo = 2#32 ∧ t.readOffset 0x008 = 0x16#32 := by decide +kernel
/-- V-C3. -/
theorem test_encode : let t := after .encode (withMbs 0#32 0#32 aabIndexed)
    t.mbsLen = 3#32 ∧ t.readOffset 0x40000 = 3#32 := by decide +kernel
/-- V-C14: "abc" under the index of "aab". -/
theorem test_encode_noCode :
    let t := after .encode { aabIndexed with mem := Memory.reset.writeWord 0x10000 0x00636261#32 }
    t.readOffset 0x00C = 0x13#32 ∧ t.errInfo = 2#32 ∧ t.mbsLen = 0#32 := by decide +kernel
/-- V-C9. -/
theorem test_decode : let t := after .decode (withMbs 3#32 3#32 { aab with mem := Memory.reset.writeWord 0x20000 0#32 })
    t.outLen = 3#32 ∧ t.readOffset 0x20000 = 0x00626161#32 := by decide +kernel
/-- V-C10: a 1 bit under a single leaf. -/
theorem test_decode_single_leaf : let t := after .decode (withMbs 2#32 3#32 single)
    t.readOffset 0x00C = 0x04#32 ∧ t.errInfo = 1#32 ∧ t.outLen = 0#32 ∧ t.mem.readByte 0 0x20000 = 0x61#8 := by
  decide +kernel
/-- V-L1. -/
theorem test_teardown : let t := after .teardown aabIndexed
    [0x008, 0x030, 0x034, 0x038, 0x50000, 0x61840].map t.readOffset =
      [0x02#32, 0x1FF#32, 0#32, 0#32, 0#32, 0#32] := by decide +kernel

/-! ## Steps, reset and hazards -/

/-- V-R2: a step completes `heap.size` after an error, and issue has cleared the error registers. -/
theorem test_issue_clears_errors :
    let s := { pushed with errCode := .capacityExceeded, errInfo := 6#32, status := ⟨false, true, true, false, false, false⟩ }
    let t := stepped (s.withFetchWord 32 0x00000005)
    t.readOffset 0x008 = 0x02#32 ∧ t.readOffset 0x00C = 0#32 ∧ t.errInfo = 0#32 ∧ t.result0 = 6#32 := by decide +kernel
/-- V-R3, its second run: a CMD write while BUSY = 1 is dropped and sets OVR. -/
theorem test_overrun : let t := stepped (withQueue [.write (.offset 0x004) 4 0x11#32] (busyState 0x10#32))
    t.pending = some 0x10#32 ∧ t.readOffset 0x008 = 0x09#32 := by decide +kernel
/-- V-R4. -/
theorem test_refused_accesses :
    step (withQueue [.write (.offset 0x020) 4 3#32] (busyState 0x10#32)) = .refused .hazardWrite ∧
    step (withQueue [.read (.offset 0x020) 1] State.reset) = .refused .subWordOrMisaligned ∧
    step (withQueue [.read (.offset 0x022) 4] State.reset) = .refused .subWordOrMisaligned := ⟨rfl, rfl, rfl⟩
/-- V-R1. -/
theorem test_reset_registers :
    [0x000, 0x004, 0x008, 0x00C, 0x010, 0x014, 0x018, 0x01C, 0x020, 0x024, 0x028, 0x02C, 0x030, 0x034, 0x038, 0x03C,
      0x040, 0x044, 0xFFFC, 0x50000, 0x60000, 0x70000, 0x80000].map State.reset.readOffset =
    [0x48554637#32, 0#32, 0#32, 0#32, 0#32, 0#32, 0#32, 0#32, 0#32, 0#32, 0#32, 0#32, 0x1FF#32, 0#32, 0#32, 0#32,
      0#32, 0#32, 0#32, 0#32, 0#32, 0#32, 0#32] := by decide +kernel
/-- V-E2 and the packing of R125. -/
theorem test_assembler :
    (AsmLine.heapNew 4 .max).assemble = some [.write (.offset 4) 4 0x01000401#32] ∧
    (AsmLine.heapNew 257 .min).assemble = none ∧
    (AsmLine.stBytes 0x10000 [0x61#8, 0x61#8, 0x62#8]).assemble = some [.write (.offset 0x10000) 4 0x00626161#32] := by
  decide

/-! ## Commands that complete in every state -/

theorem exec_completes {i : Instr} (s : State) (h : i ≠ .encodeTree ∧ i ≠ .buildIndex ∧ i ≠ .decode) :
    exec i s = .next (after i s) := by
  unfold after
  split
  · assumption
  · rename_i hn
    have := (exec_stops (fun t ht => hn t ht)).1
    obtain ⟨h1, h2, h3⟩ := h
    simp [h1, h2, h3] at this

/-! ## Witnesses: states and operands that meet the hypotheses of each obligation -/

theorem test_witness_DecodingAnEncodedCommandGivesItBack : (Instr.heapNew 256#9 .max).wellFormed = true := by decide

theorem test_witness_EncodingADecodedWordGivesItBack : decode 0x01010001#32 = .ok (.heapNew 256#9 .max) := by rfl

/-- An illegal word, a legal one, and CAP on both sides of its bound. -/
theorem test_witness_IllegalWordsCompleteWithIllegalCommand :
    ∀ w ∈ [0x00000000#32, 0x00000010#32, 0x00010001#32, 0x00010101#32], (State.reset.issueAfter w 0).completing w := by
  intro w _
  exact ⟨rfl, rfl⟩

theorem test_witness_StepRunsTheDecodedCommand :
    (State.reset.issueAfter 0x05#32 0).completing 0x05#32 ∧ decode 0x05#32 = .ok .heapSize := ⟨⟨rfl, rfl⟩, rfl⟩

theorem test_witness_IdleBlockMovesOnlyByHostEvents :
    State.reset.status.busy = false ∧ State.reset.hostQueue = [] := ⟨rfl, rfl⟩

/-- With a delay left and with none left, a command and an illegal word in flight. -/
theorem test_witness_WaitPollsUntilTheCommandCompletes : (∀ d ∈ [0, 3], ∀ w ∈ [0x10#32, 0#32],
    (withQueue [.wait] (State.reset.issueAfter w d)).status.busy = true ∧
      (withQueue [.wait] (State.reset.issueAfter w d)).hostQueue = .wait :: [] ∧
      (withQueue [.wait] (State.reset.issueAfter w d)).pending = some w) ∧
    decode 0x10#32 = .ok .buildTree ∧ ∀ i, decode 0#32 ≠ .ok i :=
  ⟨fun _ _ _ _ => ⟨rfl, rfl, rfl⟩, rfl, fun i h => (by cases h)⟩

theorem test_witness_CmdWriteIssuesOrOverruns : ∀ s ∈ [State.reset, busyState 0x10#32],
    (withQueue [.write (.offset 0x004) 4 0x11#32] s).nextAgent = .host ∧
      (withQueue [.write (.offset 0x004) 4 0x11#32] s).hostQueue = .write (.offset 0x004) 4 0x11#32 :: [] := by
  intro s hs
  rcases List.mem_cons.mp hs with rfl | hs
  · exact ⟨rfl, rfl⟩
  · obtain rfl := List.mem_singleton.mp hs; exact ⟨rfl, rfl⟩

/-- A success and a failure. -/
theorem test_witness_EveryCompletionReportsItsOutcome :
    (∃ t, exec .heapSize State.reset = .next t) ∧ ∃ t, exec .buildTree State.reset = .next t ∧ t.status.err = true :=
  ⟨⟨_, rfl⟩, _, rfl, rfl⟩

theorem test_witness_StatusBitsAndOvrClear : State.reset.status.busy = false ∧
    (busyState 0x10#32).status.busy = true ∧ (8#32).getLsbD 3 = true := ⟨rfl, rfl, rfl⟩

/-- Both ends of each range. -/
theorem test_witness_WindowsAndReservedOffsetsIgnoreWrites :
    (∀ off ∈ [0x044, 0xFFFC, 0x30140, 0x3FFFC, 0x51FF0, 0x5FFFC, 0x64000, 0x6FFFC, 0x70800, 0x7FFFC, 0x80400, 0xFFFFC],
      off % 4 = 0 ∧
      ((0x044 ≤ off ∧ off < 0x10000) ∨ (0x30140 ≤ off ∧ off < 0x40000) ∨ (0x51FF0 ≤ off ∧ off < 0x60000) ∨
        (0x64000 ≤ off ∧ off < 0x70000) ∨ (0x70800 ≤ off ∧ off < 0x80000) ∨ (0x80400 ≤ off ∧ off < 0x100000))) ∧
    (∀ off ∈ [0x50000, 0xFFFFC], off % 4 = 0 ∧ 0x50000 ≤ off ∧ off < 0x100000) ∧ State.reset.status.busy = false := by
  decide

/-- The first and the last word of the aperture, by offset and by bus address, read and written. -/
theorem test_witness_RegistersReadAndTakeWrites :
    State.reset.status.busy = false ∧ (∀ e, (withQueue [e] State.reset).hostQueue = e :: []) ∧
    (∀ off ∈ [0x000, 0xFFFFC], (Loc.offset off).resolve = some off ∧ off % 4 = 0) ∧
    (Loc.bus (Config.base + 0xFFFFC)).resolve = some 0xFFFFC := by
  refine ⟨rfl, fun _ => rfl, by decide, ?_⟩
  simp [Loc.resolve, Config.apertureSize]

/-- Every window's last entry in use, and every window's first and last entry not in use. -/
theorem test_witness_WindowsShowOnlyEntriesInUse :
    (510 < ({ State.reset with arena := { Arena.reset with count := 511#10 } } : State).arena.count.toNat) ∧
    (let s := { aabIndexed with code := tableSet aabIndexed.code 255 ⟨true, 255#8, 0#255⟩ };
      s.status.indexValid = true ∧ (tableGet s.code 255).valid = true) ∧
    (255 < (withHeap 256#9 .max (List.replicate 256 ⟨0#32, 0#16⟩)).heap.size.toNat) ∧
    (State.reset.arena.count.toNat ≤ 0 ∧ State.reset.arena.count.toNat ≤ 510) ∧ State.reset.status.indexValid = false ∧
    (tableGet State.reset.code 255).valid = false ∧ State.reset.heap.size.toNat ≤ 0 ∧
    State.reset.heap.size.toNat ≤ 255 := by decide +kernel

theorem test_witness_BufferWordsReadBack : State.reset.mem.wf ∧ State.reset.status.busy = false ∧
    (∀ off ∈ [0x10000, 0x3013C, 0x40000, 0x4FFFC],
      off % 4 = 0 ∧ ((0x10000 ≤ off ∧ off < 0x30140) ∨ (0x40000 ≤ off ∧ off < 0x50000))) ∧
    (withQueue [.write (.offset 0x4FFFC) 4 7#32, .read (.offset 0x4FFFC) 4] State.reset).hostQueue =
      .write (.offset 0x4FFFC) 4 7#32 :: .read (.offset 0x4FFFC) 4 :: [] := by decide

theorem test_witness_BuffersPackBytesLittleEndian :
    65535 < ({ State.reset with msgLen := 65536#32 } : State).msgLen.toNat := by decide

theorem test_witness_StreamBitsSitInTheirWords :
    524287 < ({ State.reset with mbsLen := 524288#32 } : State).mbsLen.toNat ∧ Memory.reset.wf := by decide

/-- The three reads and the three writes, the last offset among them. -/
theorem test_witness_BusyHazardsAreUnspecifiedOrRefused : ∀ e ∈ [HostEvent.read (.offset 0x000) 4,
    .read (.offset 0x008) 4, .read (.offset 0xFFFFC) 4, .write (.offset 0x008) 4 8#32, .write (.offset 0x008) 4 0#32,
    .write (.offset 0xFFFFC) 4 8#32],
    (withQueue [e] (busyState 0x10#32)).status.busy = true ∧ (withQueue [e] (busyState 0x10#32)).nextAgent = .host ∧
      (withQueue [e] (busyState 0x10#32)).hostQueue = e :: [] := by
  intro e _
  exact ⟨rfl, rfl, rfl⟩

/-- A bus access, a misaligned and a narrow one, and one beyond each end of the aperture. -/
theorem test_witness_OnlyAlignedWordsOfTheApertureAreAccessed :
    (∀ e, (withQueue [e] State.reset).nextAgent = .host ∧ (withQueue [e] State.reset).hostQueue = e :: []) ∧
    (0xFFFFF < 0x100000) ∧ (Loc.offset 0xFFFFD).resolve = some 0xFFFFD ∧ 0xFFFFD % 4 ≠ 0 ∧
    (Loc.offset 0xFFFFC).resolve = some 0xFFFFC ∧ 2 ≠ 4 ∧ Config.base + 0x100000 ≤ Config.base + 0x100000 := by
  refine ⟨fun e => ⟨rfl, rfl⟩, by decide, rfl, by decide, rfl, by decide, le_refl _⟩

/-- Reset with a command in flight and without. -/
theorem test_witness_ResetGivesEveryRegisterItsValue :
    (withQueue [.reset] State.reset).nextAgent = .host ∧ (withQueue [.reset] (busyState 0x10#32)).nextAgent = .host ∧
      (withQueue [.reset] (busyState 0x10#32)).hostQueue = .reset :: [] := ⟨rfl, rfl, rfl⟩

theorem test_witness_HeapNewMakesAnEmptyHeap : (256#9).toNat ≤ 256 ∧ (0#9).toNat ≤ 256 := by decide

/-- The last slot of the largest heap; and an ordered heap. -/
theorem test_witness_HeapInsertAddsTheItem :
    (let s := withHeap 256#9 .max (List.replicate 255 ⟨0#32, 0#16⟩);
      s.heap.bounded ∧ s.heap.size ≠ s.heap.cap) ∧ (withHeap 6#9 .min [⟨1#32, 3#16⟩]).heap.ordered := by
  refine ⟨⟨⟨by decide +kernel, by decide +kernel⟩, by decide +kernel⟩, fun i h0 h1 => ?_⟩
  have : (withHeap 6#9 .min [⟨1#32, 3#16⟩]).heap.size.toNat = 1 := rfl
  omega

theorem test_witness_FullHeapRejectsAnInsert :
    State.reset.heap.size = State.reset.heap.cap ∧ pushed.heap.size = pushed.heap.cap ∧
    ∃ t, exec .buildTree { State.reset with msgLen := 1#32, errCode := .capacityExceeded } = .next t ∧
      t.errCode = .capacityExceeded := ⟨rfl, rfl, _, rfl, rfl⟩

theorem test_witness_HeapExtractRemovesTheFirstItem :
    pushed.heap.bounded ∧ pushed.heap.size ≠ 0#9 ∧ pushed.heap.ordered := by
  refine ⟨⟨by decide +kernel, by decide +kernel⟩, by decide, fun i h0 h1 => ?_⟩
  have hs : pushed.heap.size.toNat = 6 := rfl
  rw [hs] at h1
  interval_cases i <;> decide +kernel

theorem test_witness_HeapQueriesWriteOnlyTheResults :
    State.reset.heap.size = 0#9 ∧
    (255#9).toNat < (withHeap 256#9 .max (List.replicate 256 ⟨0#32, 0#16⟩)).heap.size.toNat ∧
    pushed.heap.size.toNat ≤ (6#9).toNat ∧ pushed.heap.size.toNat ≤ (511#9).toNat := by decide +kernel

/-- V-H5's third push, and the root of V-H6 after its extract. -/
theorem test_witness_EqualKeysKeepTheirPlaces :
    (let s := { withHeap 4#9 .min [⟨7#32, 0#16⟩, ⟨7#32, 1#16⟩] with arg0 := 7#32 };
      s.heap.bounded ∧ s.heap.size ≠ s.heap.cap ∧ s.heap.size ≠ 0#9 ∧
        s.arg0 = (tableGet s.heap.items ((s.heap.size.toNat - 1) / 2)).key) ∧
    (let h := (withHeap 4#9 .min [⟨9#32, 3#16⟩, ⟨4#32, 1#16⟩, ⟨4#32, 2#16⟩]).heap.items;
      2 * 0 + 2 < 3 ∧ 3 ≤ 256 ∧ (tableGet h (2 * 0 + 1)).key = (tableGet h (2 * 0 + 2)).key ∧
        before .min (tableGet h (2 * 0 + 1)) (tableGet h 0) = true) :=
  ⟨⟨⟨by decide +kernel, by decide +kernel⟩, by decide +kernel, by decide +kernel, by decide +kernel⟩, by decide +kernel⟩

theorem test_witness_EmptyMessageIsRefused : State.reset.msgLen = 0#32 := rfl

/-- The shortest and the longest message: the hypotheses of the statements about a successful BUILD_TREE. -/
theorem test_witness_TallyCountsTheMessage :
    (1#32 ≠ 0#32 ∧ (1#32).toNat ≤ 65536) ∧ 65536#32 ≠ 0#32 ∧ (65536#32).toNat ≤ 65536 := by decide

theorem test_witness_BuildTreeLeavesATreeAndAnEmptyHeap :
    (1#32 ≠ 0#32 ∧ (1#32).toNat ≤ 65536) ∧ 65536#32 ≠ 0#32 ∧ (65536#32).toNat ≤ 65536 := by decide

theorem test_witness_BuiltTreeMeetsTheTreeInvariant :
    aabMessage.msgLen ≠ 0#32 ∧ aabMessage.msgLen.toNat ≤ 65536 ∧ ∃ t, exec .buildTree aabMessage = .next t :=
  ⟨by decide, by decide, _, rfl⟩

theorem test_witness_LeavesAreNumberedByAscendingValue :
    aabMessage.msgLen ≠ 0#32 ∧ aabMessage.msgLen.toNat ≤ 65536 ∧ ∃ t, exec .buildTree aabMessage = .next t :=
  ⟨by decide, by decide, _, rfl⟩

/-- "abcd": internal nodes 4, 5 and 6, by `test_buildTree_abcd`. -/
theorem test_witness_LeftChildIsNoHeavierThanTheRight :
    let s := { State.reset with msgLen := 4#32, mem := Memory.reset.writeWord 0x10000 0x64636261#32 }
    s.msgLen ≠ 0#32 ∧ s.msgLen.toNat ≤ 65536 ∧
      ∃ t, exec .buildTree s = .next t ∧ t.arena.unique.toNat ≤ 4 ∧ 5 + 1 < t.arena.count.toNat := by
  intro s
  have h := test_buildTree_abcd
  refine ⟨by decide, by decide, after .buildTree s, rfl, ?_, ?_⟩
  · rw [h.1]; decide
  · rw [h.2.1]; decide

theorem test_witness_TreeDependsOnlyOnTheMessage :
    let s' := { aabMessage with arg0 := 7#32, heap := pushed.heap, arena := repeated.arena }
    aabMessage.msgLen ≠ 0#32 ∧ aabMessage.msgLen.toNat ≤ 65536 ∧ s'.msgLen = aabMessage.msgLen ∧
      s'.message = aabMessage.message ∧ (∃ t, exec .buildTree aabMessage = .next t) ∧
      ∃ t, exec .buildTree s' = .next t := ⟨by decide, by decide, rfl, rfl, ⟨_, rfl⟩, _, rfl⟩

/-! ### Trees -/

theorem aab_tree : aab.arena.tree = some aabTree := by decide +kernel
theorem single_tree : single.arena.tree = some (.leaf 0 0x61#8) := by decide +kernel
theorem repeated_tree : repeated.arena.tree = some (.node 0 (.leaf 1 0x61#8) (.leaf 2 0x61#8)) := by decide +kernel

theorem aab_holds : aab.arena.holds aabTree := by
  refine ⟨aab_tree, by decide +kernel, ?_, by decide +kernel, by decide +kernel⟩
  simp only [Tree.linked, aabTree]
  decide +kernel

theorem test_witness_EncodeTreeWritesTheTreesWord :
    aab.mem.wf ∧ aab.status.treeValid = true ∧ aab.arena.tree = some aabTree := ⟨by decide, rfl, aab_tree⟩

/-- The 9-bit stream of a single leaf. -/
theorem test_witness_DeserializeAcceptsEveryWordOfTheGrammar :
    let s := withTbs 0x0000010C#32 9#32 State.reset
    (Shape.leaf 0x61#8).values.length ≤ 256 ∧ (Shape.leaf 0x61#8).word = (List.range s.tbsLen.toNat).map s.treeBit := by
  decide +kernel

/-- No bits at all, and nine bits, the length of a leaf's word, that begin with an internal node. -/
theorem test_witness_DeserializeRejectsEveryOtherStream :
    ∀ s ∈ [State.reset, withTbs 0x000001FF#32 9#32 State.reset], ∀ σ : Shape, σ.values.length ≤ 256 →
      σ.word ≠ (List.range s.tbsLen.toNat).map s.treeBit := by
  intro s hs σ _ h
  have hw := word_length σ
  have hl := congrArg List.length h
  rw [List.length_map, List.length_range] at hl
  rcases List.mem_cons.mp hs with rfl | hs
  · have : State.reset.tbsLen.toNat = 0 := rfl
    omega
  · obtain rfl := List.mem_singleton.mp hs
    have h9 : (withTbs 0x000001FF#32 9#32 State.reset).tbsLen.toNat = 9 := rfl
    cases σ with
    | leaf v =>
      have h0 := congrArg (fun l => l[0]?) h
      rw [h9] at h0
      have hb : (withTbs 0x000001FF#32 9#32 State.reset).treeBit 0 = true := by decide +kernel
      simp [Shape.word, hb, List.range_succ_eq_map] at h0
    | node l r =>
      have h1 := word_length l
      have h2 := word_length r
      simp only [Shape.word, List.length_cons, List.length_append] at hl
      omega

/-- A mask of `n` whole bytes written from `base`. -/
def byteMask (base n : Nat) : List Host.Cell := (List.range n).map fun k => (base + k, 0xFF#8)

theorem byteMask_get (base n k : Nat) (h : k < n) : cellsGet (byteMask base n) (base + k) = 0xFF#8 := by
  have hp : (byteMask base n).Pairwise fun c d => c.1 < d.1 := by
    unfold byteMask
    rw [List.pairwise_map]
    exact List.pairwise_lt_range.imp fun h => by omega
  have hm : ((base + k, 0xFF#8) : Host.Cell) ∈ byteMask base n := List.mem_map.mpr ⟨k, List.mem_range.mpr h, rfl⟩
  exact cellsGet_of_mem hp hm

/-- A state whose TBS holds `n` one bits, `n` up to 512, and that many as its length. -/
def ones (n : Nat) : State :=
  { State.reset with tbsLen := BitVec.ofNat 32 n, mem := ⟨byteMask 0x30000 64, byteMask 0x30000 64⟩ }

theorem ones_len {n : Nat} (h : n ≤ 512) : (ones n).tbsLen.toNat = n := by
  show (BitVec.ofNat 32 n).toNat = n
  rw [BitVec.toNat_ofNat, Nat.mod_eq_of_lt (by omega)]

theorem ones_bits {n : Nat} (h : n ≤ 512) :
    (List.range (ones n).tbsLen.toNat).map (ones n).treeBit = List.replicate n true := by
  rw [ones_len h]
  refine List.eq_replicate_iff.mpr ⟨by simp, fun b hb => ?_⟩
  obtain ⟨i, hi, rfl⟩ := List.mem_map.mp hb
  have hi := List.mem_range.mp hi
  have hg : cellsGet (byteMask 0x30000 64) (0x30000 + i / 8) = 0xFF#8 := byteMask_get _ _ _ (by omega)
  have h8 : i % 8 < 8 := Nat.mod_lt _ (by omega)
  show (if (cellsGet (byteMask 0x30000 64) (0x30000 + i / 8)).getLsbD (i % 8) then
    (cellsGet (byteMask 0x30000 64) (0x30000 + i / 8)).getLsbD (i % 8) else _) = true
  rw [hg]
  generalize i % 8 = j at h8
  interval_cases j <;> rfl

/-- A tree whose `n` internal nodes go down to the left. -/
def comb : Nat → Shape
  | 0 => .leaf 0#8
  | n + 1 => .node (comb n) (.leaf 0#8)

theorem comb_word (n : Nat) : ∃ rest, rest ≠ [] ∧ (comb n).word = List.replicate n true ++ rest := by
  induction n with
  | zero => exact ⟨_, by decide, rfl⟩
  | succ n ih =>
    obtain ⟨rest, h0, h⟩ := ih
    exact ⟨rest ++ (Shape.leaf 0#8).word, by simp [h0], by simp [comb, Shape.word, h, List.replicate_succ]⟩

theorem comb_starts (n p k : Nat) (h : k ≤ n) : ((comb n).starts p)[k]? = some (p + k) := by
  induction n generalizing p k with
  | zero => obtain rfl : k = 0 := by omega
            rfl
  | succ n ih =>
    cases k with
    | zero => rfl
    | succ k =>
      have hk := ih (p + 1) k (by omega)
      have hlt : k < ((comb n).starts (p + 1)).length := (List.getElem?_eq_some_iff.mp hk).1
      simp only [comb, Shape.starts, List.getElem?_cons_succ]
      rw [List.getElem?_append_left hlt, hk]
      congr 1; omega

/-- The lengths on both sides of case (a), a complete tree with a bit left, a leaf cut short; and 511 and 512 one bits,
which end just before and just after the 512th node's shape bit. -/
theorem test_witness_MalformedStreamsReportTheirPosition :
    State.reset.tbsLen = 0#32 ∧ 2560 < ({ State.reset with tbsLen := 2561#32 } : State).tbsLen.toNat ∧
    (let s := withTbs 0x0000030C#32 10#32 State.reset;
      s.tbsLen.toNat ≤ 2560 ∧ (List.range s.tbsLen.toNat).map s.treeBit = (Shape.leaf 0x61#8).word ++ [true]) ∧
    (let s := withTbs 0#32 1#32 State.reset;
      s.tbsLen ≠ 0#32 ∧ s.tbsLen.toNat ≤ 2560 ∧ (List.range s.tbsLen.toNat).map s.treeBit ++
        (Shape.leaf 0x61#8).word.tail = (Shape.leaf 0x61#8).word ∧ (Shape.leaf 0x61#8).word.tail ≠ [] ∧
        ((Shape.leaf 0x61#8).starts 0)[511]? = none) := by decide +kernel

theorem test_witness_MalformedStreamsReportTheirPosition_long :
    (∀ n, n = 511 ∨ n = 512 → (ones n).tbsLen ≠ 0#32 ∧ (ones n).tbsLen.toNat ≤ 2560 ∧ ∃ rest, rest ≠ [] ∧
      (List.range (ones n).tbsLen.toNat).map (ones n).treeBit ++ rest = (comb 512).word) ∧
    ((comb 512).starts 0)[511]? = some 511 ∧ 511 < (ones 512).tbsLen.toNat ∧ (ones 511).tbsLen.toNat ≤ 511 := by
  obtain ⟨rest, h0, h⟩ := comb_word 512
  refine ⟨fun n hn => ?_, comb_starts 512 0 511 (by omega), by rw [ones_len (le_refl _)]; omega,
    by rw [ones_len (by omega)]⟩
  have hn' : n ≤ 512 := by omega
  refine ⟨fun e => ?_, by rw [ones_len hn']; omega, ?_⟩
  · have := ones_len hn'
    rw [e] at this
    simp at this
    omega
  rw [ones_bits hn']
  rcases hn with rfl | rfl
  · exact ⟨true :: rest, by simp, by rw [h, List.replicate_succ' (n := 511), List.append_assoc]; rfl⟩
  · exact ⟨rest, h0, h.symm⟩

theorem test_witness_TreeBitstreamRoundTrips :
    (aab.mem.wf ∧ aab.status.treeValid = true ∧ aab.arena.holds aabTree) ∧
    (let s := withTbs 0x00043119#32 19#32 State.reset;
      s.mem.wf ∧ ∃ t, exec .deserializeTree s = .next t ∧ t.status.treeValid = true) := by
  exact ⟨⟨by decide, rfl, aab_holds⟩, by decide +kernel, _, exec_completes _ (by simp), by decide +kernel⟩

theorem completes_with_tree {s : State} {T : Machine.Tree} (h : s.arena.tree = some T) :
    (∃ t, exec .encodeTree s = .next t) ∧ ∃ t, exec .decode s = .next t := by
  simp only [exec, execEncodeTree, execDecode, h]
  constructor
  · split <;> exact ⟨_, rfl⟩
  · split
    · exact ⟨_, rfl⟩
    · split
      · exact ⟨_, rfl⟩
      · split <;> exact ⟨_, rfl⟩

theorem test_witness_SerializedLengthFollowsFromTheCounts :
    aab.status.treeValid = true ∧ aab.arena.holds aabTree ∧ ∃ t, exec .encodeTree aab = .next t :=
  ⟨rfl, aab_holds, (completes_with_tree aab_tree).1⟩

/-! ### Codes -/

theorem test_witness_IndexHoldsThePathOfEveryLeaf :
    (aab.status.treeValid = true ∧ aab.arena.tree = some aabTree ∧ aabTree.shape.values.Nodup) ∧
    single.status.treeValid = true ∧ single.arena.tree = some (.leaf 0 0x61#8) :=
  ⟨⟨rfl, aab_tree, by decide⟩, rfl, single_tree⟩

theorem test_witness_RepeatedLeafValueHasNoIndex :
    let T : Machine.Tree := .node 0 (.leaf 1 0x61#8) (.leaf 2 0x61#8)
    let a : CodedLeaf := ⟨1, 0x61#8, [false]⟩
    let x : CodedLeaf := ⟨2, 0x61#8, [true]⟩
    repeated.status.treeValid = true ∧ repeated.arena.tree = some T ∧ T.codes = [a] ++ x :: [] ∧
      ([a].map (·.value)).Nodup ∧ x.value ∈ [a].map (·.value) := ⟨rfl, repeated_tree, rfl, by decide, by decide⟩

theorem test_witness_CodesArePrefixFree :
    aabTree.codes[0]? = some ⟨1, 0x62#8, [false]⟩ ∧ aabTree.codes[1]? = some ⟨0, 0x61#8, [true]⟩ ∧ 0 ≠ 1 := by decide

theorem test_witness_EncodeWritesTheConcatenatedCodes :
    aabIndexed.mem.wf ∧ aabIndexed.status.indexValid = true ∧ aabIndexed.msgLen.toNat ≤ 65536 ∧
    (∀ b ∈ aabIndexed.message, (tableGet aabIndexed.code b.toNat).valid = true) ∧
    (aabIndexed.message.map fun b => (tableGet aabIndexed.code b.toNat).len.toNat).sum ≤ 524288 := by decide +kernel

theorem test_witness_MissingTreeIndexOrCodeIsReported :
    State.reset.status.treeValid = false ∧ State.reset.status.indexValid = false ∧
    (let s := { aabIndexed with mem := Memory.reset.writeWord 0x10000 0x00636261#32 };
      s.status.indexValid = true ∧ s.msgLen.toNat ≤ 65536 ∧ s.message = [0x61#8, 0x62#8, 0x63#8] ∧
        s.message[2]? = some 0x63#8 ∧ (tableGet s.code 0x63).valid = false ∧
        (tableGet s.code 0x61).valid = true ∧ (tableGet s.code 0x62).valid = true) := by decide +kernel

/-- A state whose every byte value has a 255-bit code. -/
def longCodes : State :=
  { State.reset with
    code := Vector.replicate _ ⟨true, 255#8, 0#255⟩
    status := { Status.reset with treeValid := true, indexValid := true }
    msgLen := 65536#32 }

theorem longCodes_entry (b : Byte) : tableGet longCodes.code b.toNat = ⟨true, 255#8, 0#255⟩ :=
  tableGet_replicate _ b.isLt

/-- The single-leaf tree with MBS bits [0, 65537) all 0 (V-C12). -/
def longZeros : State :=
  { single with
    mbsLen := 65537#32
    mem := ⟨[], byteMask 0x40000 8193⟩ }

theorem longZeros_bit {i : Nat} (h : i < 65537) : longZeros.mem.readBit 0 0x40000 i = false := by
  have hw : cellsGet longZeros.mem.written (0x40000 + i / 8) = 0xFF#8 := by
    have hm : longZeros.mem.written = byteMask 0x40000 8193 := by simp only [longZeros]
    rw [hm]
    exact byteMask_get _ _ _ (by omega)
  have h8 : i % 8 < 8 := Nat.mod_lt _ (by omega)
  unfold Memory.readBit
  rw [hw, if_pos]
  · show (cellsGet [] _).getLsbD _ = false
    simp [cellsGet, unlistedByte]
  · generalize i % 8 = j at h8
    interval_cases j <;> rfl

theorem longZeros_len : longZeros.mbsLen.toNat = 65537 := by decide

theorem replicate_codes (n : Nat) : List.replicate (n + 1) false =
    (List.replicate n (⟨0, 0x61#8, [false]⟩ : CodedLeaf)).flatMap (·.path) ++ [false] ++ [] := by
  induction n with
  | zero => rfl
  | succ n ih => rw [List.replicate_succ, ih]; rfl

theorem longZeros_bits : longZeros.messageBits = List.replicate 65537 false := by
  refine List.ext_getElem (by rw [State.messageBits, List.length_map, List.length_range, List.length_replicate, longZeros_len]) fun k h1 h2 => ?_
  have hk : k < 65537 := by rwa [List.length_replicate] at h2
  simp only [State.messageBits, List.getElem_map, List.getElem_range, List.getElem_replicate]
  exact longZeros_bit hk

theorem test_witness_LengthsBeyondABufferOverflow :
    65536 < ({ longCodes with msgLen := 65537#32 } : State).msgLen.toNat ∧ longCodes.status.indexValid = true ∧
    longCodes.msgLen.toNat ≤ 65536 ∧
    (∀ b ∈ longCodes.message, (tableGet longCodes.code b.toNat).valid = true) ∧
    524288 < (longCodes.message.map fun b => (tableGet longCodes.code b.toNat).len.toNat).sum ∧
    (longZeros.status.treeValid = true ∧ longZeros.mbsLen.toNat ≤ 524288 ∧
      longZeros.arena.tree = some (.leaf 0 0x61#8) ∧
      (∀ p ∈ List.replicate 65536 (⟨0, 0x61#8, [false]⟩ : CodedLeaf), p ∈ (Machine.Tree.leaf 0 0x61#8).codes) ∧
      longZeros.messageBits =
        (List.replicate 65536 (⟨0, 0x61#8, [false]⟩ : CodedLeaf)).flatMap (·.path) ++ [false] ++ []) := by
  refine ⟨by decide, rfl, by decide, fun b _ => by rw [longCodes_entry], ?_, rfl, by decide, single_tree, ?_, ?_⟩
  · have : (longCodes.message.map fun b => (tableGet longCodes.code b.toNat).len.toNat) =
        List.replicate 65536 255 := by
      refine List.eq_replicate_iff.mpr ⟨by rw [List.length_map, State.message, List.length_map, List.length_range]; rfl, fun n hn => ?_⟩
      obtain ⟨b, -, rfl⟩ := List.mem_map.mp hn
      rw [longCodes_entry]; rfl
    rw [this, List.sum_replicate]
    norm_num
  · intro p hp
    rw [List.eq_of_mem_replicate hp]
    simp [Tree.codes]
  · exact longZeros_bits.trans (replicate_codes 65536)

theorem test_witness_DecodeWritesTheBytesOfTheCodes :
    let s := withMbs 3#32 3#32 aab
    let a : CodedLeaf := ⟨0, 0x61#8, [true]⟩
    let b : CodedLeaf := ⟨1, 0x62#8, [false]⟩
    s.mem.wf ∧ s.status.treeValid = true ∧ s.mbsLen.toNat ≤ 524288 ∧ s.arena.tree = some aabTree ∧
      (∀ p ∈ [a, a, b], p ∈ aabTree.codes) ∧ [a, a, b].length ≤ 65536 ∧
      s.messageBits = [a, a, b].flatMap (·.path) :=
  ⟨by decide +kernel, rfl, by decide, aab_tree, by decide, by decide, by decide +kernel⟩

/-- Three causes: a length beyond the buffer, a first bit 1 under a single leaf, and bits that end in a code. -/
theorem test_witness_MalformedBitstreamsAreReported :
    (let s := { aab with mbsLen := 524289#32 };
      s.status.treeValid = true ∧ 524288 < s.mbsLen.toNat) ∧
    (let s := withMbs 1#32 1#32 single;
      s.status.treeValid = true ∧ s.mbsLen.toNat ≤ 524288 ∧ s.arena.tree = some (.leaf 0 0x61#8) ∧ 0 ≤ 65536 ∧
        s.messageBits = List.replicate 0 false ++ true :: []) := by
  exact ⟨⟨rfl, by decide⟩, rfl, by decide, single_tree, by decide, by decide +kernel⟩

/-- "abc" as a tree with a left leaf and an internal right child, and a stream that ends after its first step right. -/
theorem test_witness_MalformedBitstreamsAreReported_trailing :
    let s := withMbs 1#32 1#32 (withTree [⟨.internal, 0#8, 1#9, 2#9, 0x1FF#9, 0#32⟩, leafNode 0x61#8 0#9 0#32,
      ⟨.internal, 0#8, 3#9, 4#9, 0#9, 0#32⟩, leafNode 0x62#8 2#9 0#32, leafNode 0x63#8 2#9 0#32] 0#9 3#9)
    let T : Machine.Tree := .node 0 (.leaf 1 0x61#8) (.node 2 (.leaf 3 0x62#8) (.leaf 4 0x63#8))
    let x : CodedLeaf := ⟨3, 0x62#8, [true, false]⟩
    s.status.treeValid = true ∧ s.mbsLen.toNat ≤ 524288 ∧ s.arena.holds T ∧ x ∈ T.codes ∧
      x.path = [true] ++ [false] ∧ s.messageBits = ([] : List CodedLeaf).flatMap (·.path) ++ [true] := by
  refine ⟨rfl, by decide, ⟨by decide +kernel, by decide +kernel, ?_, by decide +kernel, by decide +kernel⟩, by decide,
    rfl, by decide +kernel⟩
  simp only [Tree.linked]
  decide +kernel

theorem test_witness_MessageRoundTrips :
    aabMessage.mem.wf ∧ aabMessage.status.err = false ∧ aabMessage.msgLen ≠ 0#32 ∧ aabMessage.msgLen.toNat ≤ 65536 ∧
      ∀ k, k < aabMessage.msgLen.toNat → aabMessage.mem.byteWritten (0x10000 + k) := by
  refine ⟨by decide +kernel, rfl, by decide, by decide, fun k hk => ?_⟩
  have h3 : aabMessage.msgLen.toNat = 3 := rfl
  rw [h3] at hk
  unfold Memory.byteWritten
  interval_cases k <;> decide +kernel

/-! ### Lifecycle, frames, failures and invariants -/

theorem test_witness_ValidityLifecycle :
    ((State.reset.issueAfter 0#32 0).completing 0#32 ∧ (∀ i, decode 0#32 ≠ .ok i) ∧
      ∃ t, step (State.reset.issueAfter 0#32 0) = .next t) ∧
    ((withQueue [.reset] aabIndexed).nextAgent = .host ∧ (withQueue [.reset] aabIndexed).hostQueue.head? = some .reset ∧
      ∃ t, step (withQueue [.reset] aabIndexed) = .next t) ∧
    ((withQueue [.wait] aabIndexed).hostQueue.head? ≠ some .reset ∧
      ∃ t, step (withQueue [.wait] aabIndexed) = .next t) ∧
    aabIndexed.status.err = false ∧
    (∃ t, exec .buildTree aabIndexed = .next t ∧ t.status.err = false) ∧
    (∃ t, exec .buildTree aab = .next t ∧ t.status.err = true) ∧
    (∃ t, exec .deserializeTree aab = .next t ∧ t.status.err = true) ∧
    (∃ t, exec .teardown aab = .next t) ∧ ∃ t, exec .heapSize aab = .next t := by
  refine ⟨⟨⟨rfl, rfl⟩, fun i h => (by cases h), _, rfl⟩, ⟨rfl, rfl, _, rfl⟩, ⟨by decide, _, rfl⟩, rfl, ⟨_, rfl, rfl⟩,
    ⟨_, rfl, rfl⟩, ⟨_, rfl, rfl⟩, ⟨_, rfl⟩, _, rfl⟩

theorem test_witness_ValidityLifecycle_index :
    (∃ t, exec .deserializeTree (withTbs 0x00043119#32 19#32 aabIndexed) = .next t ∧ t.status.err = false) ∧
    (∃ t, exec .buildIndex aab = .next t ∧ t.status.err = false) ∧
    (∃ t, exec .buildIndex State.reset = .next t ∧ t.status.err = true ∧ t.errCode = .noTree) ∧
    ∃ t, exec .buildIndex repeated = .next t ∧ t.status.err = true ∧ t.errCode = .invalidTreeFormat := by
  refine ⟨⟨_, exec_completes _ (by simp), by decide +kernel⟩, ?_, ⟨_, rfl, rfl, rfl⟩, ?_⟩
  · have : exec .buildIndex aab = execBuildIndex aab := rfl
    rw [this, execBuildIndex, aab_tree]
    have hi : aabTree.index.2 = none := by decide +kernel
    generalize hc : aabTree.index = c at hi
    obtain ⟨c1, c2⟩ := c
    cases hi
    simp only [hc]
    exact ⟨_, rfl, rfl⟩
  · have : exec .buildIndex repeated = execBuildIndex repeated := rfl
    rw [this, execBuildIndex, repeated_tree]
    have hi : (Machine.Tree.node 0 (.leaf 1 0x61#8) (.leaf 2 0x61#8)).index.2 = some 2 := by decide +kernel
    generalize hc : (Machine.Tree.node 0 (.leaf 1 0x61#8) (.leaf 2 0x61#8)).index = c at hi
    obtain ⟨c1, c2⟩ := c
    cases hi
    simp only [hc]
    exact ⟨_, rfl, rfl, rfl⟩

theorem test_witness_EachCommandWritesOnlyItsStorage :
    (∃ t, exec .heapExtract pushed = .next t) ∧ ∃ t, exec .teardown aab = .next t :=
  ⟨⟨_, exec_completes _ (by simp)⟩, _, rfl⟩

/-- A decode without a tree; one that emits a byte before it fails (V-C10); and a bitstream that begins with a code. -/
theorem test_witness_DecodeStoresOnlyToOut :
    (State.reset.mem.wf ∧ State.reset.status.err = false ∧ ∃ t, exec .decode State.reset = .next t) ∧
    (let s := withMbs 2#32 3#32 single;
      let a : CodedLeaf := ⟨0, 0x61#8, [false]⟩;
      s.mem.wf ∧ s.status.err = false ∧ (∃ t, exec .decode s = .next t) ∧ s.status.treeValid = true ∧
        s.mbsLen.toNat ≤ 524288 ∧ s.arena.tree = some (.leaf 0 0x61#8) ∧
        (∀ p ∈ [a], p ∈ (Machine.Tree.leaf 0 0x61#8).codes) ∧ [a].length ≤ 65536 ∧
        s.messageBits = [a].flatMap (·.path) ++ [true, false]) := by
  exact ⟨⟨by decide, rfl, _, rfl⟩, by decide +kernel, rfl,
    (completes_with_tree (s := withMbs 2#32 3#32 single) (T := .leaf 0 0x61#8) single_tree).2, rfl, by decide,
    single_tree, by decide, by decide, by decide +kernel⟩

theorem test_witness_FailedCommandsLeaveOnlyTheirListedEffects :
    State.reset.status.err = false ∧
    (∃ t, exec .buildTree State.reset = .next t ∧ t.status.err = true) ∧
    (∃ t, exec .deserializeTree State.reset = .next t ∧ t.status.err = true) ∧
    (∃ t, exec .buildIndex State.reset = .next t ∧ t.status.err = true) ∧
    ∃ t, exec .decode State.reset = .next t ∧ t.status.err = true :=
  ⟨rfl, ⟨_, rfl, rfl⟩, ⟨_, rfl, rfl⟩, ⟨_, rfl, rfl⟩, _, rfl, rfl⟩

theorem test_witness_StepKeepsTheBuffersCanonical :
    aabMessage.mem.wf ∧ ∃ t, step (aabMessage.issueAfter 0x05#32 0) = .next t := ⟨by decide +kernel, _, rfl⟩

theorem test_witness_StepKeepsTheHeapBounded :
    pushed.heap.bounded ∧ ∃ t, step (pushed.issueAfter 0x05#32 0) = .next t :=
  ⟨test_witness_HeapExtractRemovesTheFirstItem.1, _, rfl⟩

theorem test_witness_StepKeepsTheHeapProperty :
    pushed.heap.bounded ∧ pushed.heap.ordered ∧ ∃ t, step (pushed.issueAfter 0x05#32 0) = .next t :=
  ⟨test_witness_HeapExtractRemovesTheFirstItem.1, test_witness_HeapExtractRemovesTheFirstItem.2.2, _, rfl⟩

theorem test_witness_StepKeepsReportAndLifecycle :
    (aabIndexed.issueAfter 0x05#32 0).reporting ∧ (aabIndexed.issueAfter 0x05#32 0).lifecycle ∧
      ∃ t, step (aabIndexed.issueAfter 0x05#32 0) = .next t :=
  ⟨⟨rfl, fun _ => ⟨rfl, rfl⟩, fun h => (by cases h), fun _ => ⟨rfl, rfl⟩⟩, ⟨fun _ => rfl, fun h => (by cases h)⟩, _, rfl⟩

theorem test_witness_StepKeepsTheTreeInvariant :
    (aab.issueAfter 0x05#32 0).status.treeValid = true ∧ (aab.issueAfter 0x05#32 0).treeHeld ∧
      ∃ t, step (aab.issueAfter 0x05#32 0) = .next t := ⟨rfl, fun _ => ⟨_, aab_holds⟩, _, rfl⟩

theorem test_witness_StepKeepsTheIndexOfTheTree :
    (aabIndexed.issueAfter 0x05#32 0).status.indexValid = true ∧ (aabIndexed.issueAfter 0x05#32 0).indexHeld ∧
      ∃ t, step (aabIndexed.issueAfter 0x05#32 0) = .next t :=
  ⟨rfl, fun _ => ⟨aabTree, aab_tree, by decide +kernel⟩, _, rfl⟩

end Sys2Proof.Tests
end

section
/-! PROOFS. The address map's plain offsets and the host's accesses to them (O8, O11, O12, O13). -/

namespace Sys2Proof.Machine

/-! ## The address map -/

/-- Past the last CSR an offset of the CSR page names nothing (10_state.md R54). -/
theorem csrTarget_reserved {off : Nat} (h : 0x044 ≤ off) : csrTarget off = .reserved := by
  have hlen : Csr.inOrder[off / 4]? = none := List.getElem?_eq_none (by show 17 ≤ off / 4; omega)
  rw [csrTarget, hlen]

/-- The reserved offsets of the address map (20_memory.md R81, 10_state.md R54). -/
theorem target_reserved {off : Nat}
    (h : (0x044 ≤ off ∧ off < 0x10000) ∨ (0x30140 ≤ off ∧ off < 0x40000) ∨ (0x51FF0 ≤ off ∧ off < 0x60000) ∨
      (0x64000 ≤ off ∧ off < 0x70000) ∨ (0x70800 ≤ off ∧ off < 0x80000) ∨ (0x80400 ≤ off ∧ off < 0x100000)) :
    target off = .reserved := by
  unfold target Config.msgBase Config.tbsEnd Config.mbsBase Config.nodeBase Config.nodeEnd Config.codeBase
    Config.codeEnd Config.heapBase Config.heapEnd Config.freqBase Config.freqEnd
  rcases h with h | h | h | h | h | h
  · rw [if_pos h.2, csrTarget_reserved h.1]
  all_goals simp (disch := omega) only [if_neg, if_pos]

/-- Above the buffers the aperture has neither a register nor a buffer word. -/
theorem target_windows {off : Nat} (h : 0x50000 ≤ off) : (∀ r, target off ≠ .csr r) ∧ target off ≠ .buffer := by
  unfold target Config.msgBase Config.tbsEnd Config.mbsBase Config.nodeBase
  rw [if_neg (by omega), if_neg (by omega), if_neg (by omega), if_neg (by omega)]
  split_ifs <;> simp

/-- A CSR's offset names it (10_state.md R31 to R53). -/
@[simp] theorem target_offset (r : Csr) : target r.offset = .csr r := by
  cases r <;> rfl

/-! ## Idle accesses -/

theorem hostWrite_idle {s : State} (h : s.status.busy = false) (off : Nat) (w : Word) :
    s.hostWrite off w = .next (s.writeIdle off w) := by
  simp [State.hostWrite, h]

/-- An idle write of a CSR is the register's own write. -/
theorem hostWrite_csr {s : State} (h : s.status.busy = false) (r : Csr) (w : Word) :
    s.hostWrite r.offset w = .next (s.writeCsr r w) := by
  rw [hostWrite_idle h, State.writeIdle, target_offset]

theorem readOffset_csr (s : State) (r : Csr) : s.readOffset r.offset = s.readCsr r := by
  rw [State.readOffset, target_offset]

/-- A read of a reserved offset gives 0 (20_memory.md R88). -/
theorem readOffset_reserved (s : State) {off : Nat} (h : target off = .reserved) : s.readOffset off = 0#32 := by
  rw [State.readOffset, h]

/-- An idle write that meets neither a register nor a buffer changes nothing (20_memory.md R86, R88). -/
theorem writeIdle_ignored (s : State) {off : Nat} (w : Word) (hr : ∀ r, target off ≠ .csr r)
    (hb : target off ≠ .buffer) : s.writeIdle off w = s := by
  unfold State.writeIdle
  cases ht : target off with
  | csr r => exact absurd ht (hr r)
  | buffer => exact absurd ht hb
  | _ => rfl

theorem readValue_idle {s : State} (h : s.status.busy = false) (off : Nat) : s.readValue off = s.readOffset off := by
  simp [State.readValue, h]

/-- A CMD write while BUSY = 1 is dropped and sets OVR (10_state.md R32). -/
theorem hostWrite_cmd_busy {s : State} (h : s.status.busy = true) (w : Word) :
    s.hostWrite Csr.cmd.offset w = .next { s with status := s.status.overrun } := by
  simp [State.hostWrite, State.writeBusy, h]

/-- A STATUS write of 1 to bit 3 while BUSY = 1 clears OVR (10_state.md R33). -/
theorem hostWrite_status_busy {s : State} (h : s.status.busy = true) {w : Word} (h3 : w.getLsbD 3 = true) :
    s.hostWrite Csr.status.offset w = .next { s with status := s.status.clearOvr } := by
  rw [State.hostWrite, if_pos h, State.writeBusy, target_offset, if_neg (by decide), if_pos ⟨rfl, h3⟩]

/-- An idle STATUS write, whatever its bit 3 (10_state.md R33). -/
theorem writeCsr_status (s : State) (w : Word) :
    s.writeCsr .status w = { s with status := { s.status with ovr := s.status.ovr && !w.getLsbD 3 } } := by
  unfold State.writeCsr Status.clearOvr
  cases w.getLsbD 3 <;> simp

/-! ## Words of the registers -/

/-- Bit by bit, what STATUS reads as (10_state.md R33). -/
theorem status_toWord_getLsbD (st : Status) (k : Nat) :
    st.toWord.getLsbD k =
      if k = 0 then st.busy else if k = 1 then st.done else if k = 2 then st.err else if k = 3 then st.ovr
      else if k = 4 then st.treeValid else if k = 5 then st.indexValid else false := by
  unfold Status.toWord
  simp only [BitVec.getLsbD_append, BitVec.getLsbD_ofBool, BitVec.getLsbD_zero]
  by_cases h : k < 6
  · interval_cases k <;> simp
  · simp (disch := omega) only [if_neg, show ¬k < 1 by omega]
    grind

/-- A concatenation as a number: the upper part shifted past the lower. -/
theorem toNat_append_eq_add {m n : Nat} (x : BitVec m) (y : BitVec n) :
    (x ++ y).toNat = 2 ^ n * x.toNat + y.toNat := by
  rw [BitVec.toNat_append, ← Nat.shiftLeft_add_eq_or_of_lt y.isLt, Nat.shiftLeft_eq, Nat.mul_comm]

theorem result1_toWord_toNat (r : Result1) : r.toWord.toNat = 2 ^ 31 * r.valid.toNat + r.tag.toNat := by
  rw [Result1.toWord, toNat_append_eq_add, toNat_append_eq_add]
  simp [← Nat.mul_assoc]

theorem cfgWord_toNat (h : Heap) :
    h.cfgWord.toNat = 2 ^ 16 * (if h.pol = .max then 1 else 0) + h.cap.toNat := by
  rw [Heap.cfgWord, toNat_append_eq_add, toNat_append_eq_add, toNat_append_eq_add]
  cases h.pol <;> simp [Polarity.bit]

/-! ## The step of an access -/

/-- A host step of a legal read is the read. -/
theorem hostStep_read {s : State} {rest : List HostEvent} {loc : Loc} {off : Nat}
    (hr : loc.resolve = some off) (ha : off % 4 = 0) (hq : s.hostQueue = .read loc 4 :: rest) :
    hostStep s = .next (({ s with hostQueue := rest, delay := s.delay - 1 } : State).hostRead off) := by
  rw [hostStep, hq]
  simp only [performEvent, checkAccess_next.mpr ⟨hr, rfl, ha⟩]

/-- A host step of a legal write is the outcome of the write. -/
theorem hostStep_write {s : State} {rest : List HostEvent} {loc : Loc} {off : Nat} {w : Word}
    (hr : loc.resolve = some off) (ha : off % 4 = 0) (hq : s.hostQueue = .write loc 4 w :: rest) :
    hostStep s = ({ s with hostQueue := rest, delay := s.delay - 1 } : State).hostWrite off w := by
  rw [hostStep, hq]
  simp only [performEvent, checkAccess_next.mpr ⟨hr, rfl, ha⟩]

/-! ## The statements -/

/-- Settles O8: the event is a CSR write, idle it issues, busy it only sets OVR. -/
theorem cmdWriteIssuesOrOverruns : Obligations.CmdWriteIssuesOrOverruns := by
  intro s rest w ha hq
  have hstep : step s = ({ s with hostQueue := rest, delay := s.delay - 1 } : State).hostWrite 0x004 w := by
    rw [(step_eq s).1 ha, hostStep_write (off := 0x004) rfl rfl hq]
  refine ⟨fun hb => ⟨Config.freeDelay s.draws, ?_⟩, fun hb => ⟨s.delay - 1, ?_⟩, readOffset_csr s .cmd⟩
  · exact hstep.trans (hostWrite_csr (s := { s with hostQueue := rest, delay := s.delay - 1 }) hb .cmd w)
  · exact hstep.trans (hostWrite_cmd_busy (s := { s with hostQueue := rest, delay := s.delay - 1 }) hb w)

/-- Settles O11, bit by bit from the word STATUS reads as. -/
theorem statusBitsAndOvrClear : Obligations.StatusBitsAndOvrClear := by
  refine ⟨fun s => ?_, fun s w hb => ?_, fun s w hb h3 => ?_, rfl⟩
  · rw [show s.readOffset 0x008 = s.status.toWord from readOffset_csr s .status]
    simp only [status_toWord_getLsbD]
    exact ⟨rfl, rfl, rfl, rfl, rfl, rfl, fun k hk => by simp (disch := omega) only [if_neg]⟩
  · rw [← writeCsr_status]
    exact hostWrite_csr hb .status w
  · exact hostWrite_status_busy hb h3

/-- Settles O12 by what the address map names at these offsets. -/
theorem windowsAndReservedOffsetsIgnoreWrites : Obligations.WindowsAndReservedOffsetsIgnoreWrites := by
  refine fun s off w _ => ⟨fun h => ?_, fun h hb => ?_⟩
  · have ht := target_reserved h
    refine ⟨readOffset_reserved s ht, fun hb => ?_⟩
    rw [hostWrite_idle hb, writeIdle_ignored s w (by simp [ht]) (by simp [ht])]
  · obtain ⟨hr, hbuf⟩ := target_windows h.1
    rw [hostWrite_idle hb, writeIdle_ignored s w hr hbuf]

/-- Settles O13: the two idle steps, then each register by its offset. -/
theorem registersReadAndTakeWrites : Obligations.RegistersReadAndTakeWrites := by
  refine ⟨fun s rest loc off w hb hr ha => ?_, fun s w hb => ?_⟩
  · have hstep := (step_eq s).1 (nextAgent_host.mpr (.inl hb))
    refine ⟨fun hq => ⟨s.delay - 1, s.draws + 1, ?_⟩, fun hq => ⟨s.delay - 1, hstep.trans (hostStep_write hr ha hq)⟩⟩
    rw [hstep, hostStep_read hr ha hq, ← readValue_idle hb]
    rfl
  · have hread := readOffset_csr s
    have hwrite := fun r => hostWrite_csr hb r w
    refine ⟨hread .id, hread .errCode, hread .errInfo, hread .arg0, hread .result0,
      (congrArg BitVec.toNat (hread .result1)).trans (result1_toWord_toNat _), hread .msgLen, hread .tbsLen,
      hread .mbsLen, hread .outLen, hread .root, hread .nodeCount, hread .unique, hread .heapSize,
      (congrArg BitVec.toNat (hread .heapCfg)).trans (cfgWord_toNat _), hwrite .arg0, hwrite .msgLen, hwrite .tbsLen,
      hwrite .mbsLen, ?_⟩
    simp only [List.forall_mem_cons, List.not_mem_nil, false_imp_iff, implies_true, and_true]
    exact ⟨hwrite .id, hwrite .errCode, hwrite .errInfo, hwrite .result0, hwrite .result1, hwrite .outLen,
      hwrite .root, hwrite .nodeCount, hwrite .unique, hwrite .heapSize, hwrite .heapCfg⟩

end Sys2Proof.Machine
end

section
/-! PROOFS. What a step can do to the registers of R261, to the tree and its index, and to the heap: once each, so
that every invariant is a case split over the outcomes (O56, O57, O58, O59). -/

namespace Sys2Proof.Machine

/-! ## Host events -/

/-- The block's storage that no host event but reset writes: heap, arena, code table and the two validity bits. -/
structure State.SameStorage (s t : State) : Prop where
  heap : t.heap = s.heap
  arena : t.arena = s.arena
  code : t.code = s.code
  treeValid : t.status.treeValid = s.status.treeValid
  indexValid : t.status.indexValid = s.status.indexValid

/-- The registers by which a command is issued and reports: BUSY, DONE, ERR, PENDING, ERRCODE and ERR_INFO. -/
structure State.SameReport (s t : State) : Prop where
  busy : t.status.busy = s.status.busy
  done : t.status.done = s.status.done
  err : t.status.err = s.status.err
  pending : t.pending = s.pending
  errCode : t.errCode = s.errCode
  errInfo : t.errInfo = s.errInfo

/-- Everything a host event can do to the storage and the report registers (20_memory.md R90). -/
inductive State.HostEffect (s t : State) : Prop
  | quiet (storage : s.SameStorage t) (report : s.SameReport t)
  /-- A CMD write while BUSY = 0. -/
  | issued (storage : s.SameStorage t) (u : State) (v : Word) (report : (u.issue v).SameReport t)
  | reset (u : State) (state : t = u.platformReset)

theorem hostWrite_effect {s t : State} {off : Nat} {v : Word} (h : s.hostWrite off v = .next t) :
    s.HostEffect t := by
  have issued : s.HostEffect (s.issue v) :=
    .issued ⟨rfl, rfl, rfl, rfl, rfl⟩ s v ⟨rfl, rfl, rfl, rfl, rfl, rfl⟩
  rcases hostWrite_cases h with ⟨-, rfl⟩ | ⟨-, -, rfl⟩ | ⟨-, -, -, rfl⟩
  · rcases writeIdle_cases off v s with ⟨-, e⟩ | ⟨-, e⟩ | ⟨-, -, e⟩ | ⟨-, e⟩ | ⟨-, e⟩ | ⟨-, e⟩ | ⟨-, e⟩ | e <;> rw [e]
    case inr.inl => exact issued
    all_goals exact .quiet ⟨rfl, rfl, rfl, rfl, rfl⟩ ⟨rfl, rfl, rfl, rfl, rfl, rfl⟩
  all_goals exact .quiet ⟨rfl, rfl, rfl, rfl, rfl⟩ ⟨rfl, rfl, rfl, rfl, rfl, rfl⟩

/-- What one event can do, with the queue it is taken from and the delay left open. -/
theorem performEvent_effect {s t : State} {e : HostEvent} (h : performEvent e s = .next t) : s.HostEffect t := by
  rcases performEvent_cases h with ⟨_, _, _, -, -, rfl⟩ | ⟨_, _, _, _, -, -, hw⟩ | ⟨-, -, rfl⟩ | ⟨-, -, rfl⟩ |
    ⟨_, -, -, rfl⟩ | ⟨_, -, -, rfl⟩ | ⟨-, rfl⟩
  case inr.inl => exact hostWrite_effect hw
  case inr.inr.inr.inr.inr.inr => exact .reset s rfl
  all_goals exact .quiet ⟨rfl, rfl, rfl, rfl, rfl⟩ ⟨rfl, rfl, rfl, rfl, rfl, rfl⟩

theorem hostStep_effect {s t : State} (h : hostStep s = .next t) : s.HostEffect t := by
  rcases hostStep_cases h with ⟨-, rfl⟩ | ⟨e, rest, -, he⟩
  · exact .quiet ⟨rfl, rfl, rfl, rfl, rfl⟩ ⟨rfl, rfl, rfl, rfl, rfl, rfl⟩
  · cases performEvent_effect he with
    | quiet hs hr =>
      exact .quiet ⟨hs.heap, hs.arena, hs.code, hs.treeValid, hs.indexValid⟩
        ⟨hr.busy, hr.done, hr.err, hr.pending, hr.errCode, hr.errInfo⟩
    | issued hs u v hr => exact .issued ⟨hs.heap, hs.arena, hs.code, hs.treeValid, hs.indexValid⟩ u v hr
    | reset u hu => exact .reset u hu

/-- A host step is a reset or leaves the storage alone. -/
theorem hostStep_storage {s t : State} (h : hostStep s = .next t) :
    s.SameStorage t ∨ ∃ u : State, t = u.platformReset := by
  cases hostStep_effect h with
  | quiet hs _ => exact .inl hs
  | issued hs _ _ _ => exact .inl hs
  | reset u hu => exact .inr ⟨u, hu⟩

/-! ## The report registers -/

/-- A decode's error is an error code, never NONE (43_message_codec.md R215). -/
theorem decodeFrom_error (root cur : Tree) (i k : Nat) (bs : List Bool) {e : ErrCode} {info : Nat}
    (h : (decodeFrom root cur i k bs).error = some (e, info)) : e ≠ .none := by
  induction bs generalizing cur i k with
  | nil => unfold decodeFrom at h; split at h <;> cases h; nofun
  | cons b bs ih =>
    unfold decodeFrom at h
    split at h <;> split at h
    · cases h; nofun
    · split at h
      · cases h; nofun
      · exact ih _ _ _ h
    · split at h
      · cases h; nofun
      · exact ih _ _ _ h
    · exact ih _ _ _ h

/-- What a completion leaves in the report registers (60_exceptions.md R261): the error registers as issue set them,
or an error. -/
structure State.ReportedBy (s t : State) : Prop where
  busy : t.status.busy = false
  done : t.status.done = true
  pending : t.pending = none
  error : (t.status.err = s.status.err ∧ t.errCode = s.errCode ∧ t.errInfo = s.errInfo) ∨
    (t.status.err = true ∧ t.errCode ≠ .none)

theorem reportedBy_raise (s u : State) {e : ErrCode} (w : Word) (he : e ≠ .none) : s.ReportedBy (u.raise e w) :=
  ⟨rfl, rfl, rfl, .inr ⟨rfl, he⟩⟩

/-- A completion of a state that has the error registers of `s`. -/
theorem reportedBy_complete {s u : State} (h1 : u.status.err = s.status.err) (h2 : u.errCode = s.errCode)
    (h3 : u.errInfo = s.errInfo) : s.ReportedBy u.complete :=
  ⟨rfl, rfl, rfl, .inl ⟨h1, h2, h3⟩⟩

/-- Every command that completes reports so. -/
theorem exec_reportedBy {i : Instr} {s t : State} (h : exec i s = .next t) : s.ReportedBy t := by
  cases i with
  | heapNew cap pol =>
    rcases execHeapNew_cases h with ⟨-, rfl⟩ | ⟨-, rfl⟩
    · exact reportedBy_complete rfl rfl rfl
    · exact reportedBy_raise _ _ _ nofun
  | heapInsert tag =>
    rcases execHeapInsert_cases h with ⟨-, rfl⟩ | ⟨-, rfl⟩
    · exact reportedBy_complete rfl rfl rfl
    · exact reportedBy_raise _ _ _ nofun
  | heapExtract =>
    rcases execHeapExtract_cases h with ⟨-, rfl⟩ | ⟨-, rfl⟩ <;> exact reportedBy_complete rfl rfl rfl
  | heapPeek idx =>
    rcases execHeapPeek_cases h with ⟨-, rfl⟩ | ⟨-, rfl⟩ <;> exact reportedBy_complete rfl rfl rfl
  | heapSize => exact execHeapSize_cases h ▸ reportedBy_complete rfl rfl rfl
  | buildTree =>
    rcases execBuildTree_cases h with ⟨-, rfl⟩ | ⟨-, -, rfl⟩ | ⟨-, -, rfl⟩
    · exact reportedBy_raise _ _ _ nofun
    · exact reportedBy_raise _ _ _ nofun
    · exact reportedBy_complete rfl rfl rfl
  | buildIndex =>
    rcases execBuildIndex_cases h with ⟨-, rfl⟩ | ⟨-, T, -, ⟨-, rfl⟩ | ⟨j, -, rfl⟩⟩
    · exact reportedBy_raise _ _ _ nofun
    · exact reportedBy_complete rfl rfl rfl
    · exact reportedBy_raise _ _ _ nofun
  | encode =>
    rcases execEncode_cases h with ⟨-, rfl⟩ | ⟨-, -, rfl⟩ | ⟨-, -, ⟨k, -, rfl⟩ | ⟨-, ⟨-, rfl⟩ | ⟨-, rfl⟩⟩⟩
    case inr.inr.inr.inr => exact reportedBy_complete rfl rfl rfl
    all_goals exact reportedBy_raise _ _ _ nofun
  | encodeTree =>
    rcases execEncodeTree_cases h with ⟨-, rfl⟩ | ⟨-, T, -, rfl⟩
    · exact reportedBy_raise _ _ _ nofun
    · exact reportedBy_complete rfl rfl rfl
  | deserializeTree =>
    rcases execDeserializeTree_cases h with ⟨-, rfl⟩ | ⟨-, -, ⟨p, -, rfl⟩ | ⟨info, nodes, -, rfl⟩⟩
    · exact reportedBy_raise _ _ _ nofun
    · exact reportedBy_complete rfl rfl rfl
    · exact reportedBy_raise _ _ _ nofun
  | decode =>
    rcases execDecode_cases h with ⟨-, rfl⟩ | ⟨-, -, rfl⟩ | ⟨-, -, T, -, ⟨-, rfl⟩ | ⟨e, info, he, rfl⟩⟩
    · exact reportedBy_raise _ _ _ nofun
    · exact reportedBy_raise _ _ _ nofun
    · exact reportedBy_complete rfl rfl rfl
    · exact reportedBy_raise _ _ _ (decodeFrom_error _ _ _ _ _ he)
  | teardown => exact execTeardown_cases h ▸ reportedBy_complete rfl rfl rfl

/-- Issue sets BUSY with PENDING and clears the error registers together (70_reset_and_hazards.md R284). -/
theorem reporting_issue (u : State) (v : Word) : (u.issue v).reporting :=
  ⟨rfl, fun _ => ⟨rfl, rfl⟩, nofun, fun _ => ⟨rfl, rfl⟩⟩

theorem State.SameReport.reporting {s t : State} (h : s.SameReport t) (hs : s.reporting) : t.reporting := by
  obtain ⟨hbusy, hdone, herr, hpending, hcode, hinfo⟩ := h
  obtain ⟨h1, h2, h3, h4⟩ := hs
  exact ⟨by rw [hbusy, hpending, h1], by rwa [hbusy, hdone, herr], by rwa [herr, hdone, hcode],
    by rwa [herr, hcode, hinfo]⟩

/-- A completion of a command in flight agrees: ERR was clear, so an error registers only as the completion's own. -/
theorem State.ReportedBy.reporting {s t : State} (h : s.ReportedBy t) (hs : s.reporting)
    (hb : s.status.busy = true) : t.reporting := by
  obtain ⟨hbusy, hdone, hpending, herror⟩ := h
  obtain ⟨-, herr⟩ := hs.notDone hb
  have hclean := hs.noErr herr
  refine ⟨by rw [hbusy, hpending]; rfl, fun hb' => by simp [hbusy] at hb', fun he => ⟨hdone, ?_⟩, fun he => ?_⟩
  · rcases herror with ⟨e, -, -⟩ | ⟨-, hne⟩
    · rw [e, herr] at he; cases he
    · exact hne
  · rcases herror with ⟨-, hcode, hinfo⟩ | ⟨e, -⟩
    · rwa [hcode, hinfo]
    · rw [e] at he; cases he

theorem step_reporting {s t : State} (h : step s = .next t) (hs : s.reporting) : t.reporting := by
  rcases step_cases h with ⟨-, h⟩ | ⟨w, i, hc, -, h⟩ | ⟨w, e, hc, -, rfl⟩
  · cases hostStep_effect h with
    | quiet _ hr => exact hr.reporting hs
    | issued _ u v hr => exact hr.reporting (reporting_issue u v)
    | reset u hu => exact hu ▸ ⟨rfl, nofun, nofun, fun _ => ⟨rfl, rfl⟩⟩
  · exact (exec_reportedBy h).reporting hs (nextAgent_engine.mp hc.1).1
  · exact (reportedBy_raise s s (e := .illegalCommand) w nofun).reporting hs (nextAgent_engine.mp hc.1).1

/-! ## The tree and its index -/

/-- Everything a step can do to the tree, its registers and its index (44_lifecycle.md R241). -/
inductive State.TreeEffect (s t : State) : Prop
  /-- Neither is touched. -/
  | kept (arena : t.arena = s.arena) (code : t.code = s.code) (tree : t.status.treeValid = s.status.treeValid)
      (index : t.status.indexValid = s.status.indexValid)
  /-- CODE becomes the index of the tree held. -/
  | indexed (T : Tree) (held : s.arena.tree = some T) (code : T.index = (t.code, none)) (arena : t.arena = s.arena)
      (valid : s.status.treeValid = true) (tree : t.status.treeValid = true)
  /-- The index is lost and the tree kept. -/
  | unindexed (arena : t.arena = s.arena) (tree : t.status.treeValid = s.status.treeValid)
      (index : t.status.indexValid = false)
  /-- No tree and no index is left. -/
  | dropped (root : t.arena.root = Config.noNode) (count : t.arena.count = 0#10) (unique : t.arena.unique = 0#9)
      (tree : t.status.treeValid = false) (index : t.status.indexValid = false)
  /-- BUILD_TREE's tree, without an index. -/
  | built (nonempty : s.msgLen ≠ 0#32) (fits : s.msgLen.toNat ≤ Config.msgMax) (arena : t.arena = s.builtTree.arena)
      (tree : t.status.treeValid = true) (index : t.status.indexValid = false)
  /-- DESERIALIZE_TREE's tree, without an index. -/
  | parsed (p : Parse) (nonempty : s.tbsLen ≠ 0#32)
      (parse : parseTree s.treeBit s.tbsLen.toNat s.arena.nodes = .consumed p)
      (arena : t.arena = (s.holdParsed p).arena) (tree : t.status.treeValid = true)
      (index : t.status.indexValid = false)

theorem State.SameStorage.treeEffect {s t : State} (h : s.SameStorage t) : s.TreeEffect t :=
  .kept h.arena h.code h.treeValid h.indexValid

theorem exec_treeEffect {i : Instr} {s t : State} (h : exec i s = .next t) : s.TreeEffect t := by
  cases i with
  | heapNew cap pol => rcases execHeapNew_cases h with ⟨-, rfl⟩ | ⟨-, rfl⟩ <;> exact .kept rfl rfl rfl rfl
  | heapInsert tag => rcases execHeapInsert_cases h with ⟨-, rfl⟩ | ⟨-, rfl⟩ <;> exact .kept rfl rfl rfl rfl
  | heapExtract => rcases execHeapExtract_cases h with ⟨-, rfl⟩ | ⟨-, rfl⟩ <;> exact .kept rfl rfl rfl rfl
  | heapPeek idx => rcases execHeapPeek_cases h with ⟨-, rfl⟩ | ⟨-, rfl⟩ <;> exact .kept rfl rfl rfl rfl
  | heapSize => exact execHeapSize_cases h ▸ .kept rfl rfl rfl rfl
  | buildTree =>
    rcases execBuildTree_cases h with ⟨-, rfl⟩ | ⟨-, -, rfl⟩ | ⟨h1, h2, rfl⟩
    · exact .kept rfl rfl rfl rfl
    · exact .kept rfl rfl rfl rfl
    · exact .built h1 h2 rfl rfl rfl
  | buildIndex =>
    rcases execBuildIndex_cases h with ⟨-, rfl⟩ | ⟨hv, T, hT, ⟨hi, rfl⟩ | ⟨j, -, rfl⟩⟩
    · exact .kept rfl rfl rfl rfl
    · exact .indexed T hT (Prod.ext rfl hi) rfl hv hv
    · exact .unindexed rfl rfl rfl
  | encode =>
    rcases execEncode_cases h with ⟨-, rfl⟩ | ⟨-, -, rfl⟩ | ⟨-, -, ⟨k, -, rfl⟩ | ⟨-, ⟨-, rfl⟩ | ⟨-, rfl⟩⟩⟩ <;>
      exact .kept rfl rfl rfl rfl
  | encodeTree => rcases execEncodeTree_cases h with ⟨-, rfl⟩ | ⟨-, T, -, rfl⟩ <;> exact .kept rfl rfl rfl rfl
  | deserializeTree =>
    rcases execDeserializeTree_cases h with ⟨-, rfl⟩ | ⟨h0, -, ⟨p, hp, rfl⟩ | ⟨info, nodes, -, rfl⟩⟩
    · exact .dropped rfl rfl rfl rfl rfl
    · exact .parsed p h0 hp rfl rfl rfl
    · exact .dropped rfl rfl rfl rfl rfl
  | decode =>
    rcases execDecode_cases h with ⟨-, rfl⟩ | ⟨-, -, rfl⟩ | ⟨-, -, T, -, ⟨-, rfl⟩ | ⟨e, info, -, rfl⟩⟩ <;>
      exact .kept rfl rfl rfl rfl
  | teardown => exact execTeardown_cases h ▸ .dropped rfl rfl rfl rfl rfl

/-- Every step: a host event keeps tree and index or resets, an illegal word keeps them. -/
theorem step_treeEffect {s t : State} (h : step s = .next t) : s.TreeEffect t := by
  rcases step_cases h with ⟨-, h⟩ | ⟨w, i, -, -, h⟩ | ⟨w, e, -, -, rfl⟩
  · rcases hostStep_storage h with hs | ⟨u, rfl⟩
    · exact hs.treeEffect
    · exact .dropped rfl rfl rfl rfl rfl
  · exact exec_treeEffect h
  · exact .kept rfl rfl rfl rfl

theorem State.TreeEffect.lifecycle {s t : State} (h : s.TreeEffect t) (hs : s.lifecycle) : t.lifecycle := by
  obtain ⟨hneeds, hcleared⟩ := hs
  cases h with
  | kept arena _ tree index => exact ⟨by rwa [index, tree], by rwa [tree, arena]⟩
  | indexed _ _ _ _ _ tree => exact ⟨fun _ => tree, by simp [tree]⟩
  | unindexed arena tree index => exact ⟨by simp [index], by rwa [tree, arena]⟩
  | dropped root count unique _ index => exact ⟨by simp [index], fun _ => ⟨root, count, unique⟩⟩
  | built _ _ _ tree index => exact ⟨by simp [index], by simp [tree]⟩
  | parsed _ _ _ _ tree index => exact ⟨by simp [index], by simp [tree]⟩

/-- Settles O57: the report registers by the kinds of step, the lifecycle by what a step does to the tree. -/
theorem stepKeepsReportAndLifecycle : Obligations.StepKeepsReportAndLifecycle :=
  fun _ _ h => ⟨step_reporting h, (step_treeEffect h).lifecycle⟩

/-- Settles O59: a step that leaves INDEX_VALID = 1 keeps arena and code table, or is the BUILD_INDEX that fills it. -/
theorem stepKeepsTheIndexOfTheTree : Obligations.StepKeepsTheIndexOfTheTree := by
  intro s t hs h hv
  cases step_treeEffect h with
  | kept arena code _ index =>
    rw [arena, code]
    exact hs (index ▸ hv)
  | indexed T held code arena => exact ⟨T, arena ▸ held, code⟩
  | unindexed _ _ index => simp [index] at hv
  | dropped _ _ _ _ index => simp [index] at hv
  | built _ _ _ _ index => simp [index] at hv
  | parsed _ _ _ _ _ index => simp [index] at hv

/-! ## The heap -/

/-- Everything a step can do to the heap (40_heap.md). -/
inductive State.HeapEffect (s t : State) : Prop
  | kept (heap : t.heap = s.heap)
  /-- HEAP_NEW and reset: an empty heap. -/
  | emptied (size : t.heap.size = 0#9) (cap : t.heap.cap.toNat ≤ Config.heapSlots)
  | inserted (x : HeapItem) (heap : s.heap.insert x = some t.heap)
  | extracted (x : HeapItem) (heap : s.heap.extract = some (x, t.heap))
  /-- BUILD_TREE leaves the heap it worked on. -/
  | built (heap : t.heap = s.builtTree.heap)

theorem exec_heapEffect {i : Instr} {s t : State} (h : exec i s = .next t) : s.HeapEffect t := by
  cases i with
  | heapNew cap pol =>
    rcases execHeapNew_cases h with ⟨hc, rfl⟩ | ⟨-, rfl⟩
    · exact .emptied rfl hc
    · exact .kept rfl
  | heapInsert tag =>
    rcases execHeapInsert_cases h with ⟨hc, rfl⟩ | ⟨-, rfl⟩
    · refine .inserted ⟨s.arg0, tag⟩ ?_
      rw [Heap.insert, if_neg hc]
      rfl
    · exact .kept rfl
  | heapExtract =>
    rcases execHeapExtract_cases h with ⟨hc, rfl⟩ | ⟨-, rfl⟩
    · refine .extracted (tableGet s.heap.items 0) ?_
      rw [Heap.extract, if_neg hc]
      rfl
    · exact .kept rfl
  | heapPeek idx => rcases execHeapPeek_cases h with ⟨-, rfl⟩ | ⟨-, rfl⟩ <;> exact .kept rfl
  | heapSize => exact execHeapSize_cases h ▸ .kept rfl
  | buildTree =>
    rcases execBuildTree_cases h with ⟨-, rfl⟩ | ⟨-, -, rfl⟩ | ⟨-, -, rfl⟩
    · exact .kept rfl
    · exact .kept rfl
    · exact .built rfl
  | buildIndex =>
    rcases execBuildIndex_cases h with ⟨-, rfl⟩ | ⟨-, T, -, ⟨-, rfl⟩ | ⟨j, -, rfl⟩⟩ <;> exact .kept rfl
  | encode =>
    rcases execEncode_cases h with ⟨-, rfl⟩ | ⟨-, -, rfl⟩ | ⟨-, -, ⟨k, -, rfl⟩ | ⟨-, ⟨-, rfl⟩ | ⟨-, rfl⟩⟩⟩ <;>
      exact .kept rfl
  | encodeTree => rcases execEncodeTree_cases h with ⟨-, rfl⟩ | ⟨-, T, -, rfl⟩ <;> exact .kept rfl
  | deserializeTree =>
    rcases execDeserializeTree_cases h with ⟨-, rfl⟩ | ⟨-, -, ⟨p, -, rfl⟩ | ⟨info, nodes, -, rfl⟩⟩ <;> exact .kept rfl
  | decode =>
    rcases execDecode_cases h with ⟨-, rfl⟩ | ⟨-, -, rfl⟩ | ⟨-, -, T, -, ⟨-, rfl⟩ | ⟨e, info, -, rfl⟩⟩ <;>
      exact .kept rfl
  | teardown => exact execTeardown_cases h ▸ .kept rfl

theorem step_heapEffect {s t : State} (h : step s = .next t) : s.HeapEffect t := by
  rcases step_cases h with ⟨-, h⟩ | ⟨w, i, -, -, h⟩ | ⟨w, e, -, -, rfl⟩
  · rcases hostStep_storage h with hs | ⟨u, rfl⟩
    · exact .kept hs.heap
    · exact .emptied rfl (Nat.zero_le _)
  · exact exec_heapEffect h
  · exact .kept rfl

end Sys2Proof.Machine
end

section
/-! PROOFS. The heap property through every heap operation and through the whole of BUILD_TREE (O56). -/

namespace Sys2Proof.Machine

/-! ## One insert, one extract -/

/-- What an insert into a heap that is not full gives. -/
structure Heap.InsertOf (h : Heap) (x : HeapItem) (h' : Heap) : Prop where
  bounded : h'.bounded
  live : h'.live.Perm (x :: h.live)
  size : h'.size.toNat = h.size.toNat + 1
  cap : h'.cap = h.cap
  ordered : h.ordered → h'.ordered

theorem insert_insertOf {h h' : Heap} {x : HeapItem} (hb : h.bounded) (hi : h.insert x = some h') :
    h.InsertOf x h' := by
  rcases insert_cases x h with ⟨-, e⟩ | ⟨hc, e⟩ <;> rw [hi] at e <;> cases e
  obtain ⟨hs, hlt, hcap⟩ := insert_size hb hc
  refine ⟨⟨?_, hcap⟩, ?_, hs, rfl, fun ho => ?_⟩
  · show (h.size + 1#9).toNat ≤ h.cap.toNat
    omega
  · rw [live_eq_entries, hs]
    exact insert_entries x hb hc
  · rw [ordered_iff, hs]
    exact insert_ordered x hb hc ho

/-- What an extract from a heap that is not empty gives. -/
structure Heap.ExtractOf (h : Heap) (x : HeapItem) (h' : Heap) : Prop where
  bounded : h'.bounded
  live : h.live.Perm (x :: h'.live)
  size : h.size.toNat = h'.size.toNat + 1
  cap : h'.cap = h.cap
  ordered : h.ordered → h'.ordered

theorem extract_extractOf {h h' : Heap} {x : HeapItem} (hb : h.bounded) (he : h.extract = some (x, h')) :
    h.ExtractOf x h' := by
  rcases extract_cases h with ⟨-, e⟩ | ⟨hz, e⟩ <;> rw [he] at e <;> cases e
  obtain ⟨hs, hpos⟩ := extract_size hz
  obtain ⟨h1, h2⟩ := hb
  refine ⟨⟨?_, h2⟩, ?_, ?_, rfl, fun ho => ?_⟩
  · show (h.size - 1#9).toNat ≤ h.cap.toNat
    omega
  · show h.live.Perm (_ :: entries (h.removeRoot (h.size.toNat - 1)) (h.size - 1#9).toNat)
    rw [hs]
    exact removeRoot_entries ⟨h1, h2⟩ hz
  · show h.size.toNat = (h.size - 1#9).toNat + 1
    omega
  · rw [ordered_iff, hs]
    exact removeRoot_ordered ⟨h1, h2⟩ ho

theorem ordered_of_size_zero {h : Heap} (hz : h.size = 0#9) : h.ordered := fun i _ hi => by simp [hz] at hi

/-! ## The build's heap -/

/-- A property of heaps that every insert and every extract keeps. -/
structure HeapInvariant (P : Heap → Prop) : Prop where
  insert : ∀ {h x h'}, P h → h.insert x = some h' → P h'
  extract : ∀ {h x h'}, P h → h.extract = some (x, h') → P h'

namespace HeapInvariant

variable {P : Heap → Prop} (hP : HeapInvariant P)
include hP

theorem buildInsert {b : Build} (h : P b.heap) (key : Word) : P (b.insert key) := by
  unfold Build.insert
  cases hi : b.heap.insert ⟨key, BitVec.ofNat 16 b.n⟩ with
  | none => exact h
  | some h' => exact hP.insert h hi

theorem addLeaves (freq : Vector Word Config.symbols) (vs : List Nat) {b : Build} (h : P b.heap) :
    P (vs.foldl (Build.addLeaf freq) b).heap := by
  induction vs generalizing b with
  | nil => exact h
  | cons v vs ih => exact ih (hP.buildInsert h _)

theorem merge {b : Build} (h : P b.heap) : P b.merge.heap := by
  rcases merge_cases b with ⟨l, h1, r, h2, hl, hr, e⟩ | e <;> rw [e]
  · exact hP.buildInsert (b := { b with heap := h2 }) (hP.extract (hP.extract h hl) hr) _
  · exact h

theorem mergeAll (fuel : Nat) {b : Build} (h : P b.heap) : P (b.mergeAll fuel).heap := by
  induction fuel generalizing b with
  | zero => exact h
  | succ fuel ih =>
    unfold Build.mergeAll
    split
    · exact ih (hP.merge h)
    · exact h

theorem takeRoot {b : Build} (h : P b.heap) : P b.takeRoot.2 := by
  unfold Build.takeRoot
  cases he : b.heap.extract with
  | none => exact h
  | some y => exact hP.extract h he

/-- What holds of BUILD_TREE's fresh heap and is kept by insert and extract holds of the heap it leaves. -/
theorem builtTree (s : State) (h : P s.startBuild.heap) : P s.builtTree.heap :=
  hP.takeRoot (hP.mergeAll _ (hP.addLeaves _ _ h))

end HeapInvariant

theorem heapInvariant_bounded : HeapInvariant Heap.bounded :=
  ⟨fun h hi => (insert_insertOf h hi).bounded, fun h he => (extract_extractOf h he).bounded⟩

theorem heapInvariant_ordered : HeapInvariant fun h => h.bounded ∧ h.ordered where
  insert h hi := ⟨heapInvariant_bounded.insert h.1 hi, (insert_insertOf h.1 hi).ordered h.2⟩
  extract h he := ⟨heapInvariant_bounded.extract h.1 he, (extract_extractOf h.1 he).ordered h.2⟩

/-- BUILD_TREE's heap has capacity min(MSG_LEN, 256) (41_tree_builder.md R172). -/
theorem startBuild_cap (s : State) : s.startBuild.heap.cap.toNat = min s.msgLen.toNat 256 := by
  show (BitVec.ofNat 9 (min s.msgLen.toNat 256)).toNat = _
  rw [BitVec.toNat_ofNat]
  omega

theorem startBuild_bounded (s : State) : s.startBuild.heap.bounded :=
  ⟨Nat.zero_le _, by rw [startBuild_cap]; exact Nat.min_le_right _ _⟩

/-- Settles O56 by what a step does to the heap, BUILD_TREE by its inserts and extracts from an empty heap. -/
theorem stepKeepsTheHeapProperty : Obligations.StepKeepsTheHeapProperty := by
  intro s t hb ho h
  cases step_heapEffect h with
  | kept heap => rwa [heap]
  | emptied size _ => exact ordered_of_size_zero size
  | inserted x heap => exact (insert_insertOf hb heap).ordered ho
  | extracted x heap => exact (extract_extractOf hb heap).ordered ho
  | built heap =>
    rw [heap]
    exact (heapInvariant_ordered.builtTree s ⟨startBuild_bounded s, ordered_of_size_zero rfl⟩).2

end Sys2Proof.Machine
end

section
/-! PROOFS. The arena as a graph of links: what it takes for its entries to be one tree (10_state.md R58). Both
BUILD_TREE, which makes children before parents, and DESERIALIZE_TREE, which makes parents first, keep it (O58). -/

namespace Sys2Proof.Machine

/-! ## Links -/

/-- A link field as the entry it names, none for NONE (00_scope.md R12). -/
def linkOf (c : NodeIndex) : Option Nat := if c = Config.noNode then none else some c.toNat

/-- An arena's entries. -/
abbrev Entries : Type := Vector Node Config.nodeSlots

def leftLink (nodes : Entries) (i : Nat) : Option Nat := linkOf (tableGet nodes i).left

def rightLink (nodes : Entries) (i : Nat) : Option Nat := linkOf (tableGet nodes i).right

def parentLink (nodes : Entries) (i : Nat) : Option Nat := linkOf (tableGet nodes i).parent

@[simp] theorem linkOf_noNode : linkOf Config.noNode = none := rfl

theorem linkOf_eq_none {c : NodeIndex} : linkOf c = none ↔ c = Config.noNode := by
  unfold linkOf; split <;> simp_all

theorem linkOf_of_ne {c : NodeIndex} (h : c ≠ Config.noNode) : linkOf c = some c.toNat := if_neg h

theorem ofNat_toNat_of_lt {i : Nat} (h : i < 511) : (BitVec.ofNat 9 i).toNat = i := by
  rw [BitVec.toNat_ofNat]; omega

theorem ofNat_ne_noNode {i : Nat} (h : i < 511) : BitVec.ofNat 9 i ≠ Config.noNode := fun e => by
  have : i = 511 := (ofNat_toNat_of_lt h).symm.trans (congrArg BitVec.toNat e)
  omega

theorem linkOf_ofNat {i : Nat} (h : i < 511) : linkOf (BitVec.ofNat 9 i) = some i := by
  rw [linkOf_of_ne (ofNat_ne_noNode h), ofNat_toNat_of_lt h]

theorem eq_ofNat_of_linkOf {c : NodeIndex} {i : Nat} (h : linkOf c = some i) : c = BitVec.ofNat 9 i := by
  unfold linkOf at h
  split at h <;> cases h
  simp

section
variable (nodes : Entries) (i j : Nat) (x : Node) (q : NodeIndex)

theorem leftLink_tableSet :
    leftLink (tableSet nodes i x) j = if i = j ∧ i < 511 then linkOf x.left else leftLink nodes j := by
  rw [leftLink, tableGet_tableSet]; split <;> rfl

theorem rightLink_tableSet :
    rightLink (tableSet nodes i x) j = if i = j ∧ i < 511 then linkOf x.right else rightLink nodes j := by
  rw [rightLink, tableGet_tableSet]; split <;> rfl

theorem parentLink_tableSet :
    parentLink (tableSet nodes i x) j = if i = j ∧ i < 511 then linkOf x.parent else parentLink nodes j := by
  rw [parentLink, tableGet_tableSet]; split <;> rfl

theorem kind_tableSet :
    (tableGet (tableSet nodes i x) j).kind = if i = j ∧ i < 511 then x.kind else (tableGet nodes j).kind := by
  rw [tableGet_tableSet]; split <;> rfl

@[simp] theorem leftLink_setParent : leftLink (setParent nodes i q) j = leftLink nodes j := by
  rw [setParent, leftLink_tableSet]; split
  · rename_i h; rw [← h.1]; rfl
  · rfl

@[simp] theorem rightLink_setParent : rightLink (setParent nodes i q) j = rightLink nodes j := by
  rw [setParent, rightLink_tableSet]; split
  · rename_i h; rw [← h.1]; rfl
  · rfl

theorem parentLink_setParent :
    parentLink (setParent nodes i q) j = if i = j ∧ i < 511 then linkOf q else parentLink nodes j := by
  rw [setParent, parentLink_tableSet]

@[simp] theorem kind_setParent : (tableGet (setParent nodes i q) j).kind = (tableGet nodes j).kind := by
  rw [setParent, kind_tableSet]; split
  · rename_i h; rw [← h.1]
  · rfl

end

/-! ## Wired entries -/

/-- The first `n` entries are wired: links go both ways, no child is linked twice, and links downward lower the rank,
so there is no cycle. -/
structure Wired (nodes : Entries) (n : Nat) (rank : Nat → Nat) : Prop where
  leaf : ∀ i, i < n → (tableGet nodes i).kind = .leaf → leftLink nodes i = none ∧ rightLink nodes i = none
  child : ∀ i c, i < n → leftLink nodes i = some c ∨ rightLink nodes i = some c →
    c < n ∧ rank c < rank i ∧ parentLink nodes c = some i
  distinct : ∀ i c, i < n → leftLink nodes i = some c → rightLink nodes i ≠ some c
  parent : ∀ i p, i < n → parentLink nodes i = some p →
    p < n ∧ (leftLink nodes p = some i ∨ rightLink nodes p = some i)

/-- The first `n` entries have no empty child slot in an internal node. -/
def Complete (nodes : Entries) (n : Nat) : Prop :=
  ∀ i, i < n → (tableGet nodes i).kind = .internal → leftLink nodes i ≠ none ∧ rightLink nodes i ≠ none

/-- Entry `root` is the only one of the first `n` without a parent. -/
def RootedAt (nodes : Entries) (n root : Nat) : Prop := ∀ i, i < n → (parentLink nodes i = none ↔ i = root)

theorem wired_zero (nodes : Entries) (rank : Nat → Nat) : Wired nodes 0 rank :=
  ⟨nofun, nofun, nofun, nofun⟩

/-- One entry more, without links. -/
theorem Wired.push {nodes nodes' : Entries} {n : Nat} {rank : Nat → Nat} (h : Wired nodes n rank)
    (hleft : leftLink nodes' n = none) (hright : rightLink nodes' n = none) (hparent : parentLink nodes' n = none)
    (hsame : ∀ i, i < n → tableGet nodes' i = tableGet nodes i) : Wired nodes' (n + 1) rank := by
  have hl : ∀ i, i < n → leftLink nodes' i = leftLink nodes i := fun i hi => by rw [leftLink, hsame i hi, leftLink]
  have hr : ∀ i, i < n → rightLink nodes' i = rightLink nodes i := fun i hi => by rw [rightLink, hsame i hi, rightLink]
  have hp : ∀ i, i < n → parentLink nodes' i = parentLink nodes i := fun i hi => by
    rw [parentLink, hsame i hi, parentLink]
  obtain ⟨hleaf, hchild, hdistinct, hup⟩ := h
  constructor <;> grind

/-- One entry more, the parent of two entries that had none. -/
theorem Wired.join {nodes nodes' : Entries} {n l r : Nat} {rank : Nat → Nat} (h : Wired nodes n rank)
    (hl : l < n) (hr : r < n) (hlr : l ≠ r) (hrank : ∀ i, i < n → rank i < rank n)
    (hkind : ∀ i, (tableGet nodes' i).kind = if i = n then .internal else (tableGet nodes i).kind)
    (hleft : ∀ i, leftLink nodes' i = if i = n then some l else leftLink nodes i)
    (hright : ∀ i, rightLink nodes' i = if i = n then some r else rightLink nodes i)
    (hparent : ∀ i, parentLink nodes' i =
      if i = n then none else if i = l ∨ i = r then some n else parentLink nodes i)
    (hrootl : parentLink nodes l = none) (hrootr : parentLink nodes r = none) : Wired nodes' (n + 1) rank := by
  obtain ⟨hleaf, hchild, hdistinct, hup⟩ := h
  constructor <;> grind

/-- One entry more, the child of an internal entry with an empty slot. -/
theorem Wired.attach {nodes nodes' : Entries} {n p : Nat} {rank : Nat → Nat} (h : Wired nodes n rank)
    (hp : p < n) (hrank : rank n < rank p) (hpkind : (tableGet nodes p).kind = .internal)
    (hkind : ∀ i, i < n → (tableGet nodes' i).kind = (tableGet nodes i).kind)
    (hparent : ∀ i, parentLink nodes' i = if i = n then some p else parentLink nodes i)
    (hleft : ∀ i, leftLink nodes' i = if i = n then none else
      if i = p ∧ leftLink nodes p = none then some n else leftLink nodes i)
    (hright : ∀ i, rightLink nodes' i = if i = n then none else
      if i = p ∧ leftLink nodes p ≠ none then some n else rightLink nodes i)
    (hopen : leftLink nodes p = none ∨ rightLink nodes p = none) : Wired nodes' (n + 1) rank := by
  obtain ⟨hleaf, hchild, hdistinct, hup⟩ := h
  constructor <;> grind

/-- One leaf more leaves no empty slot. -/
theorem Complete.push {nodes nodes' : Entries} {n : Nat} (h : Complete nodes n)
    (hkind : (tableGet nodes' n).kind = .leaf) (hsame : ∀ i, i < n → tableGet nodes' i = tableGet nodes i) :
    Complete nodes' (n + 1) := by
  intro i hi hk
  by_cases hin : i = n
  · rw [hin, hkind] at hk; cases hk
  · have hlt : i < n := by omega
    rw [hsame i hlt] at hk
    rw [leftLink, rightLink, hsame i hlt]
    exact h i hlt hk

/-- One entry more with both children leaves no empty slot. -/
theorem Complete.join {nodes nodes' : Entries} {n l r : Nat} (h : Complete nodes n)
    (hkind : ∀ i, (tableGet nodes' i).kind = if i = n then .internal else (tableGet nodes i).kind)
    (hleft : ∀ i, leftLink nodes' i = if i = n then some l else leftLink nodes i)
    (hright : ∀ i, rightLink nodes' i = if i = n then some r else rightLink nodes i) : Complete nodes' (n + 1) := by
  intro i hi hk
  rw [hleft, hright]
  by_cases hin : i = n
  · simp [hin]
  · rw [hkind, if_neg hin] at hk
    rw [if_neg hin, if_neg hin]
    exact h i (by omega) hk

/-! ## Trees that stand in the arena -/

/-- The nodes of a tree are entries of the arena, linked downward as in the tree. -/
def Tree.standsIn (nodes : Entries) (n : Nat) : Tree → Prop
  | .leaf i v => i < n ∧ (tableGet nodes i).kind = .leaf ∧ (tableGet nodes i).value = v
  | .node i l r => i < n ∧ (tableGet nodes i).kind = .internal ∧ leftLink nodes i = some l.idx ∧
      rightLink nodes i = some r.idx ∧ l.standsIn nodes n ∧ r.standsIn nodes n

section
variable {nodes : Entries} {n : Nat} {rank : Nat → Nat}

/-- Below every entry of complete wired entries stands a tree. -/
theorem Wired.exists_tree (h : Wired nodes n rank) (hc : Complete nodes n) {i : Nat} (hi : i < n) :
    ∃ T : Tree, T.standsIn nodes n ∧ T.idx = i := by
  induction hr : rank i using Nat.strong_induction_on generalizing i with
  | _ k ih =>
    cases hk : (tableGet nodes i).kind with
    | leaf => exact ⟨.leaf i (tableGet nodes i).value, ⟨hi, hk, rfl⟩, rfl⟩
    | internal =>
      obtain ⟨hl, hr'⟩ := hc i hi hk
      obtain ⟨l, hl⟩ := Option.ne_none_iff_exists'.mp hl
      obtain ⟨r, hr'⟩ := Option.ne_none_iff_exists'.mp hr'
      obtain ⟨hln, hlr, -⟩ := h.child i l hi (.inl hl)
      obtain ⟨hrn, hrr, -⟩ := h.child i r hi (.inr hr')
      obtain ⟨L, hL, rfl⟩ := ih _ (hr ▸ hlr) hln rfl
      obtain ⟨R, hR, rfl⟩ := ih _ (hr ▸ hrr) hrn rfl
      exact ⟨.node i L R, ⟨hi, hk, hl, hr', hL, hR⟩, rfl⟩

theorem Tree.idx_mem_indices (T : Tree) : T.idx ∈ T.indices := by
  cases T <;> simp [Tree.idx, Tree.indices]

theorem Tree.standsIn.idx_lt {T : Tree} (hT : T.standsIn nodes n) : T.idx < n := by
  cases T <;> exact hT.1

/-- What the nodes of a standing tree are: entries in use, of no greater rank than the root. -/
theorem Wired.mem_indices (h : Wired nodes n rank) {T : Tree} (hT : T.standsIn nodes n) {j : Nat}
    (hj : j ∈ T.indices) : j < n ∧ rank j ≤ rank T.idx := by
  induction T with
  | leaf i v => obtain rfl := List.mem_singleton.mp hj; exact ⟨hT.1, le_refl _⟩
  | node i l r ihl ihr =>
    obtain ⟨hi, -, hl, hr, hL, hR⟩ := hT
    rcases List.mem_cons.mp hj with rfl | hj
    · exact ⟨hi, le_refl _⟩
    · rcases List.mem_append.mp hj with hj | hj
      · have := (h.child i _ hi (.inl hl)).2.1
        have := ihl hL hj
        exact ⟨this.1, by simp only [Tree.idx] at *; omega⟩
      · have := (h.child i _ hi (.inr hr)).2.1
        have := ihr hR hj
        exact ⟨this.1, by simp only [Tree.idx] at *; omega⟩

/-- A node of a standing tree other than its root has its parent in the tree. -/
theorem Wired.parent_mem_indices (h : Wired nodes n rank) {T : Tree} (hT : T.standsIn nodes n) {j : Nat}
    (hj : j ∈ T.indices) (hne : j ≠ T.idx) : ∃ p ∈ T.indices, parentLink nodes j = some p := by
  induction T with
  | leaf i v => exact absurd (List.mem_singleton.mp hj) hne
  | node i l r ihl ihr =>
    obtain ⟨hi, -, hl, hr, hL, hR⟩ := hT
    rcases List.mem_cons.mp hj with rfl | hj
    · exact absurd rfl hne
    · rcases List.mem_append.mp hj with hj | hj
      · by_cases e : j = l.idx
        · exact ⟨i, by simp [Tree.indices], e ▸ (h.child i _ hi (.inl hl)).2.2⟩
        · obtain ⟨p, hp, e⟩ := ihl hL hj e
          exact ⟨p, by simp [Tree.indices, hp], e⟩
      · by_cases e : j = r.idx
        · exact ⟨i, by simp [Tree.indices], e ▸ (h.child i _ hi (.inr hr)).2.2⟩
        · obtain ⟨p, hp, e⟩ := ihr hR hj e
          exact ⟨p, by simp [Tree.indices, hp], e⟩

/-- The children of a node of a standing tree are nodes of the tree. -/
theorem Wired.child_mem_indices (h : Wired nodes n rank) {T : Tree} (hT : T.standsIn nodes n) {j c : Nat}
    (hj : j ∈ T.indices) (hc : leftLink nodes j = some c ∨ rightLink nodes j = some c) : c ∈ T.indices := by
  induction T with
  | leaf i v =>
    obtain rfl := List.mem_singleton.mp hj
    obtain ⟨hl, hr⟩ := h.leaf _ hT.1 hT.2.1
    simp [hl, hr] at hc
  | node i l r ihl ihr =>
    obtain ⟨hi, -, hl, hr, hL, hR⟩ := hT
    rcases List.mem_cons.mp hj with rfl | hj
    · rw [hl, hr] at hc
      rcases hc with hc | hc <;> cases hc <;> simp [Tree.indices, Tree.idx_mem_indices]
    · rcases List.mem_append.mp hj with hj | hj
      · simp [Tree.indices, ihl hL hj]
      · simp [Tree.indices, ihr hR hj]

/-- The root of a standing tree is no node of its sibling: its parent, which would be one too, has a greater rank. -/
theorem Wired.root_notMem_sibling (h : Wired nodes n rank) {r : Tree} (hR : r.standsIn nodes n) {i j : Nat}
    (hj : parentLink nodes j = some i) (hne : j ≠ r.idx) (hrank : rank r.idx < rank i) : j ∉ r.indices := fun hmem => by
  obtain ⟨p, hp, e⟩ := h.parent_mem_indices hR hmem hne
  obtain rfl : i = p := Option.some.inj (hj.symm.trans e)
  exact absurd (h.mem_indices hR hp).2 (by omega)

theorem Wired.rank_lt_parent (h : Wired nodes n rank) {j p : Nat} (hj : j < n) (hp : parentLink nodes j = some p) :
    p < n ∧ rank j < rank p := by
  obtain ⟨hpn, hc⟩ := h.parent j p hj hp
  exact ⟨hpn, (h.child p j hpn hc).2.1⟩

/-- Two siblings' trees share no node: the parent of a shared node, up to a root, would be shared too. -/
theorem Wired.disjoint_indices (h : Wired nodes n rank) {l r : Tree} (hL : l.standsIn nodes n)
    (hR : r.standsIn nodes n) {i : Nat} (hi : i < n) (hl : leftLink nodes i = some l.idx)
    (hr : rightLink nodes i = some r.idx) : l.indices.Disjoint r.indices := by
  obtain ⟨-, hlr, hlp⟩ := h.child i _ hi (.inl hl)
  obtain ⟨-, hrr, hrp⟩ := h.child i _ hi (.inr hr)
  have hne : l.idx ≠ r.idx := fun e => h.distinct i _ hi hl (e ▸ hr)
  intro j
  induction hk : rank i - rank j using Nat.strong_induction_on generalizing j with
  | _ k ih =>
    intro hjl hjr
    by_cases e : j = l.idx
    · exact h.root_notMem_sibling hR hlp hne hrr (e ▸ hjr)
    · by_cases e' : j = r.idx
      · exact h.root_notMem_sibling hL hrp hne.symm hlr (e' ▸ hjl)
      · obtain ⟨p, hpl, hp⟩ := h.parent_mem_indices hL hjl e
        obtain ⟨p', hpr, hp'⟩ := h.parent_mem_indices hR hjr e'
        obtain rfl : p = p' := Option.some.inj (hp.symm.trans hp')
        have hup := (h.rank_lt_parent (h.mem_indices hL hjl).1 hp).2
        have hle := (h.mem_indices hL hpl).2
        exact ih _ (by omega) rfl hpl hpr

theorem Wired.nodup_indices (h : Wired nodes n rank) {T : Tree} (hT : T.standsIn nodes n) : T.indices.Nodup := by
  induction T with
  | leaf i v => simp [Tree.indices]
  | node i l r ihl ihr =>
    obtain ⟨hi, -, hl, hr, hL, hR⟩ := hT
    refine List.nodup_cons.mpr ⟨fun hmem => ?_, (ihl hL).append (ihr hR) (h.disjoint_indices hL hR hi hl hr)⟩
    rcases List.mem_append.mp hmem with hmem | hmem
    · have := (h.child i _ hi (.inl hl)).2.1
      have := (h.mem_indices hL hmem).2
      omega
    · have := (h.child i _ hi (.inr hr)).2.1
      have := (h.mem_indices hR hmem).2
      omega

/-- The tree below the only root has every entry: each has its parent in the tree, up to the root. -/
theorem Wired.mem_indices_of_root (h : Wired nodes n rank) {T : Tree} (hT : T.standsIn nodes n)
    (hroot : RootedAt nodes n T.idx) {j : Nat} (hj : j < n) : j ∈ T.indices := by
  induction hk : (Finset.range n).sup rank - rank j using Nat.strong_induction_on generalizing j with
  | _ k ih =>
    cases hp : parentLink nodes j with
    | none => exact (hroot j hj).mp hp ▸ T.idx_mem_indices
    | some p =>
      obtain ⟨hpn, hup⟩ := h.rank_lt_parent hj hp
      have hle : rank p ≤ (Finset.range n).sup rank := Finset.le_sup (f := rank) (Finset.mem_range.mpr hpn)
      exact h.child_mem_indices hT (ih _ (by omega) hpn rfl) (h.parent j p hj hp).2

theorem Wired.indices_perm (h : Wired nodes n rank) {T : Tree} (hT : T.standsIn nodes n)
    (hroot : RootedAt nodes n T.idx) : T.indices.Perm (List.range n) :=
  (List.perm_ext_iff_of_nodup (h.nodup_indices hT) List.nodup_range).mpr fun _ =>
    ⟨fun hj => List.mem_range.mpr (h.mem_indices hT hj).1,
      fun hj => h.mem_indices_of_root hT hroot (List.mem_range.mp hj)⟩

/-! ## A standing tree is the one the block reads -/

/-- A tree of n leaves is read with n levels of fuel. -/
theorem Tree.standsIn.readTree_eq {T : Tree} (hT : T.standsIn nodes n) (hn : n ≤ 511) {fuel : Nat}
    (hf : T.leafCount ≤ fuel) : readTree nodes fuel (BitVec.ofNat 9 T.idx) = some T := by
  have hidx : T.idx < 511 := Nat.lt_of_lt_of_le hT.idx_lt hn
  have hne := ofNat_ne_noNode hidx
  have hto := ofNat_toNat_of_lt hidx
  have hpos := leafCount_pos T
  induction T generalizing fuel with
  | leaf i v =>
    obtain ⟨f, rfl⟩ : ∃ f, fuel = f + 1 := ⟨fuel - 1, by omega⟩
    obtain ⟨-, hk, hv⟩ := hT
    simp only [Tree.idx] at hto hne ⊢
    simp only [readTree, if_neg hne, hto, hk, hv]
  | node i l r ihl ihr =>
    obtain ⟨f, rfl⟩ : ∃ f, fuel = f + 1 := ⟨fuel - 1, by omega⟩
    obtain ⟨-, hk, hl, hr, hL, hR⟩ := hT
    have hlc := leafCount_pos l
    have hrc := leafCount_pos r
    have hln : l.idx < 511 := Nat.lt_of_lt_of_le hL.idx_lt hn
    have hrn : r.idx < 511 := Nat.lt_of_lt_of_le hR.idx_lt hn
    simp only [Tree.leafCount] at hf
    have el := ihl hL (fuel := f) (by omega) hln (ofNat_ne_noNode hln) (ofNat_toNat_of_lt hln) hlc
    have er := ihr hR (fuel := f) (by omega) hrn (ofNat_ne_noNode hrn) (ofNat_toNat_of_lt hrn) hrc
    simp only [Tree.idx] at hto hne ⊢
    simp only [readTree, if_neg hne, hto, hk, eq_ofNat_of_linkOf hl, eq_ofNat_of_linkOf hr, el, er]

/-- Wired entries link a standing tree upward as 10_state.md R58 says. -/
theorem Wired.linked (h : Wired nodes n rank) {T : Tree} (hT : T.standsIn nodes n) :
    T.linked nodes (tableGet nodes T.idx).parent := by
  induction T with
  | leaf i v =>
    obtain ⟨hl, hr⟩ := h.leaf i hT.1 hT.2.1
    exact ⟨rfl, linkOf_eq_none.mp hl, linkOf_eq_none.mp hr⟩
  | node i l r ihl ihr =>
    obtain ⟨hi, -, hl, hr, hL, hR⟩ := hT
    have el := eq_ofNat_of_linkOf (h.child i _ hi (.inl hl)).2.2
    have er := eq_ofNat_of_linkOf (h.child i _ hi (.inr hr)).2.2
    exact ⟨rfl, el ▸ ihl hL, er ▸ ihr hR⟩

/-- A standing tree's leaves are its entries of that kind. -/
theorem Tree.standsIn.leafCount_eq {T : Tree} (hT : T.standsIn nodes n) :
    T.leafCount = T.indices.countP fun i => (tableGet nodes i).kind == .leaf := by
  induction T with
  | leaf i v => simp [Tree.leafCount, Tree.indices, hT.2.1]
  | node i l r ihl ihr =>
    obtain ⟨-, hk, -, -, hL, hR⟩ := hT
    simp [Tree.leafCount, Tree.indices, hk, ihl hL, ihr hR]

end

/-- Complete wired entries with one root are the entries of one tree. -/
theorem Wired.exists_spanning {nodes : Entries} {n root : Nat} {rank : Nat → Nat} (h : Wired nodes n rank)
    (hc : Complete nodes n) (hroot : RootedAt nodes n root) (hrn : root < n) :
    ∃ T : Tree, T.standsIn nodes n ∧ T.idx = root ∧ T.indices.Perm (List.range n) ∧ n + 1 = 2 * T.leafCount := by
  obtain ⟨T, hT, rfl⟩ := h.exists_tree hc hrn
  have hperm := h.indices_perm hT hroot
  refine ⟨T, hT, rfl, hperm, ?_⟩
  rw [← indices_length T, hperm.length_eq, List.length_range]

/-- They are a held tree where the tree registers say so (10_state.md R58). -/
theorem Wired.holds {a : Arena} {n root : Nat} {rank : Nat → Nat} (h : Wired a.nodes n rank)
    (hc : Complete a.nodes n) (hroot : RootedAt a.nodes n root) (hn : n ≤ 511) (hrn : root < n)
    (haroot : a.root = BitVec.ofNat 9 root) (hcount : a.count.toNat = n)
    (hunique : n + 1 = 2 * a.unique.toNat) : ∃ T, a.holds T := by
  obtain ⟨T, hT, rfl, hperm, hleaves⟩ := h.exists_spanning hc hroot hrn
  have hfuel : T.leafCount ≤ 256 := by omega
  have htree : a.tree = some T := by
    rw [Arena.tree, haroot, hT.readTree_eq hn hfuel]
    simp [hfuel]
  have hlink := h.linked hT
  rw [linkOf_eq_none.mp ((hroot _ hrn).mpr rfl)] at hlink
  exact ⟨T, htree, hcount ▸ hperm, hlink, by omega, by omega⟩

/-- Half the entries and one are leaves. -/
theorem Wired.count_leaves {nodes : Entries} {n root : Nat} {rank : Nat → Nat} (h : Wired nodes n rank)
    (hc : Complete nodes n) (hroot : RootedAt nodes n root) (hrn : root < n) :
    n + 1 = 2 * (List.range n).countP fun i => (tableGet nodes i).kind == .leaf := by
  obtain ⟨T, hT, -, hperm, hleaves⟩ := h.exists_spanning hc hroot hrn
  rw [hleaves, hT.leafCount_eq, hperm.countP_eq]

end Sys2Proof.Machine
end

section
/-! PROOFS. BUILD_TREE's nodes through the leaves and the merges: the heap holds exactly the nodes without a parent
(O58; 41_tree_builder.md R172 to R175). -/

namespace Sys2Proof.Machine

/-! ## Heap steps that succeed -/

theorem exists_insert (x : HeapItem) {h : Heap} (hb : h.bounded) (hroom : h.size.toNat < h.cap.toNat) :
    ∃ h', h.insert x = some h' ∧ h.InsertOf x h' := by
  rcases insert_cases x h with ⟨e, -⟩ | ⟨-, e⟩
  · rw [e] at hroom; omega
  · exact ⟨_, e, insert_insertOf hb e⟩

theorem exists_extract {h : Heap} (hb : h.bounded) (hpos : 0 < h.size.toNat) :
    ∃ x h', h.extract = some (x, h') ∧ h.ExtractOf x h' := by
  rcases extract_cases h with ⟨e, -⟩ | ⟨-, e⟩
  · rw [e] at hpos; exact absurd hpos (by decide)
  · exact ⟨_, _, e, extract_extractOf hb e⟩

theorem live_length (h : Heap) : h.live.length = h.size.toNat := by simp [Heap.live]

/-! ## The invariant of the build -/

/-- The nodes named by a heap's items (10_state.md R55, 41_tree_builder.md R172). -/
def Heap.named (h : Heap) : List Nat := h.live.map fun x => x.tag.toNat

theorem Heap.InsertOf.named {h h' : Heap} {x : HeapItem} (hi : h.InsertOf x h') :
    h'.named.Perm (x.tag.toNat :: h.named) := hi.live.map _

theorem Heap.ExtractOf.named {h h' : Heap} {x : HeapItem} (he : h.ExtractOf x h') :
    h.named.Perm (x.tag.toNat :: h'.named) := he.live.map _

/-- The build in progress with `u` leaves made: its nodes are wired, children before parents, and the heap names those
without a parent, each once. -/
structure Build.Grown (b : Build) (u : Nat) : Prop where
  wired : Wired b.nodes b.n id
  complete : Complete b.nodes b.n
  bounded : b.heap.bounded
  nodup : b.heap.named.Nodup
  roots : ∀ i, i ∈ b.heap.named ↔ i < b.n ∧ parentLink b.nodes i = none
  count : b.n + b.heap.size.toNat = 2 * u

theorem startBuild_grown (s : State) : s.startBuild.Grown 0 where
  wired := wired_zero _ _
  complete := nofun
  bounded := startBuild_bounded s
  nodup := List.nodup_nil
  roots _ := ⟨nofun, nofun⟩
  count := rfl

/-- The item an insertion of the build puts in names the next node. -/
theorem buildInsert_insertOf {b : Build} (key : Word) (hb : b.heap.bounded)
    (hroom : b.heap.size.toNat < b.heap.cap.toNat) :
    b.heap.InsertOf ⟨key, BitVec.ofNat 16 b.n⟩ (b.insert key) := by
  obtain ⟨h', e, hi⟩ := exists_insert ⟨key, BitVec.ofNat 16 b.n⟩ hb hroom
  rw [Build.insert, e]
  exact hi

theorem tag_toNat {n : Nat} (h : n < 511) : (BitVec.ofNat 16 n).toNat = n := by
  rw [BitVec.toNat_ofNat]; omega

/-- A leaf more, while the heap has room. -/
theorem Build.Grown.addLeaf {b : Build} {u : Nat} (h : b.Grown u) (freq : Vector Word Config.symbols) (v : Nat)
    (hn : b.n < 511) (hroom : b.heap.size.toNat < b.heap.cap.toNat) : (b.addLeaf freq v).Grown (u + 1) := by
  obtain ⟨hwired, hcomplete, hb, hnodup, hroots, hcount⟩ := h
  have hi := buildInsert_insertOf (tableGet freq v) hb hroom
  have hnamed := hi.named
  rw [tag_toNat hn] at hnamed
  have hparent : ∀ i, parentLink (b.addLeaf freq v).nodes i = if i = b.n then none else parentLink b.nodes i := by
    intro i
    simp [Build.addLeaf, parentLink_tableSet, hn, eq_comm]
  have hkind : ∀ i, (tableGet (b.addLeaf freq v).nodes i).kind =
      if i = b.n then .leaf else (tableGet b.nodes i).kind := by
    intro i
    simp [Build.addLeaf, kind_tableSet, hn, eq_comm]
  have hsame : ∀ i, i < b.n → tableGet (b.addLeaf freq v).nodes i = tableGet b.nodes i := fun i hlt =>
    tableGet_tableSet_other _ _ (by omega)
  constructor
  case wired =>
    exact hwired.push (by simp [Build.addLeaf, leftLink_tableSet, hn])
      (by simp [Build.addLeaf, rightLink_tableSet, hn]) (by simp [hparent]) hsame
  case complete => exact hcomplete.push (by simp [hkind]) hsame
  case bounded => exact hi.bounded
  case nodup =>
    refine hnamed.nodup_iff.mpr (List.nodup_cons.mpr ⟨fun hmem => ?_, hnodup⟩)
    have := ((hroots _).mp hmem).1
    omega
  case roots =>
    intro i
    show i ∈ Heap.named (b.insert (tableGet freq v)) ↔ i < b.n + 1 ∧ _
    rw [hnamed.mem_iff, List.mem_cons, hroots, hparent]
    grind
  case count =>
    have := hi.size
    show b.n + 1 + (b.insert (tableGet freq v)).size.toNat = _
    omega

/-! ## One merge -/

theorem linkOf_tag {t : Tag} (h : t.toNat < 511) : linkOf (t.setWidth 9) = some t.toNat := by
  rw [← BitVec.ofNat_toNat, linkOf_ofNat h]

section
variable {b : Build} {l r : HeapItem} {h : Heap} (hn : b.n < 511) (hl : l.tag.toNat < b.n) (hr : r.tag.toNat < b.n)
include hn

theorem join_kind (i : Nat) : (tableGet (b.join l r h).nodes i).kind =
    if i = b.n then .internal else (tableGet b.nodes i).kind := by
  simp [Build.join, kind_tableSet, hn, eq_comm]

include hl in
theorem join_leftLink (i : Nat) : leftLink (b.join l r h).nodes i =
    if i = b.n then some l.tag.toNat else leftLink b.nodes i := by
  simp [Build.join, leftLink_tableSet, hn, eq_comm, linkOf_tag (Nat.lt_trans hl hn)]

include hr in
theorem join_rightLink (i : Nat) : rightLink (b.join l r h).nodes i =
    if i = b.n then some r.tag.toNat else rightLink b.nodes i := by
  simp [Build.join, rightLink_tableSet, hn, eq_comm, linkOf_tag (Nat.lt_trans hr hn)]

include hl hr in
theorem join_parentLink (i : Nat) : parentLink (b.join l r h).nodes i =
    if i = b.n then none else if i = l.tag.toNat ∨ i = r.tag.toNat then some b.n else parentLink b.nodes i := by
  simp only [Build.join, parentLink_setParent, parentLink_tableSet, linkOf_ofNat hn, linkOf_noNode]
  grind

end

/-- What a merge inserts names its own node. -/
theorem join_insertOf {b : Build} (l r : HeapItem) {h : Heap} (hb : h.bounded) (hroom : h.size.toNat < h.cap.toNat) :
    h.InsertOf ⟨l.key + r.key, BitVec.ofNat 16 b.n⟩ (b.join l r h).heap :=
  buildInsert_insertOf (b := { b with heap := h }) _ hb hroom

/-- The parent of the two nodes extracted first keeps the invariant. -/
theorem Build.Grown.join {b : Build} {u : Nat} {l r : HeapItem} {h1 h2 : Heap} (h : b.Grown u) (hu : u ≤ 256)
    (hx1 : b.heap.ExtractOf l h1) (hx2 : h1.ExtractOf r h2) :
    (b.join l r h2).Grown u ∧ (b.join l r h2).heap.size.toNat + 1 = b.heap.size.toNat := by
  obtain ⟨hwired, hcomplete, hb, hnodup, hroots, hcount⟩ := h
  have hs1 := hx1.size
  have hs2 := hx2.size
  have hn : b.n < 511 := by omega
  have hi := join_insertOf (b := b) l r hx2.bounded (by rw [hx2.cap, hx1.cap]; have := hb.1; omega)
  have hsi := hi.size
  have hnamed := hi.named
  rw [tag_toNat hn] at hnamed
  have hperm : b.heap.named.Perm (l.tag.toNat :: r.tag.toNat :: h2.named) := hx1.named.trans (hx2.named.cons _)
  have hmem : ∀ i, i = l.tag.toNat ∨ i = r.tag.toNat ∨ i ∈ h2.named ↔ i < b.n ∧ parentLink b.nodes i = none := by
    intro i
    rw [← hroots, hperm.mem_iff, List.mem_cons, List.mem_cons]
  obtain ⟨hl, hlroot⟩ := (hmem _).mp (.inl rfl)
  obtain ⟨hr, hrroot⟩ := (hmem _).mp (.inr (.inl rfl))
  have hnd := hperm.nodup_iff.mp hnodup
  simp only [List.nodup_cons, List.mem_cons, not_or] at hnd
  obtain ⟨⟨hlr, hlrest⟩, hrrest, hrest⟩ := hnd
  have hparent := join_parentLink (h := h2) hn hl hr
  refine ⟨?_, by omega⟩
  constructor
  case wired =>
    exact hwired.join hl hr hlr (fun _ hi => hi) (join_kind hn) (join_leftLink hn hl) (join_rightLink hn hr) hparent
      hlroot hrroot
  case complete => exact hcomplete.join (join_kind hn) (join_leftLink hn hl) (join_rightLink hn hr)
  case bounded => exact hi.bounded
  case nodup =>
    refine hnamed.nodup_iff.mpr (List.nodup_cons.mpr ⟨fun hin => ?_, hrest⟩)
    exact Nat.lt_irrefl _ ((hmem _).mp (.inr (.inr hin))).1
  case roots =>
    intro i
    show _ ↔ i < b.n + 1 ∧ _
    rw [hnamed.mem_iff, List.mem_cons, hparent]
    grind
  case count =>
    show b.n + 1 + _ = _
    omega

theorem Build.Grown.merge {b : Build} {u : Nat} (h : b.Grown u) (hu : u ≤ 256) (hsize : 1 < b.heap.size.toNat) :
    b.merge.Grown u ∧ b.merge.heap.size.toNat + 1 = b.heap.size.toNat := by
  obtain ⟨l, h1, e1, hx1⟩ := exists_extract h.bounded (by omega)
  have hs1 := hx1.size
  obtain ⟨r, h2, e2, hx2⟩ := exists_extract hx1.bounded (by omega)
  have hmerge : b.merge = b.join l r h2 := by rw [Build.merge, e1]; simp only [e2]
  exact hmerge ▸ h.join hu hx1 hx2

/-! ## The whole build -/

/-- The leaves, as many as the heap has room for. -/
theorem Build.Grown.addLeaves (freq : Vector Word Config.symbols) (vs : List Nat) {b : Build} (h : b.Grown b.n)
    (hroom : b.n + vs.length ≤ b.heap.cap.toNat) :
    (vs.foldl (Build.addLeaf freq) b).Grown (b.n + vs.length) ∧ (vs.foldl (Build.addLeaf freq) b).n = b.n + vs.length := by
  induction vs generalizing b with
  | nil => exact ⟨h, rfl⟩
  | cons v vs ih =>
    simp only [List.length_cons] at hroom
    have hcap : b.heap.cap.toNat ≤ 256 := h.bounded.2
    have hcount := h.count
    have hfits : b.heap.size.toNat < b.heap.cap.toNat := by omega
    have hi := buildInsert_insertOf (tableGet freq v) h.bounded hfits
    have hcap' : (b.addLeaf freq v).heap.cap = b.heap.cap := hi.cap
    have := ih (b := b.addLeaf freq v) (h.addLeaf freq v (by omega) hfits)
      (by rw [hcap']; show b.n + 1 + vs.length ≤ _; omega)
    rwa [show (b.addLeaf freq v).n + vs.length = b.n + (v :: vs).length by simp [Build.addLeaf]; omega] at this

/-- The merges, down to one item. -/
theorem Build.Grown.mergeAll {b : Build} {u fuel : Nat} (h : b.Grown u) (hu : u ≤ 256) (hpos : 0 < b.heap.size.toNat)
    (hf : b.heap.size.toNat ≤ fuel + 1) : (b.mergeAll fuel).Grown u ∧ (b.mergeAll fuel).heap.size.toNat = 1 := by
  induction fuel generalizing b with
  | zero => exact ⟨h, by show b.heap.size.toNat = 1; omega⟩
  | succ fuel ih =>
    unfold Build.mergeAll
    split
    · rename_i hs
      obtain ⟨hm, hms⟩ := h.merge hu hs
      exact ih hm (by omega) (by omega)
    · exact ⟨h, by omega⟩

theorem message_length (s : State) : s.message.length = s.msgLen.toNat := by simp [State.message]

/-- The values the leaves are made for are those of the message (41_tree_builder.md R172). -/
theorem mem_presentSymbols {m : List Byte} (hm : m.length < 2 ^ 32) (v : Nat) :
    v ∈ presentSymbols (tally m) ↔ v < 256 ∧ BitVec.ofNat 8 v ∈ m := by
  simp only [presentSymbols, List.mem_filter, List.mem_range, bne_iff_ne]
  refine and_congr_right fun hv => ?_
  have hcount := tally_count m hm (BitVec.ofNat 8 v)
  rw [BitVec.toNat_ofNat, Nat.mod_eq_of_lt hv] at hcount
  rw [← List.count_pos_iff, ← hcount, Nat.pos_iff_ne_zero, Ne, Ne, ← BitVec.toNat_inj]
  rfl

/-- There is a leaf, and no more leaves than the heap's capacity (41_tree_builder.md R178). -/
theorem presentSymbols_length {m : List Byte} (hm : m.length < 2 ^ 32) (h0 : 0 < m.length) :
    0 < (presentSymbols (tally m)).length ∧ (presentSymbols (tally m)).length ≤ min m.length 256 := by
  refine ⟨?_, le_min ?_ ?_⟩
  · obtain ⟨b, hb⟩ := List.exists_mem_of_length_pos h0
    exact List.length_pos_of_mem ((mem_presentSymbols hm b.toNat).mpr ⟨b.isLt, by simpa using hb⟩)
  · have hinj : ((presentSymbols (tally m)).map (BitVec.ofNat 8)).Nodup := by
      refine List.Nodup.map_on (fun v hv w hw e => ?_) (List.nodup_range.filter _)
      have hv' := ((mem_presentSymbols hm v).mp hv).1
      have hw' := ((mem_presentSymbols hm w).mp hw).1
      have := congrArg BitVec.toNat e
      simp only [BitVec.toNat_ofNat] at this
      omega
    have hsub : ((presentSymbols (tally m)).map (BitVec.ofNat 8)) ⊆ m := fun b hb => by
      obtain ⟨v, hv, rfl⟩ := List.mem_map.mp hb
      exact ((mem_presentSymbols hm v).mp hv).2
    simpa using (hinj.subperm hsub).length_le
  · exact (List.length_filter_le _ _).trans (by simp)

section
variable {s : State} (h0 : s.msgLen ≠ 0#32) (h1 : s.msgLen.toNat ≤ 65536)
include h0 h1

/-- BUILD_TREE's leaves: one for each value of the message. -/
theorem buildLeaves_grown : s.buildLeaves.Grown s.buildLeaves.n ∧ 0 < s.buildLeaves.n ∧ s.buildLeaves.n ≤ 256 := by
  have hlen := message_length s
  have hpos : s.msgLen.toNat ≠ 0 := fun e => h0 (BitVec.eq_of_toNat_eq e)
  obtain ⟨hu0, hu⟩ := presentSymbols_length (m := s.message) (by omega) (by omega)
  have hroom : s.startBuild.n + (presentSymbols (tally s.message)).length ≤ s.startBuild.heap.cap.toNat := by
    rw [startBuild_cap, ← hlen]
    exact (Nat.zero_add _).trans_le hu
  obtain ⟨hg, hn⟩ := (startBuild_grown s).addLeaves (tally s.message) _ hroom
  have hn' : s.buildLeaves.n = (presentSymbols (tally s.message)).length := hn.trans (Nat.zero_add _)
  exact ⟨by rw [hn']; simpa [State.buildLeaves, State.startBuild] using hg, by omega, by omega⟩

/-- BUILD_TREE's nodes: one item is left, and twice as many nodes as leaves but one. -/
theorem buildMerged_grown : s.buildMerged.Grown s.buildLeaves.n ∧ s.buildMerged.heap.size.toNat = 1 := by
  obtain ⟨hg, hpos, hu⟩ := buildLeaves_grown h0 h1
  have hcount := hg.count
  exact hg.mergeAll hu (by omega) (by omega)

/-- The tree BUILD_TREE leaves meets the tree invariant (41_tree_builder.md R175). -/
theorem builtTree_holds : ∃ T, s.builtTree.arena.holds T := by
  obtain ⟨hg, hsize⟩ := buildMerged_grown h0 h1
  obtain ⟨-, hpos, hu⟩ := buildLeaves_grown h0 h1
  have hcount := hg.count
  obtain ⟨x, h', e, hx⟩ := exists_extract hg.bounded (by omega)
  have htake : s.buildMerged.takeRoot = (x, h') := by rw [Build.takeRoot, e]; rfl
  have hnone : h'.named = [] := List.eq_nil_of_length_eq_zero (by
    have := hx.size
    rw [Heap.named, List.length_map, live_length]
    omega)
  have hroots : ∀ i, i = x.tag.toNat ↔ i < s.buildMerged.n ∧ parentLink s.buildMerged.nodes i = none := by
    intro i
    rw [← hg.roots, hx.named.mem_iff, hnone, List.mem_singleton]
  have hroot := (hroots _).mp rfl
  refine Wired.holds (root := x.tag.toNat) (rank := id) (n := s.buildMerged.n) hg.wired hg.complete (fun i hi => ?_)
    (by omega) hroot.1 ?_ ?_ ?_
  · rw [hroots]
    exact ⟨fun hp => ⟨hi, hp⟩, fun hp => hp.2⟩
  · rw [BitVec.ofNat_toNat, builtTree_arena, htake]
  · rw [builtTree_arena, BitVec.toNat_ofNat]
    omega
  · rw [builtTree_arena, BitVec.toNat_ofNat]
    omega

end

end Sys2Proof.Machine
end

section
/-! PROOFS. DESERIALIZE_TREE's nodes through the parse, and the tree invariant through every step (O58; 42_tree_serdes.md
R194 to R196). -/

namespace Sys2Proof.Machine

/-! ## Open nodes -/

theorem isOpen_iff (nodes : Entries) (i : Nat) :
    (tableGet nodes i).isOpen = true ↔
      (tableGet nodes i).kind = .internal ∧ (leftLink nodes i = none ∨ rightLink nodes i = none) := by
  simp only [Node.isOpen, leftLink, rightLink, linkOf_eq_none, Bool.and_eq_true, Bool.or_eq_true, beq_iff_eq]

section
variable {nodes : Entries} {p : NodeIndex} (hp : p ≠ Config.noNode) (hp' : p.toNat < 511) (c : NodeIndex) (i : Nat)
include hp hp'

/-- A child goes into its parent's first empty slot (42_tree_serdes.md R194). -/
theorem tableGet_attachChild : tableGet (attachChild nodes p c) i =
    if i = p.toNat then
      if leftLink nodes p.toNat = none then { tableGet nodes i with left := c }
      else { tableGet nodes i with right := c }
    else tableGet nodes i := by
  simp only [attachChild, if_neg hp, leftLink, linkOf_eq_none]
  split <;> rw [tableGet_tableSet] <;> grind

theorem leftLink_attachChild : leftLink (attachChild nodes p c) i =
    if i = p.toNat ∧ leftLink nodes p.toNat = none then linkOf c else leftLink nodes i := by
  rw [leftLink, tableGet_attachChild hp hp']
  split_ifs <;> simp_all [leftLink]

theorem rightLink_attachChild : rightLink (attachChild nodes p c) i =
    if i = p.toNat ∧ leftLink nodes p.toNat ≠ none then linkOf c else rightLink nodes i := by
  rw [rightLink, tableGet_attachChild hp hp']
  split_ifs <;> simp_all [rightLink]

theorem parentLink_attachChild : parentLink (attachChild nodes p c) i = parentLink nodes i := by
  rw [parentLink, tableGet_attachChild hp hp']
  split_ifs <;> rfl

theorem kind_attachChild : (tableGet (attachChild nodes p c) i).kind = (tableGet nodes i).kind := by
  rw [tableGet_attachChild hp hp']
  split_ifs <;> rfl

end

/-! ## The invariant of the parse -/

/-- The rank of a parse's nodes: parents are made before their children. -/
def parseRank (i : Nat) : Nat := 511 - i

/-- The parse in progress: its nodes are wired below entry 0, and the walk starts from one of them. -/
structure Parse.Grown (p : Parse) : Prop where
  wired : Wired p.nodes p.n parseRank
  slots : p.n ≤ 511
  root : RootedAt p.nodes p.n 0
  leaves : p.leaves = (List.range p.n).countP fun i => (tableGet p.nodes i).kind == .leaf
  frontier : p.frontier = Config.noNode ∨ p.frontier.toNat < p.n

theorem parseStart_grown (nodes : Entries) : Parse.Grown ⟨nodes, 0, 0, 0, Config.noNode⟩ :=
  ⟨wired_zero _ _, Nat.zero_le _, nofun, rfl, .inl rfl⟩

/-- The upward walk stays among the nodes made. -/
theorem Wired.findOpen_lt {nodes : Entries} {n : Nat} {rank : Nat → Nat} (h : Wired nodes n rank) (fuel : Nat)
    {i : NodeIndex} (hi : i = Config.noNode ∨ i.toNat < n) (hf : findOpen nodes fuel i ≠ Config.noNode) :
    (findOpen nodes fuel i).toNat < n := by
  induction fuel generalizing i with
  | zero => exact absurd rfl hf
  | succ fuel ih =>
    unfold findOpen at hf ⊢
    split
    · rename_i hnone; simp [hnone] at hf
    · rename_i hne
      have hlt := hi.resolve_left hne
      rw [if_neg hne] at hf
      split
      · exact hlt
      · rename_i hno
        rw [if_neg hno] at hf
        refine ih ?_ hf
        by_cases hp : (tableGet nodes i.toNat).parent = Config.noNode
        · exact .inl hp
        · exact .inr (h.parent _ _ hlt (linkOf_of_ne hp)).1

/-- Where the next node goes: nowhere for the first, below an open node for every other. -/
def Parse.SlotOk (p : Parse) (q : NodeIndex) : Prop :=
  (p.n = 0 ∧ q = Config.noNode) ∨
    (p.n ≠ 0 ∧ q ≠ Config.noNode ∧ q.toNat < p.n ∧ (tableGet p.nodes q.toNat).isOpen = true)

theorem Parse.Grown.slotOk {p : Parse} (h : p.Grown) (hs : ¬(p.n ≠ 0 ∧ p.slot = Config.noNode)) : p.SlotOk p.slot := by
  by_cases h0 : p.n = 0
  · exact .inl ⟨h0, if_pos h0⟩
  · have hne : p.slot ≠ Config.noNode := fun e => hs ⟨h0, e⟩
    have hslot : p.slot = findOpen p.nodes (Config.nodeSlots + 1) p.frontier := if_neg h0
    rw [hslot] at hne ⊢
    exact .inr ⟨h0, hne, h.wired.findOpen_lt _ h.frontier hne, findOpen_isOpen _ _ _ hne⟩

/-! ## One node -/

/-- The entries after one node more: a fresh node `x` below `q`. -/
def Parse.grownNodes (p : Parse) (q : NodeIndex) (x : Node) : Entries :=
  attachChild (tableSet p.nodes p.n x) q (BitVec.ofNat 9 p.n)

section
variable {p : Parse} (h : p.Grown) {q : NodeIndex} {x : Node} (hn : p.n < 511) (hq : p.SlotOk q)

include hn hq in
theorem grownNodes_kind (i : Nat) : (tableGet (p.grownNodes q x) i).kind =
    if i = p.n then x.kind else (tableGet p.nodes i).kind := by
  rcases hq with ⟨-, rfl⟩ | ⟨-, hne, hlt, -⟩
  · simp [Parse.grownNodes, attachChild, kind_tableSet, hn, eq_comm]
  · rw [Parse.grownNodes, kind_attachChild hne (by omega), kind_tableSet]
    simp [hn, eq_comm]

include hn hq in
theorem grownNodes_parentLink (i : Nat) : parentLink (p.grownNodes q x) i =
    if i = p.n then linkOf x.parent else parentLink p.nodes i := by
  rcases hq with ⟨-, rfl⟩ | ⟨-, hne, hlt, -⟩
  · simp [Parse.grownNodes, attachChild, parentLink_tableSet, hn, eq_comm]
  · rw [Parse.grownNodes, parentLink_attachChild hne (by omega), parentLink_tableSet]
    simp [hn, eq_comm]

include h hn hq in
/-- A fresh node below its slot keeps the nodes wired. -/
theorem Parse.Grown.wired_grownNodes (hleft : x.left = Config.noNode) (hright : x.right = Config.noNode)
    (hparent : x.parent = q) : Wired (p.grownNodes q x) (p.n + 1) parseRank := by
  have hpar := grownNodes_parentLink (x := x) hn hq
  have hkind := grownNodes_kind (x := x) hn hq
  rcases hq with ⟨h0, rfl⟩ | ⟨-, hne, hlt, hopen⟩
  · refine h.wired.push ?_ ?_ ?_ fun i hi => absurd hi (by omega)
    · simp [Parse.grownNodes, attachChild, leftLink_tableSet, hn, hleft]
    · simp [Parse.grownNodes, attachChild, rightLink_tableSet, hn, hright]
    · simp [hpar, hparent]
  · obtain ⟨hint, hslot⟩ := (isOpen_iff _ _).mp hopen
    have hq' : q.toNat < 511 := by omega
    have hqn : p.n ≠ q.toNat := by omega
    refine h.wired.attach hlt (by unfold parseRank; omega) hint (fun i hi => ?_) (fun i => ?_) (fun i => ?_)
      (fun i => ?_) hslot
    · rw [hkind, if_neg (by omega)]
    · rw [hpar, hparent, linkOf_of_ne hne]
    · rw [Parse.grownNodes, leftLink_attachChild hne hq', leftLink_tableSet, leftLink_tableSet, linkOf_ofNat hn, hleft]
      grind [linkOf_noNode]
    · rw [Parse.grownNodes, rightLink_attachChild hne hq', rightLink_tableSet, leftLink_tableSet, linkOf_ofNat hn, hright]
      grind [linkOf_noNode]

include h hn hq in
theorem Parse.Grown.root_grownNodes (hparent : x.parent = q) : RootedAt (p.grownNodes q x) (p.n + 1) 0 := by
  intro i hi
  rw [grownNodes_parentLink hn hq, hparent]
  by_cases hin : i = p.n
  · rw [if_pos hin, linkOf_eq_none]
    rcases hq with ⟨h0, e⟩ | ⟨h0, e, -⟩
    · simp [e]; omega
    · simp [e]; omega
  · rw [if_neg hin]
    exact h.root i (by omega)

include h hn hq in
theorem Parse.Grown.leaves_grownNodes : ((List.range (p.n + 1)).countP fun i =>
    (tableGet (p.grownNodes q x) i).kind == .leaf) = p.leaves + if x.kind = .leaf then 1 else 0 := by
  have hsame : ∀ i ∈ List.range p.n, ((tableGet (p.grownNodes q x) i).kind == .leaf) =
      ((tableGet p.nodes i).kind == .leaf) := fun i hi => by
    have := List.mem_range.mp hi
    rw [grownNodes_kind hn hq, if_neg (by omega)]
  rw [List.range_succ, List.countP_append, h.leaves]
  congr 1
  · exact List.countP_congr fun i hi => by rw [hsame i hi]
  · simp [grownNodes_kind hn hq]

include h hn hq in
theorem Parse.Grown.addLeaf (v : Byte) : (p.addLeaf q v).Grown where
  wired := h.wired_grownNodes hn hq rfl rfl rfl
  slots := hn
  root := h.root_grownNodes hn hq rfl
  leaves := (h.leaves_grownNodes hn hq (x := ⟨.leaf, v, Config.noNode, Config.noNode, q, 0#32⟩)).symm
  frontier := by
    show (if q = Config.noNode then BitVec.ofNat 9 p.n else q) = Config.noNode ∨
      (if q = Config.noNode then BitVec.ofNat 9 p.n else q).toNat < p.n + 1
    split
    · exact .inr (by rw [ofNat_toNat_of_lt hn]; omega)
    · rcases hq with ⟨-, e⟩ | ⟨-, -, hlt, -⟩
      · exact .inl e
      · exact .inr (by omega)

include h hn hq in
theorem Parse.Grown.addInternal : (p.addInternal q).Grown where
  wired := h.wired_grownNodes hn hq rfl rfl rfl
  slots := hn
  root := h.root_grownNodes hn hq rfl
  leaves := (h.leaves_grownNodes hn hq (x := ⟨.internal, 0#8, Config.noNode, Config.noNode, q, 0#32⟩)).symm
  frontier := .inr (by
    show (BitVec.ofNat 9 p.n).toNat < p.n + 1
    rw [ofNat_toNat_of_lt hn]
    omega)

end

/-- A node of the parse that is accepted keeps the invariant. -/
theorem Parse.Grown.node {p p' : Parse} {bit : Nat → Bool} {len : Nat} (h : p.Grown) (hp : p.node bit len = .ok p') :
    p'.Grown ∧ p'.n = p.n + 1 := by
  rcases parse_node_cases bit len p with ⟨-, -, e⟩ | ⟨hs, ⟨-, e⟩ | ⟨hn, ⟨-, e⟩ | ⟨-, -, e⟩ | ⟨-, -, e⟩⟩⟩ <;>
    rw [e] at hp <;> cases hp
  all_goals
    have hn' : p.n < 511 := Nat.lt_of_le_of_ne h.slots hn
  · exact ⟨h.addInternal hn' (h.slotOk hs), rfl⟩
  · exact ⟨h.addLeaf hn' (h.slotOk hs) _, rfl⟩

/-! ## The whole parse -/

/-- A parse that consumes its bits keeps the invariant and has made a node if there was a bit. -/
theorem Parse.Grown.run {p p' : Parse} {bit : Nat → Bool} {len fuel : Nat} (h : p.Grown)
    (hr : p.run bit len fuel = .consumed p') : p'.Grown ∧ p.n ≤ p'.n ∧ (0 < fuel → p.pos < len → 0 < p'.n) := by
  induction fuel generalizing p with
  | zero => cases hr; exact ⟨h, le_refl _, nofun⟩
  | succ fuel ih =>
    unfold Parse.run at hr
    split at hr
    · split at hr
      · rename_i p1 hp
        obtain ⟨h1, hn⟩ := h.node hp
        obtain ⟨h', hle, -⟩ := ih h1 hr
        exact ⟨h', by omega, fun _ _ => by omega⟩
      · cases hr
    · rename_i hpos
      cases hr
      exact ⟨h, le_refl _, fun _ hp => absurd hp hpos⟩

theorem complete_of_not_anyOpen {p : Parse} (h : p.anyOpen = false) : Complete p.nodes p.n := by
  intro i hi hk
  have hno : ¬(tableGet p.nodes i).isOpen = true := by
    have := List.any_eq_false.mp h i (List.mem_range.mpr hi)
    simpa using this
  rw [isOpen_iff] at hno
  exact ⟨fun e => hno ⟨hk, .inl e⟩, fun e => hno ⟨hk, .inr e⟩⟩

/-- The tree of an accepted stream meets the tree invariant (10_state.md R58). -/
theorem parsed_holds {s : State} {p : Parse} (h0 : s.tbsLen ≠ 0#32)
    (hp : parseTree s.treeBit s.tbsLen.toNat s.arena.nodes = .consumed p) : ∃ T, (s.holdParsed p).arena.holds T := by
  have hpos : 0 < s.tbsLen.toNat := Nat.pos_of_ne_zero fun e => h0 (BitVec.eq_of_toNat_eq e)
  unfold parseTree at hp
  split at hp
  · cases hp
  · rename_i hr
    split at hp <;> cases hp
    rename_i hopen
    obtain ⟨hg, -, hn⟩ := (parseStart_grown s.arena.nodes).run hr
    have hn := hn hpos hpos
    have hc := complete_of_not_anyOpen (by simpa using hopen)
    have hcount := hg.wired.count_leaves hc hg.root hn
    have hslots := hg.slots
    rw [← hg.leaves] at hcount
    refine Wired.holds (n := p.n) (root := 0) hg.wired hc hg.root hg.slots hn rfl ?_ ?_
    · rw [holdParsed_arena, BitVec.toNat_ofNat]; omega
    · rw [holdParsed_arena, BitVec.toNat_ofNat]; omega

/-! ## The statement -/

theorem State.TreeEffect.treeHeld {s t : State} (h : s.TreeEffect t) (hs : s.treeHeld) : t.treeHeld := by
  intro hv
  cases h with
  | kept arena _ tree _ => exact arena ▸ hs (tree ▸ hv)
  | indexed _ _ _ arena valid _ => exact arena ▸ hs valid
  | unindexed arena tree _ => exact arena ▸ hs (tree ▸ hv)
  | dropped _ _ _ tree _ => simp [tree] at hv
  | built nonempty fits arena _ _ => exact arena ▸ builtTree_holds nonempty fits
  | parsed p nonempty parse arena _ _ => exact arena ▸ parsed_holds nonempty parse

/-- A command faults only over an arena without the tree TREE_VALID promises (log 9). -/
theorem exec_fault {i : Instr} {s : State} {f : Fault} (h : exec i s = .fault f) :
    s.status.treeValid = true ∧ s.arena.tree = none := by
  obtain ⟨hi, -⟩ := exec_stops (i := i) (s := s) fun t e => by rw [h] at e; cases e
  rcases hi with rfl | rfl | rfl
  · simp only [exec, execEncodeTree] at h
    split at h
    · split at h
      · cases h
      · exact ⟨‹_›, ‹_›⟩
    · cases h
  · simp only [exec, execBuildIndex] at h
    split at h
    · split at h
      · split at h <;> cases h
      · exact ⟨‹_›, ‹_›⟩
    · cases h
  · simp only [exec, execDecode] at h
    split at h
    · cases h
    · rename_i hv
      split at h
      · cases h
      · split at h
        · exact ⟨by simpa using hv, ‹_›⟩
        · split at h <;> cases h

theorem checkAccess_fault {loc : Loc} {bytes : Nat} {f : Fault} (h : checkAccess loc bytes = .fault f) :
    f = .outsideAperture := by
  unfold checkAccess at h
  split at h
  · cases h; rfl
  · split at h <;> cases h

theorem hostWrite_ne_fault {s : State} {off : Nat} {v : Word} {f : Fault} : s.hostWrite off v ≠ .fault f := by
  unfold State.hostWrite State.writeBusy
  split_ifs <;> nofun

/-- A host step faults only outside the aperture (20_memory.md R80). -/
theorem hostStep_fault {s : State} {f : Fault} (h : hostStep s = .fault f) : f = .outsideAperture := by
  unfold hostStep at h
  split at h
  · cases h
  · rename_i e rest _
    cases e with
    | read loc bytes =>
      simp only [performEvent] at h
      split at h <;> cases h
      exact checkAccess_fault ‹_›
    | write loc bytes v =>
      simp only [performEvent] at h
      split at h
      · exact absurd h hostWrite_ne_fault
      · cases h; exact checkAccess_fault ‹_›
      · cases h
    | wait => simp only [performEvent] at h; split at h <;> cases h
    | skipIfErr count => simp only [performEvent] at h; split at h <;> cases h
    | reset => cases h

/-- Only the walk of a command in flight meets an arena without a tree. -/
theorem step_arenaNotATree {s : State} (h : step s = .fault .arenaNotATree) :
    s.status.treeValid = true ∧ s.arena.tree = none := by
  unfold step at h
  split at h
  · exact nomatch hostStep_fault h
  · split at h
    · cases h
    · split at h
      · exact exec_fault h
      · cases h

/-- Settles O58: what a step does to the tree keeps R58, and under R58 no walk meets an arena without a tree. -/
theorem stepKeepsTheTreeInvariant : Obligations.StepKeepsTheTreeInvariant := by
  refine ⟨fun s t hs h => (step_treeEffect h).treeHeld hs, fun s hs h => ?_⟩
  obtain ⟨hv, hnone⟩ := step_arenaNotATree h
  obtain ⟨T, htree, -⟩ := hs hv
  rw [hnone] at htree
  cases htree

end Sys2Proof.Machine
end

section
/-! PROOFS. What a command stores to the buffers, so that they stay canonical (O54), what DECODE emits (O52), and what
else a command writes (O51). -/

namespace Sys2Proof.Machine

/-! ## The decoder -/

@[simp] theorem decodedCons_bytes (b : Byte) (d : Decoded) : (d.cons b).bytes = b :: d.bytes := rfl

/-- What one bit can do: end the decode, emit a byte while OUT has room, or move one node down. -/
theorem decodeFrom_cons_cases (root cur : Tree) (i k : Nat) (b : Bool) (bs : List Bool) :
    (decodeFrom root cur i k (b :: bs)).bytes = [] ∨
    (∃ v next, k ≠ Config.outMax ∧
      decodeFrom root cur i k (b :: bs) = (decodeFrom root next (i + 1) (k + 1) bs).cons v) ∨
    ∃ next, decodeFrom root cur i k (b :: bs) = decodeFrom root next (i + 1) k bs := by
  cases root with
  | leaf n v =>
    rw [decodeFrom]
    split_ifs with hb hk
    · exact .inl rfl
    · exact .inl rfl
    · exact .inr (.inl ⟨v, cur, hk, rfl⟩)
  | node n l r =>
    rw [decodeFrom]
    split
    · split_ifs with hk
      · exact .inl rfl
      · exact .inr (.inl ⟨_, _, hk, rfl⟩)
    · exact .inr (.inr ⟨_, rfl⟩)

theorem decodeFrom_nil_bytes (root cur : Tree) (i k : Nat) : (decodeFrom root cur i k []).bytes = [] := by
  rw [decodeFrom]
  split_ifs <;> rfl

/-- Each byte emitted has consumed a bit of the stream. -/
theorem decodeFrom_length_le (root cur : Tree) (i k : Nat) (bs : List Bool) :
    (decodeFrom root cur i k bs).bytes.length ≤ bs.length := by
  induction bs generalizing cur i k with
  | nil => simp [decodeFrom_nil_bytes]
  | cons b bs ih =>
    rcases decodeFrom_cons_cases root cur i k b bs with e | ⟨v, next, -, e⟩ | ⟨next, e⟩ <;> rw [e]
    · exact Nat.zero_le _
    · exact Nat.succ_le_succ (ih next (i + 1) (k + 1))
    · exact Nat.le_succ_of_le (ih next (i + 1) k)

/-- The decoder stops before it exceeds OUT (43_message_codec.md R215). -/
theorem decodeFrom_fits (root cur : Tree) (i : Nat) {k : Nat} (bs : List Bool) (hk : k ≤ Config.outMax) :
    k + (decodeFrom root cur i k bs).bytes.length ≤ Config.outMax := by
  induction bs generalizing cur i k with
  | nil => simpa [decodeFrom_nil_bytes] using hk
  | cons b bs ih =>
    rcases decodeFrom_cons_cases root cur i k b bs with e | ⟨v, next, hne, e⟩ | ⟨next, e⟩ <;> rw [e]
    · exact hk
    · have := ih next (i + 1) (k := k + 1) (by omega)
      rw [decodedCons_bytes, List.length_cons]
      omega
    · exact ih next (i + 1) hk

/-- A bit that reaches a leaf below a root that is no leaf emits the leaf's value and returns to the root. -/
theorem decodeFrom_to_leaf {j m : Nat} {rl rr cur : Tree} {v : Byte} {b : Bool} (hc : cur.child b = .leaf m v)
    (i : Nat) {k : Nat} (bs : List Bool) (hk : k < Config.outMax) :
    decodeFrom (.node j rl rr) cur i k (b :: bs) =
      (decodeFrom (.node j rl rr) (.node j rl rr) (i + 1) (k + 1) bs).cons v := by
  simp only [decodeFrom, hc, if_neg (Nat.ne_of_lt hk)]

/-- A bit that reaches an internal node goes on from there. -/
theorem decodeFrom_to_node {j m : Nat} {rl rr cur l r : Tree} {b : Bool} (hc : cur.child b = .node m l r)
    (i k : Nat) (bs : List Bool) :
    decodeFrom (.node j rl rr) cur i k (b :: bs) = decodeFrom (.node j rl rr) (.node m l r) (i + 1) k bs := by
  simp only [decodeFrom, hc]

/-- Entered by a bit from the node above it, the subtree `c` of `root` emits `v` after the steps `q`, and the decoder
goes on at the root. -/
def Tree.EmitsAfter (root c : Tree) (q : List Bool) (v : Byte) : Prop :=
  ∀ cur b, cur.child b = c → ∀ i k rest, k < Config.outMax →
    decodeFrom root cur i k (b :: (q ++ rest)) = (decodeFrom root root (i + (b :: q).length) (k + 1) rest).cons v

/-- One step down to an internal node in front of the steps. -/
theorem emitsAfter_node {j m : Nat} {rl rr l r : Tree} {b : Bool} {q : List Bool} {v : Byte}
    (h : (Tree.node j rl rr).EmitsAfter ((Tree.node m l r).child b) q v) :
    (Tree.node j rl rr).EmitsAfter (.node m l r) (b :: q) v := by
  intro cur b' hc i k rest hk
  rw [decodeFrom_to_node hc, List.cons_append, h _ b rfl _ _ _ hk, List.length_cons (a := b'), Nat.add_assoc,
    Nat.add_comm 1]

/-- The steps from a subtree to one of its leaves emit that leaf's value. -/
theorem emitsAfter_codedLeaf {j : Nat} {rl rr : Tree} (c : Tree) (path : List Bool) {x : CodedLeaf}
    (hx : x ∈ c.codedLeaves path) : ∃ q, x.path = path ++ q ∧ (Tree.node j rl rr).EmitsAfter c q x.value := by
  induction c generalizing path with
  | leaf m v =>
    obtain rfl : x = ⟨m, v, path⟩ := List.mem_singleton.mp hx
    exact ⟨[], by simp, fun cur b hc i k rest hk => decodeFrom_to_leaf hc i rest hk⟩
  | node m l r ihl ihr =>
    rcases List.mem_append.mp hx with hx | hx
    · obtain ⟨q, hq, hrun⟩ := ihl _ hx
      exact ⟨false :: q, by simp [hq], emitsAfter_node hrun⟩
    · obtain ⟨q, hq, hrun⟩ := ihr _ hx
      exact ⟨true :: q, by simp [hq], emitsAfter_node hrun⟩

/-- A whole code emits its leaf's value (43_message_codec.md R215). -/
theorem decodeFrom_code {T : Tree} {x : CodedLeaf} (hx : x ∈ T.codes) (i : Nat) {k : Nat} (rest : List Bool)
    (hk : k < Config.outMax) :
    decodeFrom T T i k (x.path ++ rest) = (decodeFrom T T (i + x.path.length) (k + 1) rest).cons x.value := by
  cases T with
  | leaf n v =>
    obtain rfl : x = ⟨n, v, [false]⟩ := List.mem_singleton.mp hx
    simp only [List.cons_append, List.nil_append, decodeFrom, Bool.false_eq_true, if_false,
      if_neg (Nat.ne_of_lt hk), List.length_singleton]
  | node n l r =>
    rcases List.mem_append.mp hx with hx | hx
    · obtain ⟨q, hq, hrun⟩ := emitsAfter_codedLeaf l [false] hx
      rw [hq]
      exact hrun _ false rfl i k rest hk
    · obtain ⟨q, hq, hrun⟩ := emitsAfter_codedLeaf r [true] hx
      rw [hq]
      exact hrun _ true rfl i k rest hk

/-- Bytes emitted before a decode. -/
def Decoded.after (bs : List Byte) (d : Decoded) : Decoded := ⟨bs ++ d.bytes, d.error⟩

@[simp] theorem decodedAfter_bytes (bs : List Byte) (d : Decoded) : (d.after bs).bytes = bs ++ d.bytes := rfl

/-- Whole codes emit their leaves' values, and the decode goes on after them. -/
theorem decodeFrom_codes {T : Tree} {ps : List CodedLeaf} (hps : ∀ p ∈ ps, p ∈ T.codes) (i : Nat) {k : Nat}
    (rest : List Bool) (hk : k + ps.length ≤ Config.outMax) :
    decodeFrom T T i k (ps.flatMap (·.path) ++ rest) =
      (decodeFrom T T (i + (ps.flatMap (·.path)).length) (k + ps.length) rest).after (ps.map (·.value)) := by
  induction ps generalizing i k with
  | nil => rfl
  | cons p ps ih =>
    obtain ⟨hp, hps⟩ := List.forall_mem_cons.mp hps
    rw [List.length_cons] at hk
    rw [List.flatMap_cons, List.append_assoc, decodeFrom_code hp i _ (by omega), ih hps _ (by omega),
      List.length_append, List.length_cons, Nat.add_assoc i, Nat.add_assoc k, Nat.add_comm 1]
    rfl

/-! ## What each command writes -/

/-- Settles O51, outcome by outcome of each command. -/
theorem eachCommandWritesOnlyItsStorage : Obligations.EachCommandWritesOnlyItsStorage := by
  intro i s t h
  cases i with
  | heapNew cap pol => rcases execHeapNew_cases h with ⟨-, rfl⟩ | ⟨-, rfl⟩ <;> simp
  | heapInsert tag => rcases execHeapInsert_cases h with ⟨-, rfl⟩ | ⟨-, rfl⟩ <;> simp
  | heapExtract => rcases execHeapExtract_cases h with ⟨-, rfl⟩ | ⟨-, rfl⟩ <;> simp
  | heapPeek idx => rcases execHeapPeek_cases h with ⟨-, rfl⟩ | ⟨-, rfl⟩ <;> simp
  | heapSize => rw [execHeapSize_cases h]; simp
  | buildTree => rcases execBuildTree_cases h with ⟨-, rfl⟩ | ⟨-, -, rfl⟩ | ⟨-, -, rfl⟩ <;> simp
  | buildIndex => rcases execBuildIndex_cases h with ⟨-, rfl⟩ | ⟨-, T, -, ⟨-, rfl⟩ | ⟨j, -, rfl⟩⟩ <;> simp
  | encode =>
    rcases execEncode_cases h with ⟨-, rfl⟩ | ⟨-, -, rfl⟩ | ⟨-, -, ⟨k, -, rfl⟩ | ⟨-, ⟨-, rfl⟩ | ⟨-, rfl⟩⟩⟩ <;> simp
  | encodeTree => rcases execEncodeTree_cases h with ⟨-, rfl⟩ | ⟨-, T, -, rfl⟩ <;> simp
  | deserializeTree =>
    rcases execDeserializeTree_cases h with ⟨-, rfl⟩ | ⟨-, -, ⟨p, -, rfl⟩ | ⟨info, nodes, -, rfl⟩⟩ <;> simp
  | decode =>
    rcases execDecode_cases h with ⟨-, rfl⟩ | ⟨-, -, rfl⟩ | ⟨-, -, T, -, ⟨-, rfl⟩ | ⟨e, info, -, rfl⟩⟩ <;> simp
  | teardown => rw [execTeardown_cases h]; simp

/-- Only three commands store to the buffers (20_memory.md R90). -/
theorem exec_mem_kept {i : Instr} {s t : State} (h : exec i s = .next t) (h1 : i ≠ .encodeTree) (h2 : i ≠ .encode)
    (h3 : i ≠ .decode) : t.mem = s.mem := by
  obtain ⟨-, -, -, -, -, -, -, -, -, -, -, -, hmem⟩ := eachCommandWritesOnlyItsStorage i s t h
  exact hmem h1 h2 h3

/-! ## The stores lie inside their buffers -/

/-- The bits of MBS lie in the buffers. -/
theorem inBuffer_mbs {k : Nat} (h : k < Config.mbsBits) : InBuffer (Config.mbsBase + (0 + k) / 8) := by
  simp only [InBuffer, Config.mbsBits, Config.mbsBase, Config.msgBase, Config.tbsEnd, Config.nodeBase] at h ⊢
  omega

/-- The bits of TBS lie in the buffers. -/
theorem inBuffer_tbs {k : Nat} (h : k < Config.tbsBits) : InBuffer (Config.tbsBase + (0 + k) / 8) := by
  simp only [InBuffer, Config.tbsBits, Config.tbsBase, Config.msgBase, Config.tbsEnd] at h ⊢
  omega

/-- The bytes of OUT lie in the buffers. -/
theorem inBuffer_out {k : Nat} (h : k < Config.outMax) : InBuffer (Config.outBase + k) := by
  simp only [InBuffer, Config.outMax, Config.outBase, Config.msgBase, Config.tbsEnd] at h ⊢
  omega

/-- The bits ENCODE writes are as many as it counts (43_message_codec.md R213, R214). -/
theorem encodeBytes_length (code : Vector CodeEntry Config.symbols) (m : List Byte) :
    (encodeBytes code m).length = encodedLength code m := by
  simp [encodeBytes, encodedLength, CodeEntry.code, List.length_flatMap]

/-- A tree the block holds serializes to at most 2559 bits (42_tree_serdes.md R192). -/
theorem serialize_fits {a : Arena} {T : Tree} (h : a.tree = some T) : T.serialize.length < Config.tbsBits := by
  have hleaves := (arena_tree_some h).2
  have hlen := word_length T.shape
  rw [values_length] at hlen
  rw [serialize_eq_word, Config.tbsBits]
  omega

/-- The bytes DECODE emits fit OUT. -/
theorem decoded_inBuffer (T : Tree) (bs : List Bool) :
    ∀ k, k < (decodeFrom T T 0 0 bs).bytes.length → InBuffer (Config.outBase + k) := by
  have hfits := decodeFrom_fits T T 0 bs (Nat.zero_le _)
  exact fun k hk => inBuffer_out (by omega)

/-! ## The canonical form -/

theorem exec_mem_wf {i : Instr} {s t : State} (hw : s.mem.wf) (h : exec i s = .next t) : t.mem.wf := by
  cases i with
  | encode =>
    rcases execEncode_cases h with ⟨-, rfl⟩ | ⟨-, -, rfl⟩ | ⟨-, -, ⟨k, -, rfl⟩ | ⟨-, ⟨-, rfl⟩ | ⟨hfits, rfl⟩⟩⟩
    case inr.inr.inr.inr =>
      exact writeBits_wf hw _ _ fun k hk => inBuffer_mbs (by rw [encodeBytes_length] at hk; omega)
    all_goals exact hw
  | encodeTree =>
    rcases execEncodeTree_cases h with ⟨-, rfl⟩ | ⟨-, T, hT, rfl⟩
    · exact hw
    · exact writeBits_wf hw _ _ fun k hk => inBuffer_tbs (hk.trans (serialize_fits hT))
  | decode =>
    rcases execDecode_cases h with ⟨-, rfl⟩ | ⟨-, -, rfl⟩ | ⟨-, -, T, -, ⟨-, rfl⟩ | ⟨e, info, -, rfl⟩⟩
    · exact hw
    · exact hw
    all_goals exact writeBytes_wf hw _ (decoded_inBuffer T _)
  | _ => exact exec_mem_kept h nofun nofun nofun ▸ hw

/-- A host event writes an aligned buffer word, or resets, or leaves the buffers alone. -/
theorem performEvent_mem_wf {e : HostEvent} {s t : State} (hw : s.mem.wf) (h : performEvent e s = .next t) :
    t.mem.wf := by
  rcases performEvent_cases h with ⟨_, _, _, -, -, rfl⟩ | ⟨_, _, _, _, -, ha, h⟩ | ⟨-, -, rfl⟩ | ⟨-, -, rfl⟩ |
    ⟨_, -, -, rfl⟩ | ⟨_, -, -, rfl⟩ | ⟨-, rfl⟩
  case inr.inl =>
    obtain ⟨-, -, haligned⟩ := checkAccess_next.mp ha
    exact hostWrite_mem_wf hw haligned h
  case inr.inr.inr.inr.inr.inr => exact reset_wf
  all_goals exact hw

theorem hostStep_mem_wf {s t : State} (hw : s.mem.wf) (h : hostStep s = .next t) : t.mem.wf := by
  rcases hostStep_cases h with ⟨-, rfl⟩ | ⟨e, rest, -, he⟩
  · exact hw
  · exact performEvent_mem_wf (s := { s with hostQueue := rest, delay := s.delay - 1 }) hw he

/-- Settles O54: host writes are of whole words inside a buffer, and the three commands that store stay in theirs. -/
theorem stepKeepsTheBuffersCanonical : Obligations.StepKeepsTheBuffersCanonical := by
  intro s t hw h
  rcases step_cases h with ⟨-, h⟩ | ⟨w, i, -, -, h⟩ | ⟨w, e, -, -, rfl⟩
  · exact hostStep_mem_wf hw h
  · exact exec_mem_wf hw h
  · exact hw

/-! ## DECODE's store -/

/-- The bytes a DECODE emits, none where a check before the walk fails (43_message_codec.md R215). -/
def State.emitted (s : State) : List Byte :=
  match s.arena.tree with
  | some T => if s.status.treeValid = true ∧ s.mbsLen.toNat ≤ Config.mbsBits
      then (decodeFrom T T 0 0 s.messageBits).bytes else []
  | none => []

/-- What a DECODE that emits `bytes` leaves in the buffers and in OUT_LEN. -/
structure State.Emits (s t : State) (bytes : List Byte) : Prop where
  mem : t.mem = s.mem.writeBytes Config.outBase bytes
  done : t.status.err = false → t.outLen = BitVec.ofNat 32 bytes.length
  failed : s.status.err = false → t.status.err = true → t.outLen = 0#32

theorem emitted_of_tree {s : State} {T : Tree} (hv : s.status.treeValid = true)
    (hl : s.mbsLen.toNat ≤ Config.mbsBits) (hT : s.arena.tree = some T) :
    s.emitted = (decodeFrom T T 0 0 s.messageBits).bytes := by
  simp only [State.emitted, hT, if_pos (And.intro hv hl)]

theorem emitted_of_refused {s : State} (h : ¬(s.status.treeValid = true ∧ s.mbsLen.toNat ≤ Config.mbsBits)) :
    s.emitted = [] := by
  unfold State.emitted
  split
  · exact if_neg h
  · rfl

/-- Whatever its outcome, DECODE stores what it emits (43_message_codec.md R215, 60_exceptions.md R262). -/
theorem execDecode_emits {s t : State} (h : exec .decode s = .next t) : s.Emits t s.emitted := by
  rcases execDecode_cases h with ⟨hv, rfl⟩ | ⟨-, hl, rfl⟩ | ⟨hv, hl, T, hT, ⟨-, rfl⟩ | ⟨e, info, -, rfl⟩⟩
  · rw [emitted_of_refused (by simp [hv])]
    exact ⟨rfl, nofun, fun _ _ => rfl⟩
  · rw [emitted_of_refused (by omega)]
    exact ⟨rfl, nofun, fun _ _ => rfl⟩
  · rw [emitted_of_tree hv hl hT]
    exact ⟨rfl, fun _ => rfl, fun h0 h1 => by simp [h0] at h1⟩
  · rw [emitted_of_tree hv hl hT]
    exact ⟨rfl, nofun, fun _ _ => rfl⟩

theorem messageBits_length (s : State) : s.messageBits.length = s.mbsLen.toNat := by simp [State.messageBits]

/-- What is emitted is a walk's bytes or nothing. -/
theorem emitted_length_le (s : State) :
    s.emitted.length ≤ Config.outMax ∧ s.emitted.length ≤ s.mbsLen.toNat := by
  unfold State.emitted
  split
  · rename_i T _
    split_ifs
    · have hfits := decodeFrom_fits T T 0 s.messageBits (Nat.zero_le _)
      have hbits := decodeFrom_length_le T T 0 0 s.messageBits
      rw [messageBits_length] at hbits
      exact ⟨by omega, hbits⟩
    · exact ⟨Nat.zero_le _, Nat.zero_le _⟩
  · exact ⟨Nat.zero_le _, Nat.zero_le _⟩

/-- After a DECODE a byte is the one emitted there, or the one from before. -/
theorem execDecode_readByte {s t : State} (hw : s.mem.wf) (h : exec .decode s = .next t) (n a : Nat) :
    t.mem.readByte n a =
      if Config.outBase ≤ a then s.emitted[a - Config.outBase]?.getD (s.mem.readByte n a) else s.mem.readByte n a := by
  obtain ⟨hfits, -⟩ := emitted_length_le s
  rw [(execDecode_emits h).mem]
  exact readByte_writeBytes hw n s.emitted (fun k hk => inBuffer_out (by omega)) a

theorem execDecode_readByte_emitted {s t : State} (hw : s.mem.wf) (h : exec .decode s = .next t) (n : Nat) {k : Nat}
    (hk : k < s.emitted.length) : some (t.mem.readByte n (Config.outBase + k)) = s.emitted[k]? := by
  rw [execDecode_readByte hw h, if_pos (Nat.le_add_right ..), Nat.add_sub_cancel_left, List.getElem?_eq_getElem hk]
  rfl

theorem execDecode_readByte_outside {s t : State} (hw : s.mem.wf) (h : exec .decode s = .next t) (n : Nat) {a : Nat}
    (ha : a < Config.outBase ∨ Config.outBase + s.emitted.length ≤ a) : t.mem.readByte n a = s.mem.readByte n a := by
  rw [execDecode_readByte hw h]
  split_ifs with hout
  · rw [List.getElem?_eq_none (by omega), Option.getD_none]
  · rfl

/-- A stream that begins with whole codes makes the emitted bytes begin with their values. -/
theorem emitted_of_codes {s : State} {T : Tree} {ps : List CodedLeaf} {rest : List Bool}
    (hv : s.status.treeValid = true) (hl : s.mbsLen.toNat ≤ Config.mbsBits) (hT : s.arena.tree = some T)
    (hps : ∀ p ∈ ps, p ∈ T.codes) (hfits : ps.length ≤ Config.outMax)
    (hbits : s.messageBits = ps.flatMap (·.path) ++ rest) : ps.map (·.value) <+: s.emitted := by
  rw [emitted_of_tree hv hl hT, hbits, decodeFrom_codes hps 0 rest (by omega), decodedAfter_bytes]
  exact List.prefix_append ..

/-- Settles O52: the bytes are those `writeBytes` stores at OUT, and whole codes are decoded one by one. -/
theorem decodeStoresOnlyToOut : Obligations.DecodeStoresOnlyToOut := by
  constructor
  · intro s t hw h bytes
    rw [show bytes = s.emitted from rfl]
    obtain ⟨hout, hmbs⟩ := emitted_length_le s
    obtain ⟨-, hdone, hfailed⟩ := execDecode_emits h
    refine ⟨hout, hmbs, fun n k hk => execDecode_readByte_emitted hw h n hk,
      fun n a ha => execDecode_readByte_outside hw h n ha, fun he => ?_, hfailed⟩
    rw [Config.outMax] at hout
    rw [hdone he, BitVec.toNat_ofNat]
    omega
  · intro s t T ps rest hw hv hl hT hps hfits hbits h n k hk
    have hprefix := emitted_of_codes hv hl hT hps hfits hbits
    have hlen : k < (ps.map (·.value)).length := by simpa using hk
    have hk' : k < s.emitted.length := hlen.trans_le hprefix.length_le
    calc some (t.mem.readByte n (Config.outBase + k))
      _ = s.emitted[k]? := execDecode_readByte_emitted hw h n hk'
      _ = (ps.map (·.value))[k]? := by
        rw [List.getElem?_eq_getElem hlen, List.getElem?_eq_getElem hk', hprefix.getElem hlen]
      _ = (ps[k]?).map (·.value) := List.getElem?_map ..

end Sys2Proof.Machine
end

section
/-! PROOFS. The host's view of the windows and the buffers (O14, O15, O16, O17), and which accesses it has (O19). -/

namespace Sys2Proof.Machine

/-! ## The address map's windows and buffers -/

/-- The part of the address map above the buffers (20_memory.md R81, R85). -/
theorem target_above_buffers {off : Nat} (h : 0x50000 ≤ off) :
    target off =
      if off < 0x51FF0 then .node ((off - 0x50000) / 16) ((off - 0x50000) % 16 / 4)
      else if off < 0x60000 then .reserved
      else if off < 0x64000 then .code ((off - 0x60000) / 64) ((off - 0x60000) % 64 / 4)
      else if off < 0x70000 then .reserved
      else if off < 0x70800 then .heap ((off - 0x70000) / 8) ((off - 0x70000) % 8 / 4)
      else if off < 0x80000 then .reserved
      else if off < 0x80400 then .freq ((off - 0x80000) / 4)
      else .reserved := by
  rw [target, Config.msgBase, Config.tbsEnd, Config.mbsBase, Config.nodeBase]
  simp (disch := omega) only [if_neg]
  rfl

theorem readOffset_node (s : State) {n w : Nat} (hn : n < 511) (hw : w < 4) :
    s.readOffset (0x50000 + 16 * n + 4 * w) = s.nodeWindow n w := by
  have ht : target (0x50000 + 16 * n + 4 * w) = .node n w := by
    rw [target_above_buffers (by omega), if_pos (by omega)]
    congr 1 <;> omega
  rw [State.readOffset, ht]

theorem readOffset_code (s : State) {v w : Nat} (hv : v < 256) (hw : w < 16) :
    s.readOffset (0x60000 + 64 * v + 4 * w) = s.codeWindow v w := by
  have ht : target (0x60000 + 64 * v + 4 * w) = .code v w := by
    rw [target_above_buffers (by omega)]
    simp (disch := omega) only [if_neg, if_pos]
    congr 1 <;> omega
  rw [State.readOffset, ht]

theorem readOffset_heap (s : State) {i w : Nat} (hi : i < 256) (hw : w < 2) :
    s.readOffset (0x70000 + 8 * i + 4 * w) = s.heapWindow i w := by
  have ht : target (0x70000 + 8 * i + 4 * w) = .heap i w := by
    rw [target_above_buffers (by omega)]
    simp (disch := omega) only [if_neg, if_pos]
    congr 1 <;> omega
  rw [State.readOffset, ht]

theorem readOffset_freq (s : State) {v : Nat} (hv : v < 256) : s.readOffset (0x80000 + 4 * v) = tableGet s.freq v := by
  have ht : target (0x80000 + 4 * v) = .freq v := by
    rw [target_above_buffers (by omega)]
    simp (disch := omega) only [if_neg, if_pos]
    congr 1; omega
  simp only [State.readOffset, ht, State.freqWindow]

/-- The offsets of the four buffers are buffer words (20_memory.md R81). -/
theorem target_of_inBuffer {off : Nat} (h : InBuffer off) : target off = .buffer := by
  unfold target
  unfold InBuffer at h
  unfold Config.msgBase Config.tbsEnd Config.mbsBase Config.nodeBase at *
  rcases h with h | h <;> simp (disch := omega) only [if_neg, if_pos]

theorem readOffset_buffer (s : State) {off : Nat} (h : InBuffer off) :
    s.readOffset off = s.mem.readWord s.draws off := by
  rw [State.readOffset, target_of_inBuffer h]

/-! ## The words of the windows -/

/-- Word 0 of a NODE entry: VALUE [15:8], KIND [0] (20_memory.md R85). -/
theorem node_word0_toNat (x : Node) :
    (x.word 0).toNat = 256 * x.value.toNat + (if x.kind = .internal then 1 else 0) := by
  rw [Node.word, toNat_append_eq_add, toNat_append_eq_add, toNat_append_eq_add]
  cases x.kind <;> simp [NodeKind.bit] <;> omega

/-- Word 1 of a NODE entry: RIGHT [24:16], LEFT [8:0] (20_memory.md R85). -/
theorem node_word1_toNat (x : Node) : (x.word 1).toNat = 65536 * x.right.toNat + x.left.toNat := by
  rw [Node.word, toNat_append_eq_add, toNat_append_eq_add, toNat_append_eq_add]
  simp
  omega

theorem node_word2_toNat (x : Node) : (x.word 2).toNat = x.parent.toNat := by
  rw [Node.word, BitVec.toNat_setWidth]
  omega

/-- Word 0 of a valid CODE entry: VALID [31], LEN [7:0] (20_memory.md R85). -/
theorem code_word0_toNat {c : CodeEntry} (h : c.valid = true) : (c.word 0).toNat = 2 ^ 31 + c.len.toNat := by
  rw [CodeEntry.word, if_pos rfl, toNat_append_eq_add, toNat_append_eq_add, h]
  simp

/-- Words 1 to 8 of a CODE entry hold BITS, 32 bits each (20_memory.md R85). -/
theorem code_wordBits_getLsbD (c : CodeEntry) {k j : Nat} (hk : k < 8) (hj : j < 32) :
    (c.word (1 + k)).getLsbD j = c.bits.getLsbD (32 * k + j) := by
  rw [CodeEntry.word, if_neg (by omega), if_pos (by omega), BitVec.getLsbD_extractLsb', Nat.add_sub_cancel_left]
  simp [hj]

theorem code_word_beyond (c : CodeEntry) {w : Nat} (h : 9 ≤ w) : c.word w = 0#32 := by
  rw [CodeEntry.word, if_neg (by omega), if_neg (by omega)]

theorem heapItem_word1_toNat (x : HeapItem) : (x.word 1).toNat = x.tag.toNat := by
  rw [HeapItem.word, BitVec.toNat_setWidth]
  omega

/-- Settles O14: each window entry in use word by word, and the mask of every other entry. -/
theorem windowsShowOnlyEntriesInUse : Obligations.WindowsShowOnlyEntriesInUse := by
  refine ⟨fun s n hn hc => ?_, fun s v hv hi hvalid => ?_, fun s i hi hs => ?_, fun s v hv => readOffset_freq s hv,
    fun s => ⟨fun n w hn hw hc => ?_, fun v w hv hw hi => ?_, fun v w hv hw hvalid => ?_, fun i w hi hw hs => ?_⟩⟩
  · have hread : ∀ w, w < 4 → s.readOffset (0x50000 + 16 * n + 4 * w) = (tableGet s.arena.nodes n).word w :=
      fun w hw => (readOffset_node s hn hw).trans (if_pos hc)
    exact ⟨(congrArg BitVec.toNat (hread 0 (by omega))).trans (node_word0_toNat _),
      (congrArg BitVec.toNat (hread 1 (by omega))).trans (node_word1_toNat _),
      (congrArg BitVec.toNat (hread 2 (by omega))).trans (node_word2_toNat _), hread 3 (by omega)⟩
  · have hread : ∀ w, w < 16 → s.readOffset (0x60000 + 64 * v + 4 * w) = (tableGet s.code v).word w :=
      fun w hw => (readOffset_code s hv hw).trans (if_pos (by simp [hi, hvalid]))
    refine ⟨(congrArg BitVec.toNat (hread 0 (by omega))).trans (code_word0_toNat hvalid), fun k j hk hj => ?_,
      fun k hk hk' => (hread k hk').trans (code_word_beyond _ hk)⟩
    rw [hread (1 + k) (by omega), code_wordBits_getLsbD _ hk hj]
  · have hread : ∀ w, w < 2 → s.readOffset (0x70000 + 8 * i + 4 * w) = (tableGet s.heap.items i).word w :=
      fun w hw => (readOffset_heap s hi hw).trans (if_pos hs)
    exact ⟨hread 0 (by omega), (congrArg BitVec.toNat (hread 1 (by omega))).trans (heapItem_word1_toNat _)⟩
  · rw [readOffset_node s hn hw, State.nodeWindow, if_neg (by omega)]
  · rw [readOffset_code s hv hw, State.codeWindow, if_neg (by simp [hi])]
  · rw [readOffset_code s hv hw, State.codeWindow, if_neg (by simp [hvalid])]
  · rw [readOffset_heap s hi hw, State.heapWindow, if_neg (by omega)]

/-! ## Words, bytes and stream bits of the buffers -/

/-- An aligned word that begins in a buffer lies in it with all four of its bytes. -/
theorem inBuffer_word {off : Nat} (h : InBuffer off) (ha : off % 4 = 0) : ∀ k, k < 4 → InBuffer (off + k) :=
  target_buffer (target_of_inBuffer h) ha

/-- Byte j of a word is the byte at its offset plus j (20_memory.md R83). -/
theorem readWord_extractByte (m : Memory) (n a : Nat) {j : Nat} (hj : j < 4) :
    (m.readWord n a).extractLsb' (8 * j) 8 = m.readByte n (a + j) := by
  apply BitVec.eq_of_getLsbD_eq
  intro k hk
  rw [BitVec.getLsbD_extractLsb', readWord_getLsbD m n a (by omega), show (8 * j + k) / 8 = j by omega,
    show (8 * j + k) % 8 = k by omega]
  simp [hk]

/-- The byte at a place of a buffer, as a part of the host word that holds it. -/
theorem readByte_eq_readOffset (s : State) {base k : Nat} (hb : InBuffer (base + 4 * (k / 4))) :
    s.mem.readByte s.draws (base + k) =
      (s.readOffset (base + 4 * (k / 4))).extractLsb' (8 * (k % 4)) 8 := by
  rw [readOffset_buffer s hb, readWord_extractByte _ _ _ (Nat.mod_lt k (by omega)), Nat.add_assoc, Nat.div_add_mod]

/-- A stream bit, as a bit of the host word that holds it. -/
theorem readBit_eq_readOffset (s : State) {base i : Nat} (hb : InBuffer (base + 4 * (i / 32))) :
    s.mem.readBit s.draws base i = (s.readOffset (base + 4 * (i / 32))).getLsbD (i % 32) := by
  rw [readOffset_buffer s hb, readBit_eq_readWord]

theorem message_getElem? (s : State) {k : Nat} (hk : k < s.msgLen.toNat) :
    s.message[k]? = some (s.mem.readByte s.draws (Config.msgBase + k)) := by
  simp [State.message, hk]

theorem messageBits_getElem? (s : State) {i : Nat} (hi : i < s.mbsLen.toNat) :
    s.messageBits[i]? = some (s.mem.readBit s.draws Config.mbsBase i) := by
  simp [State.messageBits, hi]

/-- Settles O16 by the byte order of a host word. -/
theorem buffersPackBytesLittleEndian : Obligations.BuffersPackBytesLittleEndian := by
  intro s k hk
  have hmsg : InBuffer (0x10000 + 4 * (k / 4)) := .inl (by rw [Config.msgBase, Config.tbsEnd]; omega)
  have hout : InBuffer (0x20000 + 4 * (k / 4)) := .inl (by rw [Config.msgBase, Config.tbsEnd]; omega)
  refine ⟨fun hlen => ?_, readByte_eq_readOffset s hout⟩
  rw [message_getElem? s hlen]
  exact congrArg some (readByte_eq_readOffset s hmsg)

/-- Settles O17 by the bit order of a host word. -/
theorem streamBitsSitInTheirWords : Obligations.StreamBitsSitInTheirWords := by
  refine ⟨fun s i => ⟨fun hi => ?_, fun hi hlen => ?_⟩, fun m n base i j b hw _ => ?_⟩
  · have htbs : InBuffer (0x30000 + 4 * (i / 32)) := .inl (by rw [Config.msgBase, Config.tbsEnd]; omega)
    exact readBit_eq_readOffset s htbs
  · have hmbs : InBuffer (0x40000 + 4 * (i / 32)) := .inr (by rw [Config.mbsBase, Config.nodeBase]; omega)
    rw [messageBits_getElem? s hlen]
    exact congrArg some (readBit_eq_readOffset s hmbs)
  · rw [← readBit_eq_readWord, ← readBit_eq_readWord, readBit_writeBit hw]

/-! ## A buffer word reads back -/

theorem hostWrite_buffer {s : State} {off : Nat} (w : Word) (h : InBuffer off) (hbusy : s.status.busy = false) :
    s.hostWrite off w = .next { s with mem := s.mem.writeWord off w } := by
  rw [hostWrite_idle hbusy, State.writeIdle, target_of_inBuffer h]

/-- A read of an offset that is no buffer word does not depend on the buffers. -/
theorem readOffset_mem (s : State) (m : Memory) {off : Nat} (h : target off ≠ .buffer) :
    ({ s with mem := m } : State).readOffset off = s.readOffset off := by
  unfold State.readOffset
  cases ht : target off with
  | csr r => cases r <;> rfl
  | buffer => exact absurd ht h
  | _ => rfl

/-- Every aligned offset after the write of a buffer word. -/
theorem readOffset_writeWord {s : State} {off off' : Nat} (w : Word) (hw : s.mem.wf) (hb : InBuffer off)
    (ha : off % 4 = 0) (ha' : off' % 4 = 0) :
    ({ s with mem := s.mem.writeWord off w } : State).readOffset off' =
      if off' = off then w else s.readOffset off' := by
  by_cases ht : target off' = .buffer
  · rw [State.readOffset, State.readOffset, ht]
    exact readWord_writeWord hw (inBuffer_word hb ha) w s.draws ha ha'
  · have hne : off' ≠ off := fun e => ht (e ▸ target_of_inBuffer hb)
    rw [readOffset_mem s _ ht, if_neg hne]

/-- Two steps that go on are a run of two. -/
theorem run_two {s t u : State} (h1 : step s = .next t) (h2 : step t = .next u) :
    Host.Core.run Sys2Proof.core 2 s = .next u := by
  have hrun : ∀ k x y, step x = .next y → Host.Core.run Sys2Proof.core (k + 1) x = Host.Core.run Sys2Proof.core k y :=
    fun k x y h => by simp only [Host.Core.run, show Sys2Proof.core.step x = .next y from h]
  rw [hrun 1 s t h1, hrun 0 t u h2]
  rfl

/-- A host that writes a buffer word and then reads it observes what it wrote (20_memory.md R82, R91). -/
theorem run_write_read {s : State} {off : Nat} {w : Word} {rest : List HostEvent} (hw : s.mem.wf)
    (hbusy : s.status.busy = false) (ha : off % 4 = 0) (hb : InBuffer off) (hr : (Loc.offset off).resolve = some off)
    (hq : s.hostQueue = .write (.offset off) 4 w :: .read (.offset off) 4 :: rest) :
    ∃ t, Host.Core.run Sys2Proof.core 2 s = .next t ∧ t.hostQueue = rest ∧ t.observed = ⟨off, w⟩ :: s.observed := by
  obtain ⟨hsteps, -⟩ := registersReadAndTakeWrites
  obtain ⟨d, hwrite⟩ := (hsteps s _ _ off w hbusy hr ha).2 hq
  obtain ⟨d', n, hread⟩ := (hsteps { s with
    mem := s.mem.writeWord off w, hostQueue := .read (.offset off) 4 :: rest, delay := d } rest _ off w hbusy hr ha).1 rfl
  refine ⟨_, run_two (hwrite.trans (hostWrite_buffer w hb hbusy)) hread, rfl, ?_⟩
  rw [readOffset_buffer _ hb, readWord_writeWord hw (inBuffer_word hb ha) w _ ha ha, if_pos rfl]

/-- Settles O15: the write is the buffer's word write, and the read that follows it observes the word. -/
theorem bufferWordsReadBack : Obligations.BufferWordsReadBack := by
  intro s off w hw hbusy ha hoff
  have hb : InBuffer off := hoff
  have hr : (Loc.offset off).resolve = some off := if_pos (by rw [Config.apertureSize]; omega)
  refine ⟨⟨{ s with mem := s.mem.writeWord off w }, hostWrite_buffer w hb hbusy, rfl, ?_, fun off' ha' hne => ?_⟩,
    fun rest => run_write_read hw hbusy ha hb hr⟩
  · rw [readOffset_writeWord w hw hb ha ha, if_pos rfl]
  · rw [readOffset_writeWord w hw hb ha ha', if_neg hne]

/-! ## Which accesses the host has -/

/-- The step of an access whose address or width is not legal ends as the check does. -/
theorem hostStep_refused {s : State} {rest : List HostEvent} {loc : Loc} {bytes : Nat} {w : Word} {e : HostEvent}
    (hq : s.hostQueue = e :: rest) (he : e = .read loc bytes ∨ e = .write loc bytes w) {r : Refusal}
    (h : checkAccess loc bytes = .refused r) : hostStep s = .refused r := by
  rcases he with rfl | rfl <;> simp only [hostStep, hq, performEvent, h]

theorem hostStep_faults {s : State} {rest : List HostEvent} {loc : Loc} {bytes : Nat} {w : Word} {e : HostEvent}
    (hq : s.hostQueue = e :: rest) (he : e = .read loc bytes ∨ e = .write loc bytes w) {f : Fault}
    (h : checkAccess loc bytes = .fault f) : hostStep s = .fault f := by
  rcases he with rfl | rfl <;> simp only [hostStep, hq, performEvent, h]

/-- An access inside the aperture that is not an aligned 32-bit word (20_memory.md R82). -/
theorem checkAccess_refused {loc : Loc} {bytes off : Nat} (hr : loc.resolve = some off)
    (h : bytes ≠ 4 ∨ off % 4 ≠ 0) : checkAccess loc bytes = .refused .subWordOrMisaligned := by
  simp only [checkAccess, hr]
  exact if_neg (by omega)

theorem checkAccess_outside {loc : Loc} {bytes : Nat} (hr : loc.resolve = none) :
    checkAccess loc bytes = .fault .outsideAperture := by
  simp only [checkAccess, hr]

/-- A bus address inside the aperture names the offset at its distance from BASE (00_scope.md R13). -/
theorem resolve_bus {off : Nat} (h : off < Config.apertureSize) : (Loc.bus (Config.base + off)).resolve = some off := by
  rw [Loc.resolve, Nat.add_sub_cancel_left, if_pos ⟨Nat.le_add_right .., h⟩]

/-- Settles O19 by what the access check answers. -/
theorem onlyAlignedWordsOfTheApertureAreAccessed : Obligations.OnlyAlignedWordsOfTheApertureAreAccessed := by
  intro s rest loc bytes w e ha hq he
  rw [(step_eq s).1 ha]
  have outside : loc.resolve = none → hostStep s = .fault .outsideAperture := fun hr =>
    hostStep_faults hq he (checkAccess_outside hr)
  refine ⟨?_, fun off hr h => hostStep_refused hq he (checkAccess_refused hr h), ?_, ?_⟩
  · rintro off rfl hoff
    exact resolve_bus hoff
  · rintro off rfl hoff
    exact outside (if_neg (Nat.not_lt.mpr hoff))
  · rintro addr rfl haddr
    exact outside (if_neg (by rw [Config.apertureSize]; omega))

end Sys2Proof.Machine
end

section
/-! PROOFS. Commands and their words: a command is read back from its word, a word that decodes is its command's word,
and every other word is illegal (O1, O2, O3, O4). -/

namespace Sys2Proof.Machine

/-! ## Every command is read back from its word -/

/-- Settles O1, one lemma per constructor. -/
theorem decodingAnEncodedCommandGivesItBack : Obligations.DecodingAnEncodedCommandGivesItBack
  | .heapNew cap pol => Laws.ReadBack.heapNew cap pol
  | .heapInsert tag => Laws.ReadBack.heapInsert tag
  | .heapExtract => Laws.ReadBack.heapExtract
  | .heapPeek idx => Laws.ReadBack.heapPeek idx
  | .heapSize => Laws.ReadBack.heapSize
  | .buildTree => Laws.ReadBack.buildTree
  | .buildIndex => Laws.ReadBack.buildIndex
  | .encode => Laws.ReadBack.encode
  | .encodeTree => Laws.ReadBack.encodeTree
  | .deserializeTree => Laws.ReadBack.deserializeTree
  | .decode => Laws.ReadBack.decode
  | .teardown => Laws.ReadBack.teardown

/-- Settles O3: each of the words is the word of its command. -/
theorem writtenWordsDecodeToTheirCommands : Obligations.WrittenWordsDecodeToTheirCommands :=
  ⟨Laws.ReadBack.heapNew 6#9 .min rfl, Laws.ReadBack.heapNew 256#9 .max rfl, Laws.ReadBack.heapInsert 5#16 rfl,
    Laws.ReadBack.heapPeek 3#9 rfl, Laws.ReadBack.heapExtract rfl, Laws.ReadBack.heapSize rfl,
    Laws.ReadBack.buildTree rfl, Laws.ReadBack.encodeTree rfl, Laws.ReadBack.buildIndex rfl,
    Laws.ReadBack.teardown rfl⟩

/-! ## Words by their fields (30_encoding.md R112 to R115) -/

/-- The field of a masked word, where the mask keeps the whole field. -/
theorem extractLsb'_of_masked {w m v : Word} (h : w &&& m = v) {start len : Nat}
    (hm : m.extractLsb' start len = BitVec.allOnes len) : w.extractLsb' start len = v.extractLsb' start len := by
  rw [← h, BitVec.extractLsb'_and, hm, BitVec.and_allOnes]

theorem formatC_reserved {w : Word} (h : w &&& 0xFEFE00FF#32 = 0x01#32) :
    opcField w = 0x01#8 ∧ w.extractLsb' 17 7 = 0#7 ∧ w.extractLsb' 25 7 = 0#7 :=
  ⟨extractLsb'_of_masked h rfl, extractLsb'_of_masked h rfl, extractLsb'_of_masked h rfl⟩

theorem formatT_reserved {w : Word} (h : w &&& 0xFF0000FF#32 = 0x02#32) :
    opcField w = 0x02#8 ∧ w.extractLsb' 24 8 = 0#8 :=
  ⟨extractLsb'_of_masked h rfl, extractLsb'_of_masked h rfl⟩

theorem formatI_reserved {w : Word} (h : w &&& 0xFFFE00FF#32 = 0x04#32) :
    opcField w = 0x04#8 ∧ w.extractLsb' 17 15 = 0#15 :=
  ⟨extractLsb'_of_masked h rfl, extractLsb'_of_masked h rfl⟩

theorem polField_bit (w : Word) : (polField w).bit = w.extractLsb' 24 1 := by
  apply BitVec.eq_of_getLsbD_eq
  intro i hi
  obtain rfl : i = 0 := by omega
  cases h : w.getLsbD 24 <;> simp [polField, Polarity.bit, h, -BitVec.getLsbD_eq_getElem]

/-- A word is its operand and reserved bits above its OPC. -/
theorem append_opcField (w : Word) : w.extractLsb' 8 24 ++ opcField w = w :=
  (BitVec.extractLsb'_append_extractLsb'_eq_extractLsb' rfl).trans BitVec.extractLsb'_eq_self

theorem formatC_word {w : Word} (hopc : opcField w = 0x01#8) (hlow : w.extractLsb' 17 7 = 0#7)
    (hhigh : w.extractLsb' 25 7 = 0#7) : encode (.heapNew (capField w) (polField w)) = w :=
  calc encode (.heapNew (capField w) (polField w))
    _ = 0#7 ++ (polField w).bit ++ 0#7 ++ capField w ++ 0x01#8 := rfl
    _ = w.extractLsb' 25 7 ++ w.extractLsb' 24 1 ++ w.extractLsb' 17 7 ++ w.extractLsb' 8 9 ++ opcField w := by
      rw [hhigh, hlow, hopc, polField_bit, capField]
    _ = w.extractLsb' 8 24 ++ opcField w := by
      simp (disch := omega) only [BitVec.extractLsb'_append_extractLsb'_eq_extractLsb']
    _ = w := append_opcField w

theorem formatT_word {w : Word} (hopc : opcField w = 0x02#8) (hhigh : w.extractLsb' 24 8 = 0#8) :
    encode (.heapInsert (tagField w)) = w :=
  calc encode (.heapInsert (tagField w))
    _ = w.extractLsb' 24 8 ++ w.extractLsb' 8 16 ++ opcField w := by rw [hhigh, hopc, encode, tagField]
    _ = w.extractLsb' 8 24 ++ opcField w := by
      simp (disch := omega) only [BitVec.extractLsb'_append_extractLsb'_eq_extractLsb']
    _ = w := append_opcField w

theorem formatI_word {w : Word} (hopc : opcField w = 0x04#8) (hhigh : w.extractLsb' 17 15 = 0#15) :
    encode (.heapPeek (idxField w)) = w :=
  calc encode (.heapPeek (idxField w))
    _ = w.extractLsb' 17 15 ++ w.extractLsb' 8 9 ++ opcField w := by rw [hhigh, hopc, encode, idxField]
    _ = w.extractLsb' 8 24 ++ opcField w := by
      simp (disch := omega) only [BitVec.extractLsb'_append_extractLsb'_eq_extractLsb']
    _ = w := append_opcField w

/-- A format without operands keeps every bit. -/
theorem formatN_word {w v : Word} (h : w &&& 0xFFFFFFFF#32 = v) : v = w := h.symm.trans BitVec.and_allOnes

/-! ## What decodes -/

/-- A word that matches a row of the opcode map is the word of the row's command (30_encoding.md R122). -/
theorem encode_instrOf (w : Word) :
    ∀ row ∈ opcodeTable, w &&& row.mask = row.opc.setWidth 32 → encode (instrOf row.op w) = w := by
  simp only [opcodeTable, List.forall_mem_cons]
  refine ⟨fun h => ?_, fun h => ?_, formatN_word, fun h => ?_, formatN_word, formatN_word, formatN_word, formatN_word,
    formatN_word, formatN_word, formatN_word, formatN_word, nofun⟩
  · obtain ⟨hopc, hlow, hhigh⟩ := formatC_reserved h
    exact formatC_word hopc hlow hhigh
  · obtain ⟨hopc, hhigh⟩ := formatT_reserved h
    exact formatT_word hopc hhigh
  · obtain ⟨hopc, hhigh⟩ := formatI_reserved h
    exact formatI_word hopc hhigh

/-- A word decodes only through a row of the opcode map that it matches, to that row's command. -/
theorem exists_row_of_decode {w : Word} {i : Instr} (h : decode w = .ok i) :
    ∃ row ∈ opcodeTable, w &&& row.mask = row.opc.setWidth 32 ∧ instrOf row.op w = i ∧ i.wellFormed = true := by
  unfold decode at h
  split at h
  · cases h
  · rename_i row hrow
    split_ifs at h with hmask hwf
    cases h
    exact ⟨row, List.mem_of_find?_eq_some hrow, hmask, rfl, hwf⟩

/-- Settles O2 by the row of the opcode map that the word matches. -/
theorem encodingADecodedWordGivesItBack : Obligations.EncodingADecodedWordGivesItBack := by
  intro w i h
  obtain ⟨row, hrow, hmask, rfl, hwf⟩ := exists_row_of_decode h
  exact ⟨encode_instrOf w row hrow hmask, hwf⟩

/-! ## Legal words -/

/-- The opcodes of format N (30_encoding.md R115, R117). -/
def formatNOpcodes : List Byte := [0x03#8, 0x05#8, 0x10#8, 0x11#8, 0x12#8, 0x13#8, 0x14#8, 0x15#8, 0x16#8]

/-- A word that R118 to R120 do not make illegal, by its bit fields. -/
def LegalWord (w : Word) : Prop :=
  (opcField w = 0x01#8 ∧ w.extractLsb' 17 7 = 0#7 ∧ w.extractLsb' 25 7 = 0#7 ∧ (capField w).toNat ≤ 256) ∨
  (opcField w = 0x02#8 ∧ w.extractLsb' 24 8 = 0#8) ∨
  (opcField w = 0x04#8 ∧ w.extractLsb' 17 15 = 0#15) ∨
  (decide (opcField w ∈ formatNOpcodes) = true ∧ w.extractLsb' 8 24 = 0#24)

/-- The word of a well-formed command is legal. -/
theorem legalWord_encode : ∀ i : Instr, i.wellFormed = true → LegalWord (encode i)
  | .heapNew cap pol, h => by
    obtain ⟨-, hmask, hcap, -⟩ := formatC_fields cap pol
    obtain ⟨hopc, hlow, hhigh⟩ := formatC_reserved hmask
    exact .inl ⟨hopc, hlow, hhigh, by rw [hcap]; exact of_decide_eq_true h⟩
  | .heapInsert tag, _ => .inr (.inl (formatT_reserved (formatT_fields tag).2.1))
  | .heapPeek idx, _ => .inr (.inr (.inl (formatI_reserved (formatI_fields idx).2.1)))
  | .heapExtract, _ | .heapSize, _ | .buildTree, _ | .buildIndex, _ | .encode, _ | .encodeTree, _
  | .deserializeTree, _ | .decode, _ | .teardown, _ => .inr (.inr (.inr ⟨rfl, rfl⟩))

/-- Every opcode of format N, zero-extended, is the word of a command. -/
theorem exists_encode_formatN :
    ∀ opc ∈ formatNOpcodes, ∃ i : Instr, i.wellFormed = true ∧ encode i = 0#24 ++ opc := by
  simp only [formatNOpcodes, List.forall_mem_cons]
  exact ⟨⟨.heapExtract, rfl, rfl⟩, ⟨.heapSize, rfl, rfl⟩, ⟨.buildTree, rfl, rfl⟩, ⟨.buildIndex, rfl, rfl⟩,
    ⟨.encode, rfl, rfl⟩, ⟨.encodeTree, rfl, rfl⟩, ⟨.deserializeTree, rfl, rfl⟩, ⟨.decode, rfl, rfl⟩,
    ⟨.teardown, rfl, rfl⟩, nofun⟩

/-- A legal word is the word of a well-formed command. -/
theorem LegalWord.exists_encode {w : Word} : LegalWord w → ∃ i : Instr, i.wellFormed = true ∧ encode i = w
  | .inl ⟨hopc, hlow, hhigh, hcap⟩ => ⟨.heapNew _ _, decide_eq_true hcap, formatC_word hopc hlow hhigh⟩
  | .inr (.inl ⟨hopc, hhigh⟩) => ⟨_, rfl, formatT_word hopc hhigh⟩
  | .inr (.inr (.inl ⟨hopc, hhigh⟩)) => ⟨_, rfl, formatI_word hopc hhigh⟩
  | .inr (.inr (.inr ⟨hopc, hhigh⟩)) => by
    obtain ⟨i, hwf, hi⟩ := exists_encode_formatN _ (of_decide_eq_true hopc)
    exact ⟨i, hwf, by rw [hi, ← hhigh, append_opcField]⟩

/-- The legal words are those that decode. -/
theorem legalWord_iff {w : Word} : LegalWord w ↔ ∃ i, decode w = .ok i := by
  constructor
  · intro h
    obtain ⟨i, hwf, rfl⟩ := h.exists_encode
    exact ⟨i, decodingAnEncodedCommandGivesItBack i hwf⟩
  · rintro ⟨i, h⟩
    obtain ⟨rfl, hwf⟩ := encodingADecodedWordGivesItBack w i h
    exact legalWord_encode i hwf

/-- Settles O4: the legal words are those that decode, and a step reports any other. -/
theorem illegalWordsCompleteWithIllegalCommand : Obligations.IllegalWordsCompleteWithIllegalCommand := by
  intro w s hs n legal
  have hlegal : legal ↔ ∃ i, decode w = .ok i := legalWord_iff
  obtain ⟨-, -, runs, reports⟩ := step_eq s
  rw [hlegal]
  refine ⟨fun h => ?_, fun ⟨i, hi⟩ => ⟨i, hi, runs w i hs hi⟩⟩
  cases hd : decode w with
  | ok i => exact absurd ⟨i, hd⟩ h
  | error e => exact ⟨s.draws + 1, reports w e hs hd⟩

end Sys2Proof.Machine
end

section
/-! PROOFS. The heap commands, equation by equation, and the bound on HEAP_SIZE (40_heap.md; O21, O22, O24 to O26,
O55). -/

namespace Sys2Proof.Machine

/-! ## HEAP_SIZE stays within CAP (R151) -/

theorem bounded_of_size_zero {h : Heap} (hz : h.size = 0#9) (hc : h.cap.toNat ≤ Config.heapSlots) : h.bounded :=
  ⟨by simp [hz], hc⟩

/-- Settles O55 by what a step does to the heap, BUILD_TREE by its inserts and extracts from an empty heap. -/
theorem stepKeepsTheHeapBounded : Obligations.StepKeepsTheHeapBounded := by
  refine ⟨bounded_of_size_zero rfl (Nat.zero_le _), fun s t hb h => ?_⟩
  cases step_heapEffect h with
  | kept heap => rwa [heap]
  | emptied size cap => exact bounded_of_size_zero size cap
  | inserted x heap => exact heapInvariant_bounded.insert hb heap
  | extracted x heap => exact heapInvariant_bounded.extract hb heap
  | built heap =>
    rw [heap]
    exact heapInvariant_bounded.builtTree s (startBuild_bounded s)

/-! ## HEAP_INSERT (R142, R145) -/

theorem exec_heapInsert_of_insert {tag : Tag} {s : State} {h : Heap} (hi : s.heap.insert ⟨s.arg0, tag⟩ = some h) :
    exec (.heapInsert tag) s = .next ({ s with heap := h } : State).complete := by
  simp only [exec, execHeapInsert, hi]

theorem insert_pol {h h' : Heap} {x : HeapItem} (hi : h.insert x = some h') : h'.pol = h.pol := by
  rcases insert_cases x h with ⟨-, e⟩ | ⟨-, e⟩ <;> rw [hi] at e <;> cases e
  rfl

/-- An insert leaves every entry above the new item alone. -/
theorem insert_above {h h' : Heap} {x : HeapItem} (hb : h.bounded) (hi : h.insert x = some h') (j : Nat)
    (hj : h.size.toNat < j) : tableGet h'.items j = tableGet h.items j := by
  rcases insert_cases x h with ⟨-, e⟩ | ⟨hc, e⟩ <;> rw [hi] at e <;> cases e
  obtain ⟨-, hlt, hcap⟩ := insert_size hb hc
  have hslot : h.size.toNat < Config.heapSlots := by show _ < 256; omega
  exact ((siftUp_entries h.pol _ _ _ hslot).2 j hj).trans (tableGet_tableSet_other _ _ (Nat.ne_of_lt hj))

/-- Settles O22 by what an insert into a heap that is not full gives. -/
theorem heapInsertAddsTheItem : Obligations.HeapInsertAddsTheItem := by
  intro tag s hb hc
  obtain ⟨-, hroom, -⟩ := insert_size hb hc
  obtain ⟨h, hi, spec⟩ := exists_insert ⟨s.arg0, tag⟩ hb hroom
  exact ⟨_, exec_heapInsert_of_insert hi, rfl, spec.size, spec.cap, insert_pol hi, spec.live, spec.ordered,
    insert_above hb hi⟩

/-! ## HEAP_EXTRACT (R146) -/

theorem exec_heapExtract_of_extract {s : State} {x : HeapItem} {h : Heap} (he : s.heap.extract = some (x, h)) :
    exec .heapExtract s = .next ({ s with heap := h, result0 := x.key, result1 := ⟨true, x.tag⟩ } : State).complete := by
  simp only [exec, execHeapExtract, he]
  rfl

/-- An extract answers the root and keeps the polarity. -/
theorem extract_root_pol {h h' : Heap} {x : HeapItem} (he : h.extract = some (x, h')) :
    x = tableGet h.items 0 ∧ h'.pol = h.pol := by
  rcases extract_cases h with ⟨-, e⟩ | ⟨-, e⟩ <;> rw [he] at e <;> cases e
  exact ⟨rfl, rfl⟩

/-- With `n` items left, the removal of the root leaves every entry from `n` up alone. -/
theorem removeRoot_above (h : Heap) {n j : Nat} (hn : n ≤ Config.heapSlots) (hj : n ≤ j) :
    tableGet (h.removeRoot n) j = tableGet h.items j := by
  refine ((siftDown_entries h.pol n n 0 _ hn).2 j hj).trans ?_
  by_cases h0 : 0 = j
  · obtain rfl : n = 0 := by omega
    subst h0
    exact tableGet_tableSet_same _ _ (by decide)
  · exact tableGet_tableSet_other _ _ h0

/-- An extract leaves every entry from the last item's up alone. -/
theorem extract_above {h h' : Heap} {x : HeapItem} (hb : h.bounded) (he : h.extract = some (x, h')) (j : Nat)
    (hj : h.size.toNat ≤ j + 1) : tableGet h'.items j = tableGet h.items j := by
  obtain ⟨hsize, hcap⟩ := hb
  rcases extract_cases h with ⟨-, e⟩ | ⟨-, e⟩ <;> rw [he] at e <;> cases e
  exact removeRoot_above h (by omega) (by omega)

/-- In an ordered heap no item held is before the root. -/
theorem root_first_of_mem {h : Heap} (ho : h.ordered) {x : HeapItem} (hx : x ∈ h.live) :
    before h.pol x (tableGet h.items 0) = false := by
  obtain ⟨i, hi, rfl⟩ := List.mem_map.mp hx
  exact root_first ho i (List.mem_range.mp hi)

/-- Settles O24 by what an extract from a heap with items gives. -/
theorem heapExtractRemovesTheFirstItem : Obligations.HeapExtractRemovesTheFirstItem := by
  intro s hb hz top
  obtain ⟨x, h, he, spec⟩ := exists_extract hb (extract_size hz).2
  obtain ⟨rfl, hpol⟩ := extract_root_pol he
  exact ⟨_, exec_heapExtract_of_extract he, rfl, spec.size.symm, spec.cap, hpol, spec.live,
    fun ho => ⟨spec.ordered ho, fun y hy => root_first_of_mem ho (spec.live.mem_iff.mpr (List.mem_cons_of_mem _ hy))⟩,
    extract_above hb he⟩

/-! ## HEAP_NEW and the queries (R144, R146 to R148) -/

/-- Settles O21: a CAP of at most 256 is well formed. -/
theorem heapNewMakesAnEmptyHeap : Obligations.HeapNewMakesAnEmptyHeap := by
  intro cap pol s hcap
  have hwf : (Instr.heapNew cap pol).wellFormed = true := decide_eq_true hcap
  simp only [exec, execHeapNew, hwf, if_true]
  rfl

theorem exec_heapExtract_of_empty {s : State} (hz : s.heap.size = 0#9) :
    exec .heapExtract s = .next ({ s with result0 := 0#32, result1 := ⟨false, 0#16⟩ } : State).complete := by
  have he : s.heap.extract = none := if_pos hz
  simp only [exec, execHeapExtract, he]
  rfl

theorem exec_heapPeek_of_lt {idx : BitVec 9} {s : State} (hi : idx.toNat < s.heap.size.toNat) :
    exec (.heapPeek idx) s = .next ({ s with
      result0 := (tableGet s.heap.items idx.toNat).key
      result1 := ⟨true, (tableGet s.heap.items idx.toNat).tag⟩ } : State).complete := by
  have hp : s.heap.peek idx.toNat = some (tableGet s.heap.items idx.toNat) := if_pos hi
  simp only [exec, execHeapPeek, hp]
  rfl

theorem exec_heapPeek_of_le {idx : BitVec 9} {s : State} (hi : s.heap.size.toNat ≤ idx.toNat) :
    exec (.heapPeek idx) s = .next ({ s with result0 := 0#32, result1 := ⟨false, 0#16⟩ } : State).complete := by
  have hp : s.heap.peek idx.toNat = none := if_neg (Nat.not_lt.mpr hi)
  simp only [exec, execHeapPeek, hp]
  rfl

theorem exec_heapSize (s : State) : exec .heapSize s = .next
    ({ s with result0 := BitVec.ofNat 32 s.heap.size.toNat, result1 := ⟨false, 0#16⟩ } : State).complete := by
  rw [BitVec.ofNat_toNat]
  rfl

/-- Settles O25, one equation per query. -/
theorem heapQueriesWriteOnlyTheResults : Obligations.HeapQueriesWriteOnlyTheResults :=
  ⟨fun _ => exec_heapExtract_of_empty, fun _ _ => exec_heapPeek_of_lt, fun _ _ => exec_heapPeek_of_le, exec_heapSize⟩

/-! ## Equal keys (R142, R143) -/

/-- Of two items with one key neither is before the other. -/
theorem before_of_key_eq (pol : Polarity) {a b : HeapItem} (h : a.key = b.key) : before pol a b = false := by
  cases pol <;> simp [before, h]

/-- Sift-up stops at an item that is not before its parent. -/
theorem siftUp_eq_self {n : Nat} (pol : Polarity) (fuel i : Nat) (t : Vector HeapItem n)
    (h : before pol (tableGet t i) (tableGet t (parentOf i)) = false) : siftUp pol fuel i t = t := by
  cases fuel with
  | zero => rfl
  | succ fuel => simp [siftUp, h]

/-- An item that is not before its first parent stays where the insert put it. -/
theorem insert_items_of_not_before {h h' : Heap} {x : HeapItem} (hb : h.bounded) (hz : h.size ≠ 0#9)
    (hx : before h.pol x (tableGet h.items (parentOf h.size.toNat)) = false) (hi : h.insert x = some h') :
    h'.items = tableSet h.items h.size.toNat x := by
  rcases insert_cases x h with ⟨-, e⟩ | ⟨hc, e⟩ <;> rw [hi] at e <;> cases e
  obtain ⟨-, hlt, hcap⟩ := insert_size hb hc
  have hslot : h.size.toNat < Config.heapSlots := by show _ < 256; omega
  have hparent := parentOf_lt (extract_size hz).2
  refine siftUp_eq_self _ _ _ _ ?_
  rwa [tableGet_tableSet_same _ _ hslot, tableGet_tableSet_other _ _ (by omega)]

/-- Sift-down leaves every entry before its start alone. -/
theorem siftDown_below {n : Nat} (pol : Polarity) (size fuel i : Nat) (t : Vector HeapItem n) (hs : size ≤ n)
    {j : Nat} (hj : j < i) : tableGet (siftDown pol size fuel i t) j = tableGet t j := by
  induction fuel generalizing i t with
  | zero => rfl
  | succ fuel ih =>
    simp only [siftDown]
    split
    next h =>
      obtain ⟨hi, hc, -⟩ := firstChild_bounds pol t h.1
      rw [ih _ _ (by omega), tableGet_swapItems t j (by omega) (by omega), if_neg (by omega), if_neg (by omega)]
    next => rfl

/-- Where the child of `i` is before it, sift-down from `i` puts that child at `i`. -/
theorem siftDown_start {n : Nat} (pol : Polarity) {size : Nat} (fuel : Nat) {i : Nat} {t : Vector HeapItem n}
    (hs : size ≤ n) (hl : leftOf i < size)
    (hb : before pol (tableGet t (firstChild pol size i t)) (tableGet t i) = true) :
    tableGet (siftDown pol size (fuel + 1) i t) i = tableGet t (firstChild pol size i t) := by
  obtain ⟨hi, hc, -⟩ := firstChild_bounds pol t hl
  rw [siftDown, if_pos ⟨hl, hb⟩, siftDown_below pol size fuel _ _ hs hi, tableGet_swapItems t i (by omega) (by omega),
    if_neg (by omega), if_pos rfl]

/-- Of two children with one key sift-down compares with the left. -/
theorem firstChild_of_key_eq (pol : Polarity) (size i : Nat) {n : Nat} {t : Vector HeapItem n}
    (h : (tableGet t (leftOf i)).key = (tableGet t (rightOf i)).key) : firstChild pol size i t = leftOf i := by
  simp [firstChild, before_of_key_eq pol h.symm]

/-- Settles O26: neither sift moves an item past one with its key. -/
theorem equalKeysKeepTheirPlaces : Obligations.EqualKeysKeepTheirPlaces := by
  refine ⟨fun tag s hb hc hz hkey => ?_, fun pol size fuel i t hr hs hkey hb => ?_⟩
  · obtain ⟨-, hroom, -⟩ := insert_size hb hc
    obtain ⟨h, hi, -⟩ := exists_insert ⟨s.arg0, tag⟩ hb hroom
    exact ⟨_, exec_heapInsert_of_insert hi, insert_items_of_not_before hb hz (before_of_key_eq _ hkey) hi⟩
  · have hleft : firstChild pol size i t = leftOf i := firstChild_of_key_eq pol size i hkey
    have hstart := siftDown_start pol fuel hs (i := i) (t := t) (by unfold leftOf; omega) (by rwa [hleft])
    rwa [hleft] at hstart

end Sys2Proof.Machine
end

section
/-! PROOFS. BUILD_TREE reads nothing but the message: two builds whose heaps and arenas agree on the entries in use
keep agreeing (41_tree_builder.md R177; O33). -/

namespace Sys2Proof.Machine

/-! ## Tables that agree on their first entries -/

/-- Two tables have the same first `m` entries. -/
def AgreeUpTo {α : Type} [Inhabited α] {n : Nat} (m : Nat) (t t' : Vector α n) : Prop :=
  ∀ i, i < m → tableGet t' i = tableGet t i

section
variable {α : Type} [Inhabited α] {n m : Nat} {t t' : Vector α n}

theorem AgreeUpTo.mono {k : Nat} (h : AgreeUpTo m t t') (hk : k ≤ m) : AgreeUpTo k t t' :=
  fun i hi => h i (Nat.lt_of_lt_of_le hi hk)

/-- One write to both. -/
theorem AgreeUpTo.set (h : AgreeUpTo m t t') (i : Nat) (x : α) : AgreeUpTo m (tableSet t i x) (tableSet t' i x) :=
  fun j hj => by rw [tableGet_tableSet, tableGet_tableSet, h j hj]

/-- One entry more in both. -/
theorem AgreeUpTo.push (h : AgreeUpTo m t t') (x : α) : AgreeUpTo (m + 1) (tableSet t m x) (tableSet t' m x) := by
  intro j hj
  by_cases hjm : j < m
  · exact h.set m x j hjm
  · obtain rfl : j = m := by omega
    by_cases hn : j < n
    · rw [tableGet_tableSet_same _ _ hn, tableGet_tableSet_same _ _ hn]
    · rw [tableGet_of_ge _ (by omega), tableGet_of_ge _ (by omega)]

end

/-! ## The heap operations on agreeing heaps -/

section
variable {n m : Nat} {t t' : Vector HeapItem n} (pol : Polarity)

theorem AgreeUpTo.swapItems (h : AgreeUpTo m t t') {i j : Nat} (hi : i < m) (hj : j < m) :
    AgreeUpTo m (swapItems t i j) (swapItems t' i j) := by
  unfold Machine.swapItems
  rw [h i hi, h j hj]
  exact (h.set i _).set j _

theorem AgreeUpTo.siftUp (h : AgreeUpTo m t t') (fuel : Nat) {i : Nat} (hi : i < m) :
    AgreeUpTo m (siftUp pol fuel i t) (siftUp pol fuel i t') := by
  induction fuel generalizing i t t' with
  | zero => exact h
  | succ fuel ih =>
    have hp : parentOf i < m := by unfold parentOf; omega
    simp only [Machine.siftUp, h i hi, h _ hp]
    split
    · exact ih (h.swapItems hi hp) hp
    · exact h

theorem AgreeUpTo.firstChild (h : AgreeUpTo m t t') {i : Nat} (hl : leftOf i < m) :
    firstChild pol m i t' = firstChild pol m i t := by
  unfold Machine.firstChild
  rw [h _ hl]
  by_cases hr : rightOf i < m
  · rw [h _ hr]
  · simp [hr]

theorem AgreeUpTo.siftDown (h : AgreeUpTo m t t') (fuel i : Nat) :
    AgreeUpTo m (siftDown pol m fuel i t) (siftDown pol m fuel i t') := by
  induction fuel generalizing i t t' with
  | zero => exact h
  | succ fuel ih =>
    by_cases hl : leftOf i < m
    · obtain ⟨hi, hc, -⟩ := firstChild_bounds pol t hl
      simp only [Machine.siftDown, h.firstChild pol hl, h _ hc, h i (by omega)]
      split
      · exact ih (h.swapItems (by omega) hc) _
      · exact h
    · simp only [Machine.siftDown, hl, false_and, if_false]
      exact h

end

/-- Two heaps have the same registers and the same items held. -/
structure Heap.Agrees (h h' : Heap) : Prop where
  items : AgreeUpTo h.size.toNat h.items h'.items
  size : h'.size = h.size
  cap : h'.cap = h.cap
  pol : h'.pol = h.pol

/-- Both heaps are full, or both take the item and still agree. -/
theorem Heap.Agrees.insert {h h' : Heap} (a : h.Agrees h') (x : HeapItem) :
    (h.insert x = none ∧ h'.insert x = none) ∨
      ∃ k k', h.insert x = some k ∧ h'.insert x = some k' ∧ k.Agrees k' := by
  obtain ⟨hitems, hsize, hcap, hpol⟩ := a
  rcases insert_cases x h with ⟨hc, e⟩ | ⟨hc, e⟩ <;> rcases insert_cases x h' with ⟨hc', e'⟩ | ⟨hc', e'⟩ <;>
    rw [hsize, hcap] at hc'
  · exact .inl ⟨e, e'⟩
  · exact absurd hc hc'
  · exact absurd hc' hc
  · refine .inr ⟨_, _, e, e', ?_, congrArg (· + 1#9) hsize, hcap, hpol⟩
    rw [hsize, hpol]
    refine AgreeUpTo.mono ((hitems.push x).siftUp h.pol h.size.toNat (Nat.lt_succ_self _)) ?_
    show (h.size + 1#9).toNat ≤ _
    rw [BitVec.toNat_add]
    exact Nat.mod_le _ _

/-- Both heaps are empty, or both give the same root and still agree. -/
theorem Heap.Agrees.extract {h h' : Heap} (a : h.Agrees h') :
    (h.extract = none ∧ h'.extract = none) ∨
      ∃ x k k', h.extract = some (x, k) ∧ h'.extract = some (x, k') ∧ k.Agrees k' := by
  obtain ⟨hitems, hsize, hcap, hpol⟩ := a
  rcases extract_cases h with ⟨hz, e⟩ | ⟨hz, e⟩ <;> rcases extract_cases h' with ⟨hz', e'⟩ | ⟨hz', e'⟩ <;>
    rw [hsize] at hz'
  · exact .inl ⟨e, e'⟩
  · exact absurd hz hz'
  · exact absurd hz' hz
  · obtain ⟨hs, hpos⟩ := extract_size hz
    rw [hitems 0 hpos] at e'
    refine .inr ⟨_, _, _, e, e', ?_, congrArg (· - 1#9) hsize, hcap, hpol⟩
    show AgreeUpTo (h.size - 1#9).toNat _ _
    rw [hsize, hs]
    simp only [Heap.removeRoot, hitems (h.size.toNat - 1) (by omega), hpol]
    exact ((hitems.set 0 _).mono (Nat.sub_le _ _)).siftDown h.pol _ 0

/-! ## The build on agreeing heaps and arenas -/

/-- Two builds have the same nodes so far and heaps that agree. -/
structure Build.Agrees (b b' : Build) : Prop where
  n : b'.n = b.n
  heap : b.heap.Agrees b'.heap
  nodes : AgreeUpTo b.n b.nodes b'.nodes

theorem Heap.Agrees.buildInsert {b b' : Build} (a : b.heap.Agrees b'.heap) (hn : b'.n = b.n) (key : Word) :
    (b.insert key).Agrees (b'.insert key) := by
  obtain ⟨e, e'⟩ | ⟨k, k', e, e', ak⟩ := a.insert ⟨key, BitVec.ofNat 16 b.n⟩ <;>
    simp only [Build.insert, hn, e, e', Option.getD_none, Option.getD_some]
  · exact a
  · exact ak

theorem Build.Agrees.addLeaf {b b' : Build} (a : b.Agrees b') (freq : Vector Word Config.symbols) (v : Nat) :
    (b.addLeaf freq v).Agrees (b'.addLeaf freq v) := by
  obtain ⟨hn, hheap, hnodes⟩ := a
  refine ⟨congrArg (· + 1) hn, hheap.buildInsert hn _, ?_⟩
  simp only [Build.addLeaf, hn]
  exact hnodes.push _

theorem AgreeUpTo.setParent {m n : Nat} {t t' : Vector Node n} (h : AgreeUpTo m t t') (i : Nat) (p : NodeIndex) :
    AgreeUpTo m (setParent t i p) (setParent t' i p) := by
  intro j hj
  simp only [Machine.setParent, tableGet_tableSet]
  split
  next hij => rw [hij.1, h j hj]
  next => exact h j hj

theorem Build.Agrees.join {b b' : Build} (a : b.Agrees b') (l r : HeapItem) {h h' : Heap} (ah : h.Agrees h') :
    (b.join l r h).Agrees (b'.join l r h') := by
  obtain ⟨hn, -, hnodes⟩ := a
  refine ⟨congrArg (· + 1) hn,
    Heap.Agrees.buildInsert (b := { b with heap := h }) (b' := { b' with heap := h' }) ah hn _, ?_⟩
  simp only [Build.join, hn]
  exact ((hnodes.push _).setParent _ _).setParent _ _

theorem Build.Agrees.merge {b b' : Build} (a : b.Agrees b') : b.merge.Agrees b'.merge := by
  obtain ⟨e, e'⟩ | ⟨l, h, h', e, e', ah⟩ := a.heap.extract
  · simpa only [Build.merge, e, e'] using a
  · obtain ⟨d, d'⟩ | ⟨r, k, k', d, d', ak⟩ := ah.extract
    · simpa only [Build.merge, e, e', d, d'] using a
    · simpa only [Build.merge, e, e', d, d'] using a.join l r ak

theorem Build.Agrees.mergeAll {b b' : Build} (a : b.Agrees b') (fuel : Nat) :
    (b.mergeAll fuel).Agrees (b'.mergeAll fuel) := by
  induction fuel generalizing b b' with
  | zero => exact a
  | succ fuel ih =>
    simp only [Build.mergeAll, a.heap.size]
    split
    · exact ih a.merge
    · exact a

theorem Build.Agrees.addLeaves {b b' : Build} (a : b.Agrees b') (freq : Vector Word Config.symbols) (vs : List Nat) :
    (vs.foldl (Build.addLeaf freq) b).Agrees (vs.foldl (Build.addLeaf freq) b') := by
  induction vs generalizing b b' with
  | nil => exact a
  | cons v vs ih => exact ih (a.addLeaf freq v)

theorem Build.Agrees.takeRoot {b b' : Build} (a : b.Agrees b') : b'.takeRoot.1 = b.takeRoot.1 := by
  obtain ⟨e, e'⟩ | ⟨x, k, k', e, e', -⟩ := a.heap.extract <;> simp only [Build.takeRoot, e, e'] <;> rfl

section
variable {s s' : State} (hlen : s'.msgLen = s.msgLen) (hmsg : s'.message = s.message)
include hlen hmsg

/-- Two states with one message make the same leaves. -/
theorem buildLeaves_agrees : s.buildLeaves.Agrees s'.buildLeaves := by
  have hstart : s.startBuild.Agrees s'.startBuild := by
    refine ⟨rfl, ⟨nofun, rfl, ?_, rfl⟩, nofun⟩
    simp only [State.startBuild, Heap.create, hlen]
  unfold State.buildLeaves
  rw [hmsg]
  exact hstart.addLeaves _ _

/-- Two states with one message make the same nodes. -/
theorem buildMerged_agrees : s.buildMerged.Agrees s'.buildMerged := by
  have a := buildLeaves_agrees hlen hmsg
  unfold State.buildMerged
  rw [a.heap.size]
  exact a.mergeAll _

end

/-- A BUILD_TREE that passes its checks completes with the built tree. -/
theorem exec_buildTree {s : State} (h0 : s.msgLen ≠ 0#32) (h1 : s.msgLen.toNat ≤ 65536) :
    exec .buildTree s = .next s.builtTree.complete := by
  have hmax : ¬Config.msgMax < s.msgLen.toNat := Nat.not_lt.mpr h1
  simp only [exec, execBuildTree, if_neg h0, if_neg hmax]

theorem eq_of_exec_buildTree {s t : State} (h0 : s.msgLen ≠ 0#32) (h1 : s.msgLen.toNat ≤ 65536)
    (h : exec .buildTree s = .next t) : t = s.builtTree.complete :=
  Host.Outcome.next.inj (h.symm.trans (exec_buildTree h0 h1))

/-- Settles O33: the two builds agree at every step. -/
theorem treeDependsOnlyOnTheMessage : Obligations.TreeDependsOnlyOnTheMessage := by
  intro s s' t t' h0 h1 hlen hmsg ht ht'
  obtain rfl := eq_of_exec_buildTree h0 h1 ht
  obtain rfl := eq_of_exec_buildTree (hlen ▸ h0) (hlen ▸ h1) ht'
  have hleaves := buildLeaves_agrees hlen hmsg
  have hmerged := buildMerged_agrees hlen hmsg
  simp only [complete_freq, complete_arena, builtTree_freq, builtTree_arena]
  refine ⟨by rw [hmsg], by rw [hmerged.takeRoot], by rw [hmerged.n], by rw [hleaves.n], fun n hn => ?_⟩
  rw [BitVec.toNat_ofNat] at hn
  exact hmerged.nodes n (Nat.lt_of_lt_of_le hn (Nat.mod_le _ _))

end Sys2Proof.Machine
end

section
/-! PROOFS. What the tally counts (41_tree_builder.md R171; O28). -/

namespace Sys2Proof.Machine

/-- The values leaves are made for, as those with a count. -/
theorem presentSymbols_eq (freq : Vector Word Config.symbols) :
    presentSymbols freq = (List.range 256).filter fun v => decide (0 < (tableGet freq v).toNat) := by
  refine List.filter_congr fun v _ => ?_
  rw [Bool.eq_iff_iff, bne_iff_ne, decide_eq_true_iff, Nat.pos_iff_ne_zero, Ne, Ne, ← BitVec.toNat_inj]
  rfl

section
variable {m : List Byte} (hm : m.length < 2 ^ 32)
include hm

/-- FREQ[v] is the number of positions that hold v. -/
theorem tally_toNat {v : Nat} (hv : v < 256) : (tableGet (tally m) v).toNat = m.count (BitVec.ofNat 8 v) := by
  have h := tally_count m hm (BitVec.ofNat 8 v)
  rwa [BitVec.toNat_ofNat, Nat.mod_eq_of_lt hv] at h

/-- Every position is counted once. -/
theorem sum_tally : ((List.range 256).map fun v => (tableGet (tally m) v).toNat).sum = m.length := by
  have hcount : ∀ v ∈ Finset.range 256, (tableGet (tally m) v).toNat =
      Multiset.count v (m.map BitVec.toNat : Multiset Nat) := by
    intro v hv
    have hv := Finset.mem_range.mp hv
    have hval : (BitVec.ofNat 8 v).toNat = v := Nat.mod_eq_of_lt hv
    rw [tally_toNat hm hv, Multiset.coe_count, ← List.count_map_of_injective m _ BitVec.toNat_injective, hval]
  calc ((List.range 256).map fun v => (tableGet (tally m) v).toNat).sum
      = ∑ v ∈ Finset.range 256, (tableGet (tally m) v).toNat := rfl
    _ = ∑ v ∈ Finset.range 256, Multiset.count v (m.map BitVec.toNat : Multiset Nat) := Finset.sum_congr rfl hcount
    _ = m.length := by
      rw [Multiset.sum_count_eq_card, Multiset.coe_card, List.length_map]
      intro v hv
      obtain ⟨b, -, rfl⟩ := List.mem_map.mp hv
      exact Finset.mem_range.mpr b.isLt

/-- The values leaves are made for, as the values that occur. -/
theorem presentSymbols_tally :
    presentSymbols (tally m) = (List.range 256).filter fun v => decide (BitVec.ofNat 8 v ∈ m) := by
  rw [presentSymbols_eq]
  refine List.filter_congr fun v hv => ?_
  rw [tally_toNat hm (List.mem_range.mp hv)]
  exact decide_eq_decide.mpr List.count_pos_iff

end

/-- The counts of the values present are all the counts. -/
theorem sum_presentSymbols (freq : Vector Word Config.symbols) :
    ((presentSymbols freq).map fun v => (tableGet freq v).toNat).sum =
      ((List.range 256).map fun v => (tableGet freq v).toNat).sum := by
  rw [presentSymbols_eq]
  exact Finset.sum_filter_of_ne (s := Finset.range 256) (f := fun v => (tableGet freq v).toNat)
    fun _ _ h => Nat.pos_of_ne_zero h

theorem addLeaves_n (freq : Vector Word Config.symbols) (vs : List Nat) (b : Build) :
    (vs.foldl (Build.addLeaf freq) b).n = b.n + vs.length := by
  induction vs generalizing b with
  | nil => rfl
  | cons v vs ih => rw [List.foldl_cons, ih, List.length_cons]; simp only [Build.addLeaf]; omega

theorem buildLeaves_n (s : State) : s.buildLeaves.n = (presentSymbols (tally s.message)).length :=
  (addLeaves_n _ _ _).trans (Nat.zero_add _)

section
variable {s : State} (h0 : s.msgLen ≠ 0#32) (h1 : s.msgLen.toNat ≤ 65536)
include h1

/-- A message that passes the checks is short enough for the counts not to wrap around. -/
theorem message_length_lt : s.message.length < 2 ^ 32 := by rw [message_length]; omega

include h0

/-- UNIQUE is the number of leaves. -/
theorem builtTree_unique : s.builtTree.arena.unique.toNat = s.buildLeaves.n := by
  obtain ⟨-, -, hu⟩ := buildLeaves_grown h0 h1
  rw [builtTree_arena, BitVec.toNat_ofNat]
  omega

end

/-- Settles O28 by the counts of the tally; UNIQUE counts the leaves made. -/
theorem tallyCountsTheMessage : Obligations.TallyCountsTheMessage := by
  intro s h0 h1
  have hm := message_length_lt h1
  refine ⟨_, exec_buildTree h0 h1, fun v hv => ?_, fun v hv => ?_, ?_, ?_⟩ <;>
    simp only [complete_freq, complete_arena, builtTree_freq]
  · exact tally_toNat hm hv
  · rw [tally_toNat hm hv, ← message_length s]
    exact List.count_le_length
  · rw [sum_tally hm, message_length]
  · rw [builtTree_unique h0 h1, buildLeaves_n, presentSymbols_eq]
    rfl

end Sys2Proof.Machine
end

section
/-! PROOFS. The steps of BUILD_TREE as two inductions, over the leaves and over the merges, and the registers, the heap
and the frame they leave (41_tree_builder.md R170 to R174, R178; O29). -/

namespace Sys2Proof.Machine

/-! ## The leaves -/

/-- The entry of a leaf (41_tree_builder.md R170 step 4). -/
def leafNode (freq : Vector Word Config.symbols) (v : Nat) : Node :=
  ⟨.leaf, BitVec.ofNat 8 v, Config.noNode, Config.noNode, Config.noNode, tableGet freq v⟩

theorem addLeaf_node {b : Build} (hn : b.n < 511) (freq : Vector Word Config.symbols) (v i : Nat) :
    tableGet (b.addLeaf freq v).nodes i = if i = b.n then leafNode freq v else tableGet b.nodes i := by
  simp [Build.addLeaf, tableGet_tableSet, hn, eq_comm, leafNode]

theorem heapInvariant_config (c : BitVec 9) (p : Polarity) : HeapInvariant fun h => h.cap = c ∧ h.pol = p where
  insert h hi := by
    rcases insert_cases _ _ with ⟨-, e⟩ | ⟨-, e⟩ <;> rw [hi] at e <;> cases e
    exact h
  extract h he := by
    rcases extract_cases _ with ⟨-, e⟩ | ⟨-, e⟩ <;> rw [he] at e <;> cases e
    exact h

/-- The build in progress after the leaves of `vs`, at the next leaf `v`: there is room for it. -/
structure Build.LeafStep (freq : Vector Word Config.symbols) (vs : List Nat) (v : Nat) (b : Build) : Prop where
  grown : b.Grown vs.length
  n : b.n = vs.length
  fits : b.n < 511
  inserted : b.heap.InsertOf ⟨tableGet freq v, BitVec.ofNat 16 b.n⟩ (b.addLeaf freq v).heap

section
variable {s : State} (h0 : s.msgLen ≠ 0#32) (h1 : s.msgLen.toNat ≤ 65536)
include h0 h1

/-- There is room for a leaf of each value present (41_tree_builder.md R178). -/
theorem presentSymbols_length_le_cap : (presentSymbols (tally s.message)).length ≤ s.startBuild.heap.cap.toNat := by
  have hlen := message_length s
  have hpos : s.msgLen.toNat ≠ 0 := fun e => h0 (BitVec.eq_of_toNat_eq e)
  rw [startBuild_cap, ← hlen]
  exact (presentSymbols_length (message_length_lt h1) (by omega)).2

/-- What holds of the fresh heap and is kept by each leaf holds of all the leaves. -/
theorem buildLeaves_induction {P : List Nat → Build → Prop} (hstart : P [] s.startBuild)
    (hadd : ∀ vs v b, b.LeafStep (tally s.message) vs v → P vs b → P (vs ++ [v]) (b.addLeaf (tally s.message) v)) :
    P (presentSymbols (tally s.message)) s.buildLeaves := by
  have hroom := presentSymbols_length_le_cap h0 h1
  unfold State.buildLeaves
  generalize presentSymbols (tally s.message) = present at hroom ⊢
  induction present using List.reverseRecOn with
  | nil => exact hstart
  | append_singleton vs v ih =>
    rw [List.length_append, List.length_singleton] at hroom
    have hcap := ((heapInvariant_config _ _).addLeaves (tally s.message) vs (b := s.startBuild) ⟨rfl, rfl⟩).1
    obtain ⟨hg, hn⟩ := (startBuild_grown s).addLeaves (tally s.message) vs ((Nat.zero_add _).trans_le (by omega))
    rw [List.foldl_append]
    generalize vs.foldl (Build.addLeaf (tally s.message)) s.startBuild = b at *
    have hn : b.n = vs.length := hn.trans (Nat.zero_add _)
    have hg : b.Grown vs.length := by rwa [show s.startBuild.n + vs.length = vs.length from Nat.zero_add _] at hg
    have hcount := hg.count
    have hcap256 : b.heap.cap.toNat ≤ 256 := hg.bounded.2
    have hfits : b.heap.size.toNat < b.heap.cap.toNat := by rw [hcap]; omega
    exact hadd vs v b ⟨hg, hn, by omega, buildInsert_insertOf _ hg.bounded hfits⟩ (ih (by omega))

end

/-! ## The merges -/

/-- A new parent changes no other field of any entry. -/
theorem setParent_node (nodes : Entries) (i j : Nat) (q : NodeIndex) :
    ∃ p, tableGet (setParent nodes i q) j = { tableGet nodes j with parent := p } := by
  rw [setParent, tableGet_tableSet]
  split
  next h => exact ⟨q, by rw [h.1]⟩
  next => exact ⟨(tableGet nodes j).parent, rfl⟩

section
variable {b : Build} (l r : HeapItem) (h : Heap) (hn : b.n < 511)

/-- A merge changes only the parent of the entries made before. -/
theorem join_old {i : Nat} (hi : i ≠ b.n) :
    ∃ p, tableGet (b.join l r h).nodes i = { tableGet b.nodes i with parent := p } := by
  obtain ⟨p, e⟩ := setParent_node _ r.tag.toNat i (BitVec.ofNat 9 b.n)
  obtain ⟨q, e'⟩ := setParent_node _ l.tag.toNat i (BitVec.ofNat 9 b.n)
  exact ⟨p, by rw [Build.join, e, e', tableGet_tableSet_other _ _ hi.symm]⟩

include hn in
/-- The entry a merge makes. -/
theorem join_new : ∃ p, tableGet (b.join l r h).nodes b.n =
    ⟨.internal, 0#8, l.tag.setWidth 9, r.tag.setWidth 9, p, l.key + r.key⟩ := by
  obtain ⟨p, e⟩ := setParent_node _ r.tag.toNat b.n (BitVec.ofNat 9 b.n)
  obtain ⟨q, e'⟩ := setParent_node _ l.tag.toNat b.n (BitVec.ofNat 9 b.n)
  exact ⟨p, by rw [Build.join, e, e', tableGet_tableSet_same _ _ hn]⟩

end

/-- In a min-heap the item extracted is no heavier than any item held. -/
theorem extract_key_le {h h' : Heap} {x y : HeapItem} (ho : h.ordered) (hp : h.pol = .min)
    (he : h.extract = some (x, h')) (hy : y ∈ h.live) : x.key.toNat ≤ y.key.toNat := by
  have hfirst := root_first_of_mem ho hy
  rw [← (extract_root_pol he).1, hp] at hfirst
  simp only [before, decide_eq_false_iff_not, BitVec.lt_def] at hfirst
  omega

/-- The build in progress with `u` leaves, its heap a min-heap. -/
structure Build.Sorted (b : Build) (u : Nat) : Prop where
  grown : b.Grown u
  ordered : b.heap.ordered
  pol : b.heap.pol = .min

/-- A merge of `b`: the two lightest items `l` and `r`, in that order, leave `rest` and become the children of the next
node, which is inserted (41_tree_builder.md R173). -/
structure Build.MergeStep (b : Build) (l r : HeapItem) (rest : Heap) : Prop where
  fits : b.n < 511
  named : ∀ x ∈ b.heap.live, x.tag.toNat < b.n
  live : b.heap.live.Perm (l :: r :: rest.live)
  inserted : rest.InsertOf ⟨l.key + r.key, BitVec.ofNat 16 b.n⟩ (b.join l r rest).heap
  left_le_right : l.key.toNat ≤ r.key.toNat
  right_le : ∀ x ∈ rest.live, r.key.toNat ≤ x.key.toNat

section
variable {b : Build} {l r : HeapItem} {rest : Heap} (m : b.MergeStep l r rest)
include m

theorem Build.MergeStep.left_lt : l.tag.toNat < b.n := m.named l (m.live.mem_iff.mpr (by simp))

theorem Build.MergeStep.right_lt : r.tag.toNat < b.n := m.named r (m.live.mem_iff.mpr (by simp))

theorem Build.MergeStep.mem_live {x : HeapItem} (hx : x ∈ rest.live) : x ∈ b.heap.live :=
  m.live.mem_iff.mpr (by simp [hx])

theorem Build.MergeStep.tag_toNat : (BitVec.ofNat 16 b.n : Tag).toNat = b.n := Machine.tag_toNat m.fits

/-- A merge writes its own node and two below it. -/
theorem Build.MergeStep.join_above {i : Nat} (hi : b.n < i) :
    tableGet (b.join l r rest).nodes i = tableGet b.nodes i := by
  have hl := m.left_lt
  have hr := m.right_lt
  simp only [Build.join, setParent]
  rw [tableGet_tableSet_other _ _ (by omega), tableGet_tableSet_other _ _ (by omega),
    tableGet_tableSet_other _ _ (by omega)]

end

/-- While more than one item is held, there is a merge. -/
theorem Build.Sorted.exists_mergeStep {b : Build} {u : Nat} (h : b.Sorted u) (hu : u ≤ 256)
    (hsize : 1 < b.heap.size.toNat) : ∃ l r rest, b.MergeStep l r rest ∧ b.merge = b.join l r rest := by
  obtain ⟨hg, ho, hp⟩ := h
  have hcount := hg.count
  obtain ⟨l, h1, e1, hx1⟩ := exists_extract hg.bounded (by omega)
  have hs1 := hx1.size
  obtain ⟨r, h2, e2, hx2⟩ := exists_extract hx1.bounded (by omega)
  have hs2 := hx2.size
  have hb := hg.bounded.1
  have hlive := hx1.live.trans (hx2.live.cons _)
  refine ⟨l, r, h2, ⟨by omega, fun x hx => ?_, hlive, ?_, ?_, fun x hx => ?_⟩, by
    rw [Build.merge, e1]; simp only [e2]⟩
  · exact ((hg.roots _).mp (List.mem_map_of_mem hx)).1
  · exact join_insertOf l r hx2.bounded (by rw [hx2.cap, hx1.cap]; omega)
  · exact extract_key_le ho hp e1 (hlive.mem_iff.mpr (by simp))
  · exact extract_key_le (hx1.ordered ho) ((extract_root_pol e1).2.trans hp) e2 (hx2.live.mem_iff.mpr (by simp [hx]))

theorem heapInvariant_minHeap : HeapInvariant fun h => (h.bounded ∧ h.ordered) ∧ h.pol = .min where
  insert h hi := ⟨heapInvariant_ordered.insert h.1 hi, (insert_pol hi).trans h.2⟩
  extract h he := ⟨heapInvariant_ordered.extract h.1 he, (extract_root_pol he).2.trans h.2⟩

theorem Build.Sorted.merge {b : Build} {u : Nat} (h : b.Sorted u) (hu : u ≤ 256) (hsize : 1 < b.heap.size.toNat) :
    b.merge.Sorted u := by
  obtain ⟨⟨-, ho⟩, hp⟩ := heapInvariant_minHeap.merge (b := b) ⟨⟨h.grown.bounded, h.ordered⟩, h.pol⟩
  exact ⟨(h.grown.merge hu hsize).1, ho, hp⟩

/-- What holds of a build and is kept by each merge holds after all merges. -/
theorem Build.Sorted.mergeAll_induction {P : Build → Prop} {u : Nat} (hu : u ≤ 256)
    (hmerge : ∀ b l r rest, b.Grown u → b.MergeStep l r rest → P b → P (b.join l r rest)) (fuel : Nat) {b : Build}
    (h : b.Sorted u) (hb : P b) : P (b.mergeAll fuel) := by
  induction fuel generalizing b with
  | zero => exact hb
  | succ fuel ih =>
    unfold Build.mergeAll
    split
    next hsize =>
      obtain ⟨l, r, rest, m, e⟩ := h.exists_mergeStep hu hsize
      exact ih (h.merge hu hsize) (e ▸ hmerge b l r rest h.grown m hb)
    next => exact hb

theorem builtTree_nodes (s : State) : s.builtTree.arena.nodes = s.buildMerged.nodes := rfl

section
variable {s : State} (h0 : s.msgLen ≠ 0#32) (h1 : s.msgLen.toNat ≤ 65536)
include h0 h1

theorem buildLeaves_sorted : s.buildLeaves.Sorted s.buildLeaves.n := by
  obtain ⟨⟨-, ho⟩, hp⟩ := heapInvariant_minHeap.addLeaves (tally s.message) (presentSymbols (tally s.message))
    (b := s.startBuild) ⟨⟨startBuild_bounded s, ordered_of_size_zero rfl⟩, rfl⟩
  exact ⟨(buildLeaves_grown h0 h1).1, ho, hp⟩

/-- What holds of the leaves and is kept by each merge holds of the nodes BUILD_TREE makes. -/
theorem buildMerged_induction {P : Build → Prop} (hleaves : P s.buildLeaves)
    (hmerge : ∀ b l r rest, b.Grown s.buildLeaves.n → b.MergeStep l r rest → P b → P (b.join l r rest)) :
    P s.buildMerged :=
  (buildLeaves_sorted h0 h1).mergeAll_induction (buildLeaves_grown h0 h1).2.2 hmerge _ hleaves

/-! ## What the build leaves -/

/-- The last node made is one without a parent: parents are made after their children. -/
theorem buildMerged_last : parentLink s.buildMerged.nodes (s.buildMerged.n - 1) = none := by
  obtain ⟨hg, hsize⟩ := buildMerged_grown h0 h1
  obtain ⟨-, hpos, -⟩ := buildLeaves_grown h0 h1
  have hcount := hg.count
  cases hp : parentLink s.buildMerged.nodes (s.buildMerged.n - 1) with
  | none => rfl
  | some p =>
    have hlt := hg.wired.rank_lt_parent (by omega) hp
    simp only [id_eq] at hlt
    omega

/-- The item left names the last node made, and its extraction empties the heap (41_tree_builder.md R174). -/
theorem buildMerged_takeRoot : s.buildMerged.heap.live = [s.buildMerged.takeRoot.1] ∧
    s.buildMerged.takeRoot.2.size = 0#9 ∧ s.buildMerged.takeRoot.1.tag.toNat + 1 = s.buildMerged.n := by
  obtain ⟨hg, hsize⟩ := buildMerged_grown h0 h1
  obtain ⟨-, hpos, -⟩ := buildLeaves_grown h0 h1
  have hcount := hg.count
  obtain ⟨x, h, e, hx⟩ := exists_extract hg.bounded (by omega)
  have htake : s.buildMerged.takeRoot = (x, h) := by rw [Build.takeRoot, e]; rfl
  have hzero : h.size.toNat = 0 := by have := hx.size; omega
  have hlive : s.buildMerged.heap.live = [x] := by
    rw [← List.perm_singleton, ← List.eq_nil_of_length_eq_zero ((live_length h).trans hzero)]
    exact hx.live
  have hlast := (hg.roots (s.buildMerged.n - 1)).mpr ⟨by omega, buildMerged_last h0 h1⟩
  rw [Heap.named, hlive, List.map_singleton, List.mem_singleton] at hlast
  rw [htake]
  exact ⟨hlive, BitVec.eq_of_toNat_eq hzero, by show x.tag.toNat + 1 = _; omega⟩

/-- NODE_COUNT is the number of nodes made. -/
theorem builtTree_count : s.builtTree.arena.count.toNat = s.buildMerged.n := by
  have hcount := (buildMerged_grown h0 h1).1.count
  obtain ⟨-, -, hu⟩ := buildLeaves_grown h0 h1
  rw [builtTree_arena, BitVec.toNat_ofNat]
  omega

/-- NODE_COUNT is twice UNIQUE but one: each merge takes two items and adds one. -/
theorem builtTree_count_unique : s.builtTree.arena.count.toNat + 1 = 2 * s.builtTree.arena.unique.toNat := by
  obtain ⟨hg, hsize⟩ := buildMerged_grown h0 h1
  rw [builtTree_count h0 h1, builtTree_unique h0 h1, ← hg.count, hsize]

/-- ROOT is the tag of the item left. -/
theorem builtTree_root : s.builtTree.arena.root.toNat = s.buildMerged.takeRoot.1.tag.toNat := by
  have hcount := builtTree_count_unique h0 h1
  obtain ⟨-, -, htag⟩ := buildMerged_takeRoot h0 h1
  obtain ⟨-, -, hu⟩ := buildLeaves_grown h0 h1
  rw [builtTree_count h0 h1, builtTree_unique h0 h1] at hcount
  rw [builtTree_arena, BitVec.toNat_setWidth]
  omega

/-- The root is the last node made (41_tree_builder.md R175). -/
theorem builtTree_count_root : s.builtTree.arena.root.toNat + 1 = s.builtTree.arena.count.toNat := by
  rw [builtTree_root h0 h1, builtTree_count h0 h1]
  exact (buildMerged_takeRoot h0 h1).2.2

/-- BUILD_TREE writes no entry from NODE_COUNT up. -/
theorem builtTree_above {i : Nat} (hi : s.builtTree.arena.count.toNat ≤ i) :
    tableGet s.builtTree.arena.nodes i = tableGet s.arena.nodes i := by
  rw [builtTree_count h0 h1] at hi
  rw [builtTree_nodes]
  revert i
  refine buildMerged_induction h0 h1 (P := fun b => ∀ {i}, b.n ≤ i → tableGet b.nodes i = tableGet s.arena.nodes i)
    ?_ fun b l r rest _ m ih i hi => ?_
  · refine buildLeaves_induction h0 h1
      (P := fun _ b => ∀ {i}, b.n ≤ i → tableGet b.nodes i = tableGet s.arena.nodes i) (fun _ => rfl) ?_
    intro vs v b step ih i hi
    have hi : b.n + 1 ≤ i := hi
    rw [addLeaf_node step.fits, if_neg (by omega), ih (by omega)]
  · have hi : b.n + 1 ≤ i := hi
    rw [m.join_above (by omega), ih (by omega)]

end

/-- BUILD_TREE writes nothing but FREQ, the heap, the arena and the two validity bits. -/
theorem builtTree_frame (s : State) : s.builtTree = { s with
    freq := s.builtTree.freq
    heap := s.builtTree.heap
    arena := s.builtTree.arena
    status := { s.status with treeValid := true, indexValid := false } } := by
  rw [State.builtTree, Status.newTree]

/-- Settles O29 by the registers, the heap and the frame of the built tree. -/
theorem buildTreeLeavesATreeAndAnEmptyHeap : Obligations.BuildTreeLeavesATreeAndAnEmptyHeap := by
  intro s h0 h1
  obtain ⟨hcap, hpol⟩ := (heapInvariant_config s.startBuild.heap.cap .min).builtTree s ⟨rfl, rfl⟩
  refine ⟨_, exec_buildTree h0 h1, ?_⟩
  simp only [complete_freq, complete_heap, complete_arena]
  refine ⟨congrArg State.complete (builtTree_frame s), ?_, ?_, hpol, builtTree_count_unique h0 h1,
    builtTree_count_root h0 h1, fun _ => builtTree_above h0 h1⟩
  · rw [builtTree_heap]
    exact (buildMerged_takeRoot h0 h1).2.1
  · rw [hcap]
    exact startBuild_cap s

end Sys2Proof.Machine
end

section
/-! PROOFS. The nodes BUILD_TREE makes: the leaves with their counts, and the weights of the internal nodes
(41_tree_builder.md R172, R173, R175, R176; O30, O31, O32). -/

namespace Sys2Proof.Machine

/-! ## The leaves -/

/-- The first entries are the leaves of `vs` in order, and no other entry made is a leaf. -/
structure Build.Leaved (freq : Vector Word Config.symbols) (vs : List Nat) (b : Build) : Prop where
  le : vs.length ≤ b.n
  leaf : ∀ j v, vs[j]? = some v → (tableGet b.nodes j).value = BitVec.ofNat 8 v ∧
    (tableGet b.nodes j).weight = tableGet freq v
  kind : ∀ i, i < b.n → ((tableGet b.nodes i).kind = .leaf ↔ i < vs.length)

theorem Build.Leaved.addLeaf {freq : Vector Word Config.symbols} {vs : List Nat} {v : Nat} {b : Build}
    (h : b.Leaved freq vs) (step : b.LeafStep freq vs v) : (b.addLeaf freq v).Leaved freq (vs ++ [v]) := by
  obtain ⟨-, hleaf, hkind⟩ := h
  have hn := step.n
  have hnode := addLeaf_node step.fits freq v
  have hlen : (vs ++ [v]).length = b.n + 1 := by simp [hn]
  refine ⟨hlen.le, fun j w hw => ?_, fun i (hi : i < b.n + 1) => ?_⟩ <;> rw [hnode]
  · rcases Nat.lt_or_ge j vs.length with hj | hj
    · rw [List.getElem?_append_left hj] at hw
      rw [if_neg (by omega)]
      exact hleaf j w hw
    · have hlt := (List.getElem?_eq_some_iff.mp hw).1
      obtain rfl : j = vs.length := by omega
      rw [List.getElem?_concat_length, Option.some.injEq] at hw
      rw [if_pos hn.symm, hw]
      exact ⟨rfl, rfl⟩
  · split
    next e => exact ⟨fun _ => by omega, fun _ => rfl⟩
    next e => rw [hkind i (by omega)]; omega

theorem Build.Leaved.join {freq : Vector Word Config.symbols} {vs : List Nat} {b : Build} {l r : HeapItem}
    {rest : Heap} (h : b.Leaved freq vs) (m : b.MergeStep l r rest) : (b.join l r rest).Leaved freq vs := by
  obtain ⟨hle, hleaf, hkind⟩ := h
  refine ⟨Nat.le_succ_of_le hle, fun j v hv => ?_, fun i (hi : i < b.n + 1) => ?_⟩
  · have hj := (List.getElem?_eq_some_iff.mp hv).1
    obtain ⟨p, e⟩ := join_old (b := b) l r rest (i := j) (by omega)
    rw [e]
    exact hleaf j v hv
  · rw [join_kind m.fits]
    split
    next e => exact ⟨nofun, fun _ => by omega⟩
    next e => exact hkind i (by omega)

/-! ## The weights of the items held -/

/-- The weight of entry `i`, as a number. -/
def weightOf (nodes : Entries) (i : Nat) : Nat := (tableGet nodes i).weight.toNat

/-- The sum of the keys held. -/
def Heap.totalKey (h : Heap) : Nat := (h.live.map fun x => x.key.toNat).sum

theorem totalKey_of_perm {h : Heap} {xs : List HeapItem} (hp : h.live.Perm xs) :
    h.totalKey = (xs.map fun x => x.key.toNat).sum := (hp.map _).sum_eq

/-- Each item held has the weight of the node it names, and all together weigh `total`. -/
structure Build.Keyed (total : Nat) (b : Build) : Prop where
  key : ∀ x ∈ b.heap.live, weightOf b.nodes x.tag.toNat = x.key.toNat
  sum : b.heap.totalKey = total

theorem Build.Keyed.addLeaf {freq : Vector Word Config.symbols} {vs : List Nat} {v total : Nat} {b : Build}
    (h : b.Keyed total) (step : b.LeafStep freq vs v) :
    (b.addLeaf freq v).Keyed (total + (tableGet freq v).toNat) := by
  obtain ⟨hkey, hsum⟩ := h
  have hnode := addLeaf_node step.fits freq v
  have hlive := step.inserted.live
  refine ⟨fun x hx => ?_, ?_⟩
  · rw [weightOf, hnode]
    rcases List.mem_cons.mp (hlive.mem_iff.mp hx) with rfl | hx
    · rw [if_pos (tag_toNat step.fits)]
      rfl
    · have hlt := ((step.grown.roots _).mp (List.mem_map_of_mem hx)).1
      rw [if_neg (by omega)]
      exact hkey x hx
  · rw [totalKey_of_perm hlive, List.map_cons, List.sum_cons, ← hsum, Nat.add_comm]
    rfl

/-- A merge keeps the weight of the nodes made before. -/
theorem weightOf_join_lt {b : Build} {l r : HeapItem} {rest : Heap} {i : Nat} (hi : i < b.n) :
    weightOf (b.join l r rest).nodes i = weightOf b.nodes i := by
  obtain ⟨p, e⟩ := join_old l r rest (Nat.ne_of_lt hi)
  rw [weightOf, e]
  rfl

section
variable {b : Build} {l r : HeapItem} {rest : Heap} {total : Nat} (h : b.Keyed total) (m : b.MergeStep l r rest)
include m

theorem Build.MergeStep.totalKey : b.heap.totalKey = l.key.toNat + (r.key.toNat + rest.totalKey) := by
  rw [totalKey_of_perm m.live, List.map_cons, List.map_cons, List.sum_cons, List.sum_cons]
  rfl

include h

/-- The sum of two weights does not wrap around (41_tree_builder.md R176). -/
theorem Build.Keyed.toNat_add (ht : total < 2 ^ 32) : (l.key + r.key).toNat = l.key.toNat + r.key.toNat := by
  have := m.totalKey
  rw [h.sum] at this
  rw [BitVec.toNat_add]
  omega

/-- The new node weighs as much as the two items merged. -/
theorem Build.Keyed.weightOf_new (ht : total < 2 ^ 32) :
    weightOf (b.join l r rest).nodes b.n = l.key.toNat + r.key.toNat := by
  obtain ⟨p, e⟩ := join_new l r rest m.fits
  rw [weightOf, e, h.toNat_add m ht]

theorem Build.Keyed.join (ht : total < 2 ^ 32) : (b.join l r rest).Keyed total := by
  have hnew := h.weightOf_new m ht
  have hadd := h.toNat_add m ht
  obtain ⟨hkey, hsum⟩ := h
  have hlive := m.inserted.live
  refine ⟨fun x hx => ?_, ?_⟩
  · rcases List.mem_cons.mp (hlive.mem_iff.mp hx) with rfl | hx
    · rw [m.tag_toNat, hnew, hadd]
    · have hx := m.mem_live hx
      rw [weightOf_join_lt (m.named x hx)]
      exact hkey x hx
  · rw [totalKey_of_perm hlive, List.map_cons, List.sum_cons, ← hsum, m.totalKey, hadd, Nat.add_assoc]
    rfl

end

/-! ## The weights of the internal nodes -/

/-- Entry `i` joins two entries made before it: it weighs as much as both, and the left is no heavier than the right
(41_tree_builder.md R173, R175). -/
structure Joins (nodes : Entries) (i left right : Nat) : Prop where
  left_lt : left < i
  right_lt : right < i
  weight : weightOf nodes i = weightOf nodes left + weightOf nodes right
  left_le_right : weightOf nodes left ≤ weightOf nodes right

/-- The internal nodes, those from `u` up: each joins its children, none is lighter than one made before it, and none is
heavier than the node the next merge makes. -/
structure Build.Weighed (u : Nat) (b : Build) : Prop where
  children : ∀ i, u ≤ i → i < b.n →
    Joins b.nodes i (tableGet b.nodes i).left.toNat (tableGet b.nodes i).right.toNat
  rising : ∀ i j, u ≤ i → i ≤ j → j < b.n → weightOf b.nodes i ≤ weightOf b.nodes j
  light : ∀ i, u ≤ i → i < b.n → b.heap.live.Pairwise fun x y => weightOf b.nodes i ≤ x.key.toNat + y.key.toNat

/-- The leaves alone. -/
theorem weighed_of_leaves (b : Build) : b.Weighed b.n := by
  constructor <;> intros <;> omega

theorem toNat_setWidth_tag {t : Tag} (h : t.toNat < 511) : (t.setWidth 9).toNat = t.toNat := by
  rw [BitVec.toNat_setWidth]; omega

section
variable {b : Build} {l r : HeapItem} {rest : Heap} {total u : Nat} (w : b.Weighed u) (h : b.Keyed total)
  (m : b.MergeStep l r rest)

include w m in
/-- No internal node is heavier than the next one. -/
theorem Build.Weighed.le_next {i : Nat} (hu : u ≤ i) (hi : i < b.n) :
    weightOf b.nodes i ≤ l.key.toNat + r.key.toNat := by
  have hp := (m.live.pairwise_iff fun {x y} hxy => by rwa [Nat.add_comm y.key.toNat]).mp (w.light i hu hi)
  exact (List.pairwise_cons.mp hp).1 r (by simp)

include h m in
/-- A merge's node joins the two items merged. -/
theorem Build.Keyed.joins_new (ht : total < 2 ^ 32) :
    Joins (b.join l r rest).nodes b.n l.tag.toNat r.tag.toNat := by
  have hl := m.left_lt
  have hr := m.right_lt
  have hlkey := h.key l (m.live.mem_iff.mpr (by simp))
  have hrkey := h.key r (m.live.mem_iff.mpr (by simp))
  have hle := m.left_le_right
  refine ⟨hl, hr, ?_, ?_⟩ <;> rw [weightOf_join_lt hl, weightOf_join_lt hr, hlkey, hrkey]
  · exact h.weightOf_new m ht
  · exact hle

/-- A merge keeps what entries made before join. -/
theorem Joins.join {i left right : Nat} (hj : Joins b.nodes i left right) (hi : i < b.n) :
    Joins (b.join l r rest).nodes i left right := by
  obtain ⟨hl, hr, hsum, hle⟩ := hj
  refine ⟨hl, hr, ?_, ?_⟩ <;> rw [weightOf_join_lt (hl.trans hi), weightOf_join_lt (hr.trans hi)]
  · rw [weightOf_join_lt hi, hsum]
  · exact hle

include w h m in
theorem Build.Weighed.join (ht : total < 2 ^ 32) : (b.join l r rest).Weighed u := by
  have hnew := h.weightOf_new m ht
  have hnext : ∀ i, u ≤ i → i < b.n + 1 → weightOf (b.join l r rest).nodes i ≤ l.key.toNat + r.key.toNat := by
    intro i hu hi
    rcases Nat.lt_succ_iff_lt_or_eq.mp hi with hi | rfl
    · rw [weightOf_join_lt hi]
      exact w.le_next m hu hi
    · exact hnew.le
  refine ⟨fun i hu (hi : i < b.n + 1) => ?_, fun i j hu hij (hj : j < b.n + 1) => ?_,
    fun i hu (hi : i < b.n + 1) => ?_⟩
  · rcases Nat.lt_succ_iff_lt_or_eq.mp hi with hi | rfl
    · obtain ⟨p, e⟩ := join_old l r rest (Nat.ne_of_lt hi)
      rw [e]
      exact (w.children i hu hi).join hi
    · obtain ⟨p, e⟩ := join_new l r rest m.fits
      rw [e]
      simp only [toNat_setWidth_tag (m.left_lt.trans m.fits), toNat_setWidth_tag (m.right_lt.trans m.fits)]
      exact h.joins_new m ht
  · rcases Nat.lt_succ_iff_lt_or_eq.mp hj with hj | rfl
    · rw [weightOf_join_lt hj, weightOf_join_lt (by omega)]
      exact w.rising i j hu hij hj
    · rw [hnew]
      exact hnext i hu (by omega)
  · have hle := hnext i hu hi
    rw [m.inserted.live.pairwise_iff fun {x y} hxy => by rwa [Nat.add_comm y.key.toNat], List.pairwise_cons]
    refine ⟨fun y _ => ?_, List.pairwise_of_forall_mem_list fun x hx y hy => ?_⟩
    · simp only [h.toNat_add m ht]
      omega
    · have hx := m.right_le x hx
      have hy := m.right_le y hy
      have hlr := m.left_le_right
      omega

end

/-! ## What the build leaves -/

section
variable {s : State} (h0 : s.msgLen ≠ 0#32) (h1 : s.msgLen.toNat ≤ 65536)
include h0 h1

theorem buildLeaves_leaved :
    s.buildLeaves.Leaved (tally s.message) (presentSymbols (tally s.message)) :=
  buildLeaves_induction h0 h1 (P := fun vs b => b.Leaved (tally s.message) vs) ⟨Nat.le_refl 0, nofun, nofun⟩
    fun _ _ _ step ih => ih.addLeaf step

theorem buildMerged_leaved :
    s.buildMerged.Leaved (tally s.message) (presentSymbols (tally s.message)) :=
  buildMerged_induction h0 h1 (buildLeaves_leaved h0 h1) fun _ _ _ _ _ m ih => ih.join m

/-- The leaves together weigh MSG_LEN. -/
theorem buildLeaves_keyed : s.buildLeaves.Keyed s.msgLen.toNat := by
  have h := buildLeaves_induction h0 h1
    (P := fun vs b => b.Keyed (vs.map fun v => (tableGet (tally s.message) v).toNat).sum) ⟨nofun, rfl⟩
    fun vs v b step ih => by simpa using ih.addLeaf step
  rwa [sum_presentSymbols, sum_tally (message_length_lt h1), message_length] at h

theorem buildMerged_weighed : s.buildMerged.Keyed s.msgLen.toNat ∧ s.buildMerged.Weighed s.buildLeaves.n :=
  buildMerged_induction h0 h1 (P := fun b => b.Keyed s.msgLen.toNat ∧ b.Weighed s.buildLeaves.n)
    ⟨buildLeaves_keyed h0 h1, weighed_of_leaves _⟩
    fun _ _ _ _ _ m ⟨h, w⟩ => ⟨h.join m s.msgLen.isLt, w.join h m s.msgLen.isLt⟩

/-- The root weighs MSG_LEN (41_tree_builder.md R175). -/
theorem builtTree_weight_root :
    (tableGet s.builtTree.arena.nodes s.builtTree.arena.root.toNat).weight = s.msgLen := by
  obtain ⟨hkey, hsum⟩ := (buildMerged_weighed h0 h1).1
  obtain ⟨hlive, -, -⟩ := buildMerged_takeRoot h0 h1
  have hroot := hkey s.buildMerged.takeRoot.1 (by rw [hlive]; exact List.mem_singleton_self _)
  rw [totalKey_of_perm (.of_eq hlive), List.map_singleton, List.sum_singleton, ← hroot] at hsum
  rw [builtTree_root h0 h1, builtTree_nodes]
  exact BitVec.eq_of_toNat_eq hsum

end

/-- In a tree read from the arena, internal nodes that weigh their children make the tree weighted. -/
theorem weighted_of_readTree {nodes : Entries} {fuel : Nat} {i : NodeIndex} {T : Tree}
    (h : readTree nodes fuel i = some T)
    (hsum : ∀ j ∈ T.indices, (tableGet nodes j).kind = .internal → weightOf nodes j =
      weightOf nodes (tableGet nodes j).left.toNat + weightOf nodes (tableGet nodes j).right.toNat) :
    T.weighted nodes := by
  induction T generalizing fuel i with
  | leaf => trivial
  | node j l r ihl ihr =>
    obtain ⟨f, -, -, hidx, ⟨-, e⟩ | ⟨l, r, hk, e, hl, hr⟩⟩ := readTree_some h <;> cases e
    simp only [Tree.indices, List.mem_cons, List.mem_append, forall_eq_or_imp] at hsum
    obtain ⟨hroot, hsub⟩ := hsum
    obtain ⟨-, -, -, hlidx, -⟩ := readTree_some hl
    obtain ⟨-, -, -, hridx, -⟩ := readTree_some hr
    refine ⟨?_, ihl hl fun k hk => hsub k (.inl hk), ihr hr fun k hk => hsub k (.inr hk)⟩
    rw [hlidx, hridx]
    exact hroot hk

/-- Settles O30: the held tree's nodes are the entries made, whose weights the merges give. -/
theorem builtTreeMeetsTheTreeInvariant : Obligations.BuiltTreeMeetsTheTreeInvariant := by
  intro s t h0 h1 ht
  obtain rfl := eq_of_exec_buildTree h0 h1 ht
  rw [complete_arena]
  obtain ⟨T, hT⟩ := builtTree_holds h0 h1
  have ⟨htree, hperm, _⟩ := hT
  have hleaved := buildMerged_leaved h0 h1
  have hweighed := (buildMerged_weighed h0 h1).2
  have hkind : ∀ n, n < s.builtTree.arena.count.toNat → ((tableGet s.builtTree.arena.nodes n).kind = .leaf ↔
      n < s.builtTree.arena.unique.toNat) := by
    rw [builtTree_count h0 h1, builtTree_unique h0 h1, buildLeaves_n, builtTree_nodes]
    exact hleaved.kind
  refine ⟨T, hT, weighted_of_readTree (arena_tree_some htree).1 fun j hj hk => ?_, builtTree_count_unique h0 h1,
    builtTree_count_root h0 h1, builtTree_weight_root h0 h1, hkind⟩
  have hj := List.mem_range.mp (hperm.mem_iff.mp hj)
  have hu := mt (hkind j hj).mpr (by rw [hk]; nofun)
  rw [builtTree_unique h0 h1] at hu
  rw [builtTree_count h0 h1] at hj
  rw [builtTree_nodes]
  exact (hweighed.children j (by omega) hj).weight

/-- Settles O31 by the leaves' entries, which the merges keep. -/
theorem leavesAreNumberedByAscendingValue : Obligations.LeavesAreNumberedByAscendingValue := by
  intro s t h0 h1 ht
  obtain rfl := eq_of_exec_buildTree h0 h1 ht
  rw [complete_arena, builtTree_unique h0 h1, buildLeaves_n, builtTree_nodes]
  have hm := message_length_lt h1
  have hleaf := (buildMerged_leaved h0 h1).leaf
  have hlt : ∀ v ∈ presentSymbols (tally s.message), v < 256 := fun v hv => ((mem_presentSymbols hm v).mp hv).1
  rw [← presentSymbols_tally hm]
  generalize presentSymbols (tally s.message) = vs at *
  refine ⟨List.ext_getElem (by simp) fun j _ hj => ?_, fun j hj => ?_⟩
  · obtain ⟨hvalue, -⟩ := hleaf j vs[j] (List.getElem?_eq_getElem hj)
    rw [List.getElem_map, List.getElem_range, hvalue]
    exact Nat.mod_eq_of_lt (hlt _ (List.getElem_mem hj))
  · obtain ⟨hvalue, hweight⟩ := hleaf j vs[j] (List.getElem?_eq_getElem hj)
    rw [hvalue, hweight]
    exact tally_toNat hm (hlt _ (List.getElem_mem hj))

/-- Settles O32: the two lightest items are merged, so the next merge is of no lighter ones. -/
theorem leftChildIsNoHeavierThanTheRight : Obligations.LeftChildIsNoHeavierThanTheRight := by
  intro s t h0 h1 ht
  obtain rfl := eq_of_exec_buildTree h0 h1 ht
  rw [complete_arena, builtTree_count h0 h1, builtTree_unique h0 h1, builtTree_nodes]
  have hweighed := (buildMerged_weighed h0 h1).2
  exact ⟨fun n hu hn => (hweighed.children n hu hn).left_le_right,
    fun n hu hn => hweighed.rising n (n + 1) hu (Nat.le_succ n) hn⟩

end Sys2Proof.Machine
end

section
/-! PROOFS. DESERIALIZE_TREE as a reading of the grammar: from any point of the parse, the word of a shape adds the
nodes of that shape in pre-order below the open slot and leaves the walk where it was (42_tree_serdes.md R190, R194,
R195; O36 to O39). -/

namespace Sys2Proof.Machine

/-! ## Shapes and their pre-order numbering -/

/-- The nodes of a shape's tree. -/
def Shape.nodeCount : Shape → Nat
  | .leaf _ => 1
  | .node l r => 1 + (l.nodeCount + r.nodeCount)

/-- The tree of a shape, numbered in pre-order from `i` (42_tree_serdes.md R194). -/
def Shape.numbered (i : Nat) : Shape → Tree
  | .leaf v => .leaf i v
  | .node l r => .node i (l.numbered (i + 1)) (r.numbered (i + 1 + l.nodeCount))

theorem Shape.nodeCount_pos (σ : Shape) : 0 < σ.nodeCount := by
  cases σ <;> simp only [Shape.nodeCount] <;> omega

theorem Shape.nodeCount_succ (σ : Shape) : σ.nodeCount + 1 = 2 * σ.values.length := by
  induction σ with
  | leaf v => rfl
  | node l r ihl ihr => simp only [Shape.nodeCount, Shape.values, List.length_append]; omega

theorem Shape.nodeCount_le_word (σ : Shape) : σ.nodeCount ≤ σ.word.length := by
  have hn := σ.nodeCount_succ
  have hw := word_length σ
  omega

theorem Shape.word_length_node (l r : Shape) :
    (Shape.node l r).word.length = 1 + l.word.length + r.word.length := by
  simp only [Shape.word, List.length_cons, List.length_append]; omega

@[simp] theorem numbered_idx (σ : Shape) (i : Nat) : (σ.numbered i).idx = i := by cases σ <;> rfl

@[simp] theorem numbered_shape (σ : Shape) (i : Nat) : (σ.numbered i).shape = σ := by
  induction σ generalizing i with
  | leaf v => rfl
  | node l r ihl ihr => simp only [Shape.numbered, Tree.shape, ihl, ihr]

theorem numbered_indices (σ : Shape) (i : Nat) : (σ.numbered i).indices = List.range' i σ.nodeCount := by
  induction σ generalizing i with
  | leaf v => rfl
  | node l r ihl ihr =>
    simp only [Shape.numbered, Tree.indices, Shape.nodeCount, ihl, ihr, List.range'_append_1, Nat.add_comm 1,
      List.range'_succ]

theorem mem_numbered_indices {σ : Shape} {i j : Nat} (h : j ∈ (σ.numbered i).indices) :
    i ≤ j ∧ j < i + σ.nodeCount := by
  rw [numbered_indices, List.mem_range'_1] at h
  exact h

/-! ## A stream that spells a word, as far as it goes -/

/-- Up to the end of the stream, the bits from `pos` on are those of `w`. -/
def Spells (bit : Nat → Bool) (len pos : Nat) (w : List Bool) : Prop :=
  ∀ i b, w[i]? = some b → pos + i < len → bit (pos + i) = b

section
variable {bit : Nat → Bool} {len pos : Nat}

theorem Spells.head {b : Bool} {w : List Bool} (h : Spells bit len pos (b :: w)) (hpos : pos < len) : bit pos = b :=
  h 0 b rfl hpos

theorem Spells.tail {b : Bool} {w : List Bool} (h : Spells bit len pos (b :: w)) : Spells bit len (pos + 1) w := by
  intro i c hi hlt
  rw [Nat.add_assoc, Nat.add_comm 1] at hlt ⊢
  exact h (i + 1) c hi hlt

theorem Spells.left {u v : List Bool} (h : Spells bit len pos (u ++ v)) : Spells bit len pos u :=
  fun i b hi hlt => h i b (by rw [List.getElem?_append_left (List.getElem?_eq_some_iff.mp hi).1, hi]) hlt

theorem Spells.right {u v : List Bool} (h : Spells bit len pos (u ++ v)) : Spells bit len (pos + u.length) v := by
  intro i b hi hlt
  rw [Nat.add_assoc] at hlt ⊢
  exact h (u.length + i) b (by rw [List.getElem?_append_right (Nat.le_add_right ..), Nat.add_sub_cancel_left, hi]) hlt

/-- A leaf's value, read after its shape bit (42_tree_serdes.md R191). -/
theorem Spells.readValue_eq {v : Byte} (h : Spells bit len pos (Shape.leaf v).word) (hlen : pos + 9 ≤ len) :
    readValue bit pos = v := by
  apply BitVec.eq_of_getLsbD_eq
  intro j hj
  have hbit : (Shape.leaf v).word[1 + (7 - j)]? = some (v.getLsbD j) := by interval_cases j <;> rfl
  have hread := readValue_getLsbD bit pos (j := 7 - j) (by omega)
  rw [show 7 - (7 - j) = j by omega, Nat.add_assoc] at hread
  rw [hread, h _ _ hbit (by omega)]

/-! ## One step of the loop -/

variable {p p' : Parse} {fuel : Nat}

theorem run_of_node_ok (hpos : p.pos < len) (h : p.node bit len = .ok p') :
    p.run bit len (fuel + 1) = p'.run bit len fuel := by
  simp only [Parse.run, if_pos hpos, h]

theorem run_of_node_error {info : Nat} (hpos : p.pos < len) (h : p.node bit len = .error info) :
    p.run bit len (fuel + 1) = .failed info p.nodes := by
  simp only [Parse.run, if_pos hpos, h]

theorem run_of_end (hpos : len ≤ p.pos) : p.run bit len fuel = .consumed p := by
  cases fuel with
  | zero => rfl
  | succ fuel => exact if_neg (Nat.not_lt.mpr hpos)

theorem Parse.SlotOk.found {q : NodeIndex} (hq : p.SlotOk q) : ¬(p.n ≠ 0 ∧ q = Config.noNode) := by
  rcases hq with ⟨h0, -⟩ | ⟨-, hne, -⟩
  · exact fun h => h.1 h0
  · exact fun h => hne h.2

theorem node_of_one (hs : p.SlotOk p.slot) (hn : p.n < 511) (hb : bit p.pos = true) :
    p.node bit len = .ok (p.addInternal p.slot) := by
  rw [Parse.node, if_neg hs.found, if_neg (Nat.ne_of_lt hn), if_pos hb]

theorem node_of_zero (hs : p.SlotOk p.slot) (hn : p.n < 511) (hb : bit p.pos = false) (hlen : p.pos + 9 ≤ len) :
    p.node bit len = .ok (p.addLeaf p.slot (readValue bit p.pos)) := by
  rw [Parse.node, if_neg hs.found, if_neg (Nat.ne_of_lt hn), if_neg (by simp [hb]), if_neg (by omega)]

/-- Case (c) of 42_tree_serdes.md R196. -/
theorem node_of_short_leaf (hs : p.SlotOk p.slot) (hn : p.n < 511) (hb : bit p.pos = false) (hlen : len < p.pos + 9) :
    p.node bit len = .error len := by
  rw [Parse.node, if_neg hs.found, if_neg (Nat.ne_of_lt hn), if_neg (by simp [hb]), if_pos hlen]

/-- Case (b) of 42_tree_serdes.md R196. -/
theorem node_of_no_slot (hn : p.n ≠ 0) (hs : p.slot = Config.noNode) : p.node bit len = .error p.pos :=
  if_pos ⟨hn, hs⟩

/-- Case (e) of 42_tree_serdes.md R196. -/
theorem node_of_full (hn : p.n = 511) : p.node bit len = .error p.pos :=
  ite_eq_left_iff.mpr fun _ => if_pos hn

end

/-! ## The upward walk (42_tree_serdes.md R195) -/

/-- The nearest open node from `i` upward. -/
def openAbove (nodes : Entries) (i : NodeIndex) : NodeIndex := findOpen nodes (Config.nodeSlots + 1) i

theorem slot_eq_openAbove {p : Parse} (h : p.n ≠ 0) : p.slot = openAbove p.nodes p.frontier := if_neg h

theorem findOpen_noNode (nodes : Entries) (fuel : Nat) : findOpen nodes fuel Config.noNode = Config.noNode := by
  cases fuel <;> rfl

theorem openAbove_noNode (nodes : Entries) : openAbove nodes Config.noNode = Config.noNode := rfl

theorem openAbove_of_isOpen {nodes : Entries} {i : NodeIndex} (hi : i ≠ Config.noNode)
    (h : (tableGet nodes i.toNat).isOpen = true) : openAbove nodes i = i := by
  rw [openAbove, findOpen, if_neg hi, if_pos h]

/-- In a parse parents are made before their children, so fuel above a node's index runs its walk to the end. -/
theorem Wired.findOpen_fuel {nodes : Entries} {n : Nat} (h : Wired nodes n parseRank) {i : NodeIndex} {f g : Nat}
    (hi : i ≠ Config.noNode → i.toNat < n ∧ i.toNat < f ∧ i.toNat < g) : findOpen nodes f i = findOpen nodes g i := by
  by_cases hne : i = Config.noNode
  · rw [hne, findOpen_noNode, findOpen_noNode]
  obtain ⟨hin, hif, hig⟩ := hi hne
  induction f generalizing i g with
  | zero => omega
  | succ f ih =>
    obtain ⟨g, rfl⟩ : ∃ g', g = g' + 1 := ⟨g - 1, by omega⟩
    rw [findOpen, findOpen, if_neg hne, if_neg hne]
    split
    · rfl
    · by_cases hp : (tableGet nodes i.toNat).parent = Config.noNode
      · rw [hp, findOpen_noNode, findOpen_noNode]
      · obtain ⟨hpn, hup⟩ := h.rank_lt_parent hin (linkOf_of_ne hp)
        unfold parseRank at hup
        exact ih (fun _ => ⟨hpn, by omega, by omega⟩) hp hpn (by omega) (by omega)

theorem Wired.openAbove_parent {nodes : Entries} {n : Nat} (h : Wired nodes n parseRank) {i : NodeIndex}
    (hi : i ≠ Config.noNode) (hin : i.toNat < n) (hn : n ≤ 511) (hc : (tableGet nodes i.toNat).isOpen = false) :
    openAbove nodes i = openAbove nodes (tableGet nodes i.toNat).parent := by
  rw [openAbove, findOpen, if_neg hi, if_neg (by simp [hc])]
  refine h.findOpen_fuel fun hp => ?_
  have hpn := (h.rank_lt_parent hin (linkOf_of_ne hp)).1
  exact ⟨hpn, hpn.trans_le hn, Nat.lt_succ_of_lt (hpn.trans_le hn)⟩

/-! ## The entries of one node more -/

theorem tableGet_attachChild_other (nodes : Entries) {q c : NodeIndex} {i : Nat} (h : i ≠ q.toNat) :
    tableGet (attachChild nodes q c) i = tableGet nodes i := by
  unfold attachChild
  split_ifs
  · rfl
  · exact tableGet_tableSet_other _ _ h.symm
  · exact tableGet_tableSet_other _ _ h.symm

theorem Parse.SlotOk.toNat_lt {p : Parse} {q : NodeIndex} (h : p.SlotOk q) (hq : q ≠ Config.noNode) :
    q.toNat < p.n := by
  rcases h with ⟨-, e⟩ | ⟨-, -, hlt, -⟩
  · exact absurd e hq
  · exact hlt

theorem Parse.SlotOk.tableGet_attachChild_ge {p : Parse} {q : NodeIndex} (h : p.SlotOk q) (nodes : Entries)
    (c : NodeIndex) {i : Nat} (hi : p.n ≤ i) : tableGet (attachChild nodes q c) i = tableGet nodes i := by
  by_cases hq : q = Config.noNode
  · rw [attachChild, if_pos hq]
  · have := h.toNat_lt hq
    exact tableGet_attachChild_other nodes (by omega)

section
variable {p : Parse} {q : NodeIndex} {x : Node} (hn : p.n < 511) (hq : p.SlotOk q)
include hq

include hn in
theorem grownNodes_new : tableGet (p.grownNodes q x) p.n = x := by
  rw [Parse.grownNodes, hq.tableGet_attachChild_ge _ _ (le_refl _), tableGet_tableSet_same _ _ hn]

theorem grownNodes_above {i : Nat} (hi : p.n < i) : tableGet (p.grownNodes q x) i = tableGet p.nodes i := by
  rw [Parse.grownNodes, hq.tableGet_attachChild_ge _ _ (by omega), tableGet_tableSet_other _ _ (by omega)]

include hn in
theorem grownNodes_below {i : Nat} (hi : i < p.n) :
    tableGet (p.grownNodes q x) i = tableGet (attachChild p.nodes q (BitVec.ofNat 9 p.n)) i := by
  by_cases hne : q = Config.noNode
  · rw [Parse.grownNodes, attachChild, attachChild, if_pos hne, if_pos hne, tableGet_tableSet_other _ _ (by omega)]
  · have hlt := hq.toNat_lt hne
    rw [Parse.grownNodes, tableGet_attachChild hne (by omega), tableGet_attachChild hne (by omega), leftLink_tableSet,
      if_neg (c := p.n = q.toNat ∧ p.n < 511) (by omega), tableGet_tableSet_other _ _ (by omega)]

end

/-! ## Reading a shape -/

/-- From `p` to `p'` the parse has read the word of `σ`: its nodes stand in pre-order from the first free entry, their
root hangs in the slot `p` had found, nothing else is written, and the walk goes on from that slot. -/
structure Parse.Reads (σ : Shape) (p p' : Parse) : Prop where
  grown : p'.Grown
  pos : p'.pos = p.pos + σ.word.length
  count : p'.n = p.n + σ.nodeCount
  stands : (σ.numbered p.n).standsIn p'.nodes p'.n
  below : ∀ i, i < p.n → tableGet p'.nodes i = tableGet (attachChild p.nodes p.slot (BitVec.ofNat 9 p.n)) i
  above : ∀ i, p'.n ≤ i → tableGet p'.nodes i = tableGet p.nodes i
  weight : ∀ i, p.n ≤ i → i < p'.n → (tableGet p'.nodes i).weight = 0#32
  slot : p'.slot = openAbove p'.nodes p.slot

/-- A tree still stands where its entries are kept. -/
theorem Tree.standsIn.mono {nodes nodes' : Entries} {n n' : Nat} {T : Tree} (h : T.standsIn nodes n) (hn : n ≤ n')
    (hsame : ∀ i ∈ T.indices, tableGet nodes' i = tableGet nodes i) : T.standsIn nodes' n' := by
  induction T with
  | leaf i v =>
    obtain ⟨hi, hk, hv⟩ := h
    have e := hsame i (by simp [Tree.indices])
    exact ⟨hi.trans_le hn, e ▸ hk, e ▸ hv⟩
  | node i l r ihl ihr =>
    obtain ⟨hi, hk, hl, hr, hL, hR⟩ := h
    have e := hsame i (by simp [Tree.indices])
    refine ⟨hi.trans_le hn, e ▸ hk, ?_, ?_, ihl hL fun j hj => hsame j ?_, ihr hR fun j hj => hsame j ?_⟩
    · rw [leftLink, e, ← hl, leftLink]
    · rw [rightLink, e, ← hr, rightLink]
    · simp [Tree.indices, hj]
    · simp [Tree.indices, hj]

section
variable {p : Parse} (hs : p.SlotOk p.slot) (hn : p.n < 511)
include hs hn

/-- A leaf closes its slot's subtree: the walk goes on from the slot. -/
theorem reads_leaf (hg : p.Grown) (v : Byte) : p.Reads (.leaf v) (p.addLeaf p.slot v) where
  grown := hg.addLeaf hn hs v
  pos := rfl
  count := rfl
  stands := by
    have e := grownNodes_new (x := ⟨.leaf, v, Config.noNode, Config.noNode, p.slot, 0#32⟩) hn hs
    exact ⟨Nat.lt_succ_self _, (congrArg Node.kind e :), (congrArg Node.value e :)⟩
  below := fun i hi => grownNodes_below hn hs hi
  above := fun i hi => grownNodes_above hs hi
  weight := fun i hi hi' => by
    obtain rfl : i = p.n := Nat.le_antisymm (Nat.le_of_lt_succ hi') hi
    exact (congrArg Node.weight (grownNodes_new hn hs) :)
  slot := by
    have hnew : tableGet (p.addLeaf p.slot v).nodes p.n = ⟨.leaf, v, Config.noNode, Config.noNode, p.slot, 0#32⟩ :=
      grownNodes_new hn hs
    rw [slot_eq_openAbove (Nat.succ_ne_zero _)]
    by_cases hnone : p.slot = Config.noNode
    · have hfront : (p.addLeaf p.slot v).frontier = BitVec.ofNat 9 p.n := if_pos hnone
      rw [hfront, (hg.addLeaf hn hs v).wired.openAbove_parent (ofNat_ne_noNode hn)
        (by rw [ofNat_toNat_of_lt hn]; exact Nat.lt_succ_self _) hn
        (by rw [ofNat_toNat_of_lt hn, hnew]; rfl), ofNat_toNat_of_lt hn, hnew]
    · exact congrArg _ (if_neg hnone)

theorem addInternal_new : tableGet (p.addInternal p.slot).nodes p.n =
    ⟨.internal, 0#8, Config.noNode, Config.noNode, p.slot, 0#32⟩ := grownNodes_new hn hs

/-- The parse descends into a new internal node. -/
theorem addInternal_slot : (p.addInternal p.slot).slot = BitVec.ofNat 9 p.n := by
  rw [slot_eq_openAbove (Nat.succ_ne_zero _)]
  show openAbove _ (BitVec.ofNat 9 p.n) = _
  refine openAbove_of_isOpen (ofNat_ne_noNode hn) ?_
  rw [ofNat_toNat_of_lt hn, addInternal_new hs hn]
  rfl

theorem addInternal_slotOk (hg : p.Grown) : (p.addInternal p.slot).SlotOk (p.addInternal p.slot).slot :=
  (hg.addInternal hn hs).slotOk fun h => ofNat_ne_noNode hn ((addInternal_slot hs hn).symm.trans h.2)

section
variable {l : Shape} {p1 : Parse} (hl : (p.addInternal p.slot).Reads l p1)
include hl

/-- An internal node after its left subtree. -/
theorem Parse.Reads.left_node : tableGet p1.nodes p.n =
    ⟨.internal, 0#8, BitVec.ofNat 9 (p.n + 1), Config.noNode, p.slot, 0#32⟩ := by
  have hnew := addInternal_new hs hn
  have hto := ofNat_toNat_of_lt hn
  rw [hl.below p.n (Nat.lt_succ_self _), addInternal_slot hs hn,
    tableGet_attachChild (ofNat_ne_noNode hn) (by omega), hto, if_pos rfl, leftLink, hnew]
  exact if_pos rfl

/-- After the left subtree the right slot of the same node is next. -/
theorem Parse.Reads.left_slot : p1.slot = BitVec.ofNat 9 p.n := by
  rw [hl.slot, addInternal_slot hs hn]
  refine openAbove_of_isOpen (ofNat_ne_noNode hn) ?_
  rw [ofNat_toNat_of_lt hn, hl.left_node hs hn]
  simp [Node.isOpen]

theorem Parse.Reads.left_slotOk : p1.SlotOk p1.slot :=
  hl.grown.slotOk fun h => ofNat_ne_noNode hn ((hl.left_slot hs hn).symm.trans h.2)

variable {r : Shape} {p2 : Parse} (hr : p1.Reads r p2)
include hr

/-- The second subtree keeps every entry made before it but its parent's. -/
theorem Parse.Reads.right_kept {i : Nat} (hi : i < p1.n) (hne : i ≠ p.n) :
    tableGet p2.nodes i = tableGet p1.nodes i := by
  rw [hr.below i hi, hl.left_slot hs hn, tableGet_attachChild_other _ (by rwa [ofNat_toNat_of_lt hn])]

variable (hfits : p.n + (Shape.node l r).nodeCount ≤ 511)
include hfits

/-- An internal node after both subtrees. -/
theorem Parse.Reads.right_node : tableGet p2.nodes p.n =
    ⟨.internal, 0#8, BitVec.ofNat 9 (p.n + 1), BitVec.ofNat 9 p1.n, p.slot, 0#32⟩ := by
  have hto := ofNat_toNat_of_lt hn
  have hcount : p1.n = p.n + 1 + l.nodeCount := hl.count
  have hleft := hl.left_node hs hn
  have hpos := l.nodeCount_pos
  simp only [Shape.nodeCount] at hfits
  rw [hr.below p.n (by omega), hl.left_slot hs hn, tableGet_attachChild (ofNat_ne_noNode hn) (by omega), hto,
    if_pos rfl, leftLink, hleft, if_neg (by rw [linkOf_ofNat (by omega)]; exact Option.some_ne_none _)]

/-- The word of an internal node's shape is read bit by bit and subtree by subtree. -/
theorem reads_node : p.Reads (.node l r) p2 := by
  have hc1 : p1.n = p.n + 1 + l.nodeCount := hl.count
  have hc2 : p2.n = p1.n + r.nodeCount := hr.count
  have hpos1 : p1.pos = p.pos + 1 + l.word.length := hl.pos
  have hcl := l.nodeCount_pos
  have hcr := r.nodeCount_pos
  have hnode := hl.right_node hs hn hr hfits
  have hkept := fun {i} => hl.right_kept hs hn hr (i := i)
  simp only [Shape.nodeCount] at hfits
  have hto := ofNat_toNat_of_lt hn
  have hstands : ((Shape.node l r).numbered p.n).standsIn p2.nodes p2.n := by
    refine ⟨by omega, by rw [hnode], ?_, ?_, hl.stands.mono (by omega) fun i hi => ?_, hc1 ▸ hr.stands⟩
    · rw [leftLink, hnode, linkOf_ofNat (by omega), numbered_idx]
    · rw [rightLink, hnode, linkOf_ofNat (by omega), numbered_idx, hc1]
    · obtain ⟨hlo, hhi⟩ : p.n + 1 ≤ i ∧ i < p.n + 1 + l.nodeCount := mem_numbered_indices hi
      exact hkept (by omega) (by omega)
  have hclosed : (tableGet p2.nodes p.n).isOpen = false := by
    rw [hnode]
    simp [Node.isOpen, ofNat_ne_noNode (i := p.n + 1) (by omega), ofNat_ne_noNode (i := p1.n) (by omega)]
  exact {
    grown := hr.grown
    pos := by rw [hr.pos, hpos1, Shape.word_length_node]; omega
    count := by rw [hc2, hc1, Shape.nodeCount]; omega
    stands := hstands
    below := fun i hi => by
      rw [hkept (by omega) (by omega), hl.below i (Nat.lt_succ_of_lt hi), addInternal_slot hs hn,
        tableGet_attachChild_other _ (by omega)]
      exact grownNodes_below hn hs hi
    above := fun i hi => by
      rw [hr.above i hi, hl.above i (by omega)]
      exact grownNodes_above hs (by omega)
    weight := fun i hi hi' => by
      by_cases hin : i = p.n
      · rw [hin, hnode]
      · by_cases hi1 : i < p1.n
        · rw [hkept hi1 hin]
          exact hl.weight i (Nat.lt_of_le_of_ne hi (Ne.symm hin)) hi1
        · exact hr.weight i (by omega) hi'
    slot := by
      rw [hr.slot, hl.left_slot hs hn, hr.grown.wired.openAbove_parent (ofNat_ne_noNode hn) (by omega)
        hr.grown.slots (by rwa [hto]), hto, hnode] }

end

end

/-- The parse reads every word that fits the stream and the arena, one node a step. -/
theorem Parse.exists_reads {bit : Nat → Bool} {len : Nat} (σ : Shape) {p : Parse} (hg : p.Grown)
    (hs : p.SlotOk p.slot) (hw : Spells bit len p.pos σ.word) (hlen : p.pos + σ.word.length ≤ len)
    (hn : p.n + σ.nodeCount ≤ 511) :
    ∃ p', p.Reads σ p' ∧ ∀ fuel, p.run bit len (σ.nodeCount + fuel) = p'.run bit len fuel := by
  have hlt : p.n < 511 := by have := σ.nodeCount_pos; omega
  induction σ generalizing p with
  | leaf v =>
    have hpos : p.pos + 9 ≤ len := hlen
    refine ⟨_, reads_leaf hs hlt hg v, fun fuel => ?_⟩
    have hnode := node_of_zero (len := len) hs hlt (hw.head (by omega)) hpos
    rw [hw.readValue_eq hpos] at hnode
    rw [Shape.nodeCount, Nat.add_comm, run_of_node_ok (by omega) hnode]
  | node l r ihl ihr =>
    rw [Shape.word_length_node] at hlen
    have hfits := hn
    simp only [Shape.nodeCount] at hn
    have hcl := l.nodeCount_pos
    have hcr := r.nodeCount_pos
    have hnode := node_of_one (len := len) hs hlt (hw.head (by omega))
    have hpI : (p.addInternal p.slot).pos = p.pos + 1 := rfl
    have hnI : (p.addInternal p.slot).n = p.n + 1 := rfl
    obtain ⟨p1, hl, hrun1⟩ := ihl (hg.addInternal hlt hs) (addInternal_slotOk hs hlt hg) hw.tail.left (by omega)
      (by omega) (by omega)
    have hp1 := hl.pos
    have hn1 := hl.count
    obtain ⟨p2, hr, hrun2⟩ := ihr hl.grown (hl.left_slotOk hs hlt) (hp1 ▸ hw.tail.right) (by omega) (by omega)
      (by omega)
    refine ⟨p2, reads_node hs hlt hl hr hfits, fun fuel => ?_⟩
    rw [Shape.nodeCount, show 1 + (l.nodeCount + r.nodeCount) + fuel = l.nodeCount + (r.nodeCount + fuel) + 1 by omega,
      run_of_node_ok (by omega) hnode, hrun1, hrun2]

end Sys2Proof.Machine
end

section
/-! PROOFS. The tree bitstream (42_tree_serdes.md): what ENCODE_TREE writes (O34, O35), which streams DESERIALIZE_TREE
accepts and where it stops on the others (O36 to O38), and the two round trips (O39). -/

namespace Sys2Proof.Machine

/-! ## ENCODE_TREE (R192, R193) -/

/-- What ENCODE_TREE leaves: the tree's word in TBS and its length. -/
def State.encodedTree (T : Tree) (s : State) : State :=
  ({ s with
    mem := s.mem.writeBits Config.tbsBase 0 T.shape.word
    tbsLen := BitVec.ofNat 32 T.shape.word.length } : State).complete

section
variable {s : State} {T : Tree} (hT : s.arena.tree = some T)
include hT

theorem exec_encodeTree (hv : s.status.treeValid = true) : exec .encodeTree s = .next (s.encodedTree T) := by
  simp only [exec, execEncodeTree, if_pos hv, hT, serialize_eq_word]
  rfl

theorem shape_word_fits : T.shape.word.length < Config.tbsBits := serialize_eq_word T ▸ serialize_fits hT

theorem encodedTree_tbsLen : (s.encodedTree T).tbsLen.toNat = T.shape.word.length := by
  have hfits := shape_word_fits hT
  rw [Config.tbsBits] at hfits
  show (BitVec.ofNat 32 T.shape.word.length).toNat = _
  rw [BitVec.toNat_ofNat]
  omega

theorem encodedTree_readBit (hw : s.mem.wf) (n j : Nat) : (s.encodedTree T).mem.readBit n Config.tbsBase j =
    T.shape.word[j]?.getD (s.mem.readBit n Config.tbsBase j) :=
  readBit_writeBits hw n _ _ (fun _ hk => inBuffer_tbs (hk.trans (shape_word_fits hT))) j

theorem encodedTree_treeBit (hw : s.mem.wf) {j : Nat} (hj : j < T.shape.word.length) :
    T.shape.word[j]? = some ((s.encodedTree T).treeBit j) := by
  rw [State.treeBit, encodedTree_readBit hT hw, List.getElem?_eq_getElem hj, Option.getD_some]

end

/-- Settles O34: the word is written bit by bit from stream bit 0. -/
theorem encodeTreeWritesTheTreesWord : Obligations.EncodeTreeWritesTheTreesWord := by
  intro s T hw hv hT
  refine ⟨_, exec_encodeTree hT hv, rfl, encodedTree_readBit hT hw, fun n a ha => ?_⟩
  refine readByte_writeBits_outside hw n _ _ (fun _ hk => inBuffer_tbs (hk.trans (shape_word_fits hT)))
    fun k hk => ?_
  rw [Config.tbsBase]
  omega

/-- Settles O35 by the length of a word and the counts of R58. -/
theorem serializedLengthFollowsFromTheCounts : Obligations.SerializedLengthFollowsFromTheCounts := by
  intro s t T hv ⟨hT, _, _, hunique, hcount⟩ h
  obtain rfl := Host.Outcome.next.inj ((exec_encodeTree hT hv).symm.trans h)
  have hleaves := (arena_tree_some hT).2
  have hpos := leafCount_pos T
  have hlen := word_length T.shape
  rw [values_length] at hlen
  rw [encodedTree_tbsLen hT]
  omega

/-! ## Every stream goes on from a complete tree or ends inside one (R196) -/

/-- The leaf whose value has the given bits, most significant first (R191). -/
theorem exists_leaf_word {bs : List Bool} (h : bs.length = 8) : ∃ v, (Shape.leaf v).word = false :: bs := by
  match bs, h with
  | [b7, b6, b5, b4, b3, b2, b1, b0], _ =>
    refine ⟨BitVec.ofBoolListBE [b7, b6, b5, b4, b3, b2, b1, b0], ?_⟩
    revert b7 b6 b5 b4 b3 b2 b1 b0
    decide

/-- A stream that begins as a leaf: its value follows in full, or in part. -/
theorem leaf_goes_on_or_ends (bs : List Bool) :
    (∃ (σ : Shape) (rest : List Bool), false :: bs = σ.word ++ rest) ∨
      ∃ (σ : Shape) (rest : List Bool), rest ≠ [] ∧ (false :: bs) ++ rest = σ.word := by
  by_cases h : 8 ≤ bs.length
  · obtain ⟨v, hv⟩ := exists_leaf_word (bs := bs.take 8) (by simp [h])
    exact .inl ⟨.leaf v, bs.drop 8, by rw [hv, List.cons_append, List.take_append_drop]⟩
  · have hpad : (bs ++ List.replicate (8 - bs.length) false).length = 8 := by simp; omega
    obtain ⟨v, hv⟩ := exists_leaf_word hpad
    exact .inr ⟨.leaf v, List.replicate (8 - bs.length) false, by simp; omega, hv.symm⟩

theorem stream_goes_on_or_ends (bits : List Bool) :
    (∃ (σ : Shape) (rest : List Bool), bits = σ.word ++ rest) ∨
      ∃ (σ : Shape) (rest : List Bool), rest ≠ [] ∧ bits ++ rest = σ.word := by
  induction hlen : bits.length using Nat.strong_induction_on generalizing bits with
  | _ n ih =>
    match bits, hlen with
    | [], _ => exact .inr ⟨.leaf 0#8, (Shape.leaf 0#8).word, by simp [Shape.word], rfl⟩
    | false :: bs, _ => exact leaf_goes_on_or_ends bs
    | true :: bs, hlen =>
      rw [List.length_cons] at hlen
      rcases ih _ (by omega) bs rfl with ⟨l, bs', rfl⟩ | ⟨l, rest, hne, hl⟩
      · rw [List.length_append] at hlen
        rcases ih _ (by omega) bs' rfl with ⟨r, rest, rfl⟩ | ⟨r, rest, hne, hr⟩
        · exact .inl ⟨.node l r, rest, by simp [Shape.word]⟩
        · exact .inr ⟨.node l r, rest, hne, by simp [Shape.word, hr]⟩
      · exact .inr ⟨.node l (.leaf 0#8), rest ++ (Shape.leaf 0#8).word, by simp [hne], by simp [← hl, Shape.word]⟩

/-! ## A parse that ends with the tree complete, or goes on -/

/-- The parse before its first bit (R194). -/
def Parse.start (nodes : Entries) : Parse := ⟨nodes, 0, 0, 0, Config.noNode⟩

theorem start_slotOk (nodes : Entries) : (Parse.start nodes).SlotOk (Parse.start nodes).slot := .inl ⟨rfl, rfl⟩

theorem parseTree_of_consumed {bit : Nat → Bool} {len : Nat} {nodes : Entries} {p : Parse}
    (h : (Parse.start nodes).run bit len len = .consumed p) :
    parseTree bit len nodes = if p.anyOpen then .failed len p.nodes else .consumed p := by
  rw [Parse.start] at h
  rw [parseTree, h]

theorem parseTree_of_failed {bit : Nat → Bool} {len info : Nat} {nodes nodes' : Entries}
    (h : (Parse.start nodes).run bit len len = .failed info nodes') :
    parseTree bit len nodes = .failed info nodes' := by
  rw [Parse.start] at h
  rw [parseTree, h]

/-- No node of a standing tree is open. -/
theorem Tree.standsIn.closed {nodes : Entries} {n : Nat} {T : Tree} (h : T.standsIn nodes n) :
    ∀ i ∈ T.indices, (tableGet nodes i).isOpen = false := by
  induction T with
  | leaf i v =>
    intro j hj
    obtain rfl := List.mem_singleton.mp hj
    simp [Node.isOpen, h.2.1]
  | node i l r ihl ihr =>
    obtain ⟨-, -, hl, hr, hL, hR⟩ := h
    intro j hj
    rcases List.mem_cons.mp hj with rfl | hj
    · rw [Bool.eq_false_iff, Ne, isOpen_iff]
      simp [hl, hr]
    · rcases List.mem_append.mp hj with hj | hj
      · exact ihl hL j hj
      · exact ihr hR j hj

section
variable {bit : Nat → Bool} {len : Nat} {σ : Shape} (nodes : Entries) (hw : Spells bit len 0 σ.word)
include hw

/-- From its start the parse reads a word that fits the stream and the arena. -/
theorem exists_reads_start (hlen : σ.word.length ≤ len) (hn : σ.values.length ≤ 256) :
    ∃ p, (Parse.start nodes).Reads σ p ∧
      ∃ fuel, σ.nodeCount + fuel = len ∧ (Parse.start nodes).run bit len len = p.run bit len fuel := by
  have hcount := σ.nodeCount_succ
  obtain ⟨p, hp, hrun⟩ := Parse.exists_reads σ (parseStart_grown nodes) (start_slotOk nodes) hw
    (by rw [Nat.zero_add]; exact hlen) (by rw [Nat.zero_add]; omega)
  obtain ⟨fuel, hfuel⟩ := Nat.exists_eq_add_of_le (σ.nodeCount_le_word.trans hlen)
  exact ⟨p, hp, fuel, hfuel.symm, by rw [← hrun fuel, ← hfuel]; rfl⟩

/-- A stream that is a word of at most 256 leaves is accepted (R197). -/
theorem parseTree_word (hlen : σ.word.length = len) (hn : σ.values.length ≤ 256) :
    ∃ p, (Parse.start nodes).Reads σ p ∧ parseTree bit len nodes = .consumed p := by
  obtain ⟨p, hp, fuel, -, hrun⟩ := exists_reads_start nodes hw hlen.le hn
  have hpos : p.pos = 0 + σ.word.length := hp.pos
  have hcount : p.n = 0 + σ.nodeCount := hp.count
  have hclosed : p.anyOpen = false := List.any_eq_false.mpr fun i hi => by
    have hmem : i ∈ (σ.numbered 0).indices := by
      rwa [numbered_indices, ← List.range_eq_range', ← Nat.zero_add σ.nodeCount, ← hcount]
    simpa using hp.stands.closed i hmem
  rw [run_of_end (p := p) (by omega)] at hrun
  exact ⟨p, hp, by rw [parseTree_of_consumed hrun, hclosed]; rfl⟩

/-- A stream that goes on from a word is refused at its first bit beyond it: case (b) of R196. -/
theorem parseTree_beyond (hlen : σ.word.length < len) (hmax : len ≤ 2560) :
    ∃ nodes', parseTree bit len nodes = .failed σ.word.length nodes' := by
  have hword := word_length σ
  obtain ⟨p, hp, fuel, hfuel, hrun⟩ := exists_reads_start nodes hw hlen.le (by omega)
  have hpos : p.pos = 0 + σ.word.length := hp.pos
  have hcount : p.n = 0 + σ.nodeCount := hp.count
  have hnodes := σ.nodeCount_pos
  have hle := σ.nodeCount_le_word
  obtain ⟨fuel, rfl⟩ : ∃ f, fuel = f + 1 := ⟨fuel - 1, by omega⟩
  have hslot : p.slot = Config.noNode := hp.slot.trans (openAbove_noNode _)
  rw [run_of_node_error (by omega) (node_of_no_slot (by omega) hslot), hpos, Nat.zero_add] at hrun
  exact ⟨_, parseTree_of_failed hrun⟩

end

/-! ## A parse that ends inside a tree (R196 (c), (d), (e)) -/

/-- The loop ends in a refusal: at a node, or with a node left open after the last bit. -/
def ParseEnd.Refused (len info : Nat) : ParseEnd → Prop
  | .failed i _ => i = info
  | .consumed p => p.anyOpen = true ∧ len = info

theorem parseTree_of_refused {bit : Nat → Bool} {len info : Nat} {nodes : Entries}
    (h : ((Parse.start nodes).run bit len len).Refused len info) :
    ∃ nodes', parseTree bit len nodes = .failed info nodes' := by
  cases hrun : (Parse.start nodes).run bit len len with
  | failed i nodes' =>
    rw [hrun] at h
    exact ⟨nodes', h ▸ parseTree_of_failed hrun⟩
  | consumed p =>
    rw [hrun] at h
    exact ⟨p.nodes, by rw [parseTree_of_consumed hrun, if_pos h.1, h.2]⟩

/-- Where a parse at `p` stops that cannot read the whole of the word of `σ`: at the shape bit of the 512th node where
the stream holds it, at the end of the stream otherwise. -/
def Shape.stopAt (σ : Shape) (len : Nat) (p : Parse) : Nat := min ((σ.starts p.pos)[511 - p.n]?.getD len) len

theorem stopAt_of_lt {σ : Shape} {len q : Nat} {p : Parse} (hq : (σ.starts p.pos)[511 - p.n]? = some q) (h : q < len) :
    σ.stopAt len p = q := by
  rw [Shape.stopAt, hq, Option.getD_some, Nat.min_eq_left h.le]

theorem stopAt_of_ge {σ : Shape} {len : Nat} {p : Parse} (h : ∀ q, (σ.starts p.pos)[511 - p.n]? = some q → len ≤ q) :
    σ.stopAt len p = len := by
  rw [Shape.stopAt]
  cases hq : (σ.starts p.pos)[511 - p.n]? with
  | none => rw [Option.getD_none, Nat.min_self]
  | some q => rw [Option.getD_some, Nat.min_eq_right (h q hq)]

theorem starts_head (σ : Shape) (pos : Nat) : (σ.starts pos)[0]? = some pos := by cases σ <;> rfl

theorem starts_nodeCount (σ : Shape) (pos : Nat) : (σ.starts pos).length = σ.nodeCount := by
  have hs := starts_length σ pos
  have hn := σ.nodeCount_succ
  omega

theorem le_of_starts {σ : Shape} {pos i q : Nat} (h : (σ.starts pos)[i]? = some q) : pos ≤ q :=
  (starts_bounds σ pos q (List.mem_of_getElem? h)).1

section
variable {len : Nat} {l r : Shape} {p : Parse} (hn : p.n < 511)
include hn

/-- Past its first shape bit, a node's stop is looked for among its subtrees' shape bits. -/
theorem starts_node : ((Shape.node l r).starts p.pos)[511 - p.n]? =
    (l.starts (p.pos + 1) ++ r.starts (p.pos + 1 + l.word.length))[511 - (p.n + 1)]? := by
  rw [show 511 - p.n = 511 - (p.n + 1) + 1 by omega]
  rfl

/-- A parse that stops in the left subtree stops where it stops in the node. -/
theorem stopAt_left (h : len < p.pos + 1 + l.word.length ∨ 511 < p.n + 1 + l.nodeCount) :
    (Shape.node l r).stopAt len p = l.stopAt len (p.addInternal p.slot) := by
  have hl := starts_nodeCount l (p.pos + 1)
  have hrest : (l.starts (p.pos + 1))[511 - (p.n + 1)]? = none →
      ∀ q, ((Shape.node l r).starts p.pos)[511 - p.n]? = some q → len ≤ q := fun hnone q hq => by
    rw [List.getElem?_eq_none_iff] at hnone
    rw [starts_node hn, List.getElem?_append_right hnone] at hq
    have := le_of_starts hq
    omega
  cases hq : (l.starts (p.pos + 1))[511 - (p.n + 1)]? with
  | none =>
    rw [stopAt_of_ge (hrest hq)]
    exact (stopAt_of_ge fun q hq' => absurd (hq'.symm.trans hq) (Option.some_ne_none q)).symm
  | some q =>
    have hlt := (List.getElem?_eq_some_iff.mp hq).1
    rw [Shape.stopAt, starts_node hn, List.getElem?_append_left hlt]
    rfl

/-- A parse that has read the left subtree stops in the right one where it stops in the node. -/
theorem stopAt_right {p1 : Parse} (h1 : (p.addInternal p.slot).Reads l p1) (h : p1.n ≤ 511) :
    (Shape.node l r).stopAt len p = r.stopAt len p1 := by
  have hpos : p1.pos = p.pos + 1 + l.word.length := h1.pos
  have hcount : p1.n = p.n + 1 + l.nodeCount := h1.count
  have hl := starts_nodeCount l (p.pos + 1)
  rw [Shape.stopAt, starts_node hn, List.getElem?_append_right (by omega), hl,
    show 511 - (p.n + 1) - l.nodeCount = 511 - p1.n by omega, ← hpos]
  rfl

end

section
variable {bit : Nat → Bool} {len fuel : Nat} {p : Parse} (hs : p.SlotOk p.slot)

theorem Parse.SlotOk.anyOpen {q : NodeIndex} (hq : p.SlotOk q) (hn : p.n ≠ 0) : p.anyOpen = true := by
  rcases hq with ⟨h0, -⟩ | ⟨-, -, hlt, hopen⟩
  · exact absurd h0 hn
  · exact List.any_eq_true.mpr ⟨_, List.mem_range.mpr hlt, hopen⟩

include hs in
/-- Case (d) of R196: the bits end where a node is due. -/
theorem refused_at_end (σ : Shape) (hn : p.n ≠ 0) (hpos : p.pos = len) :
    (p.run bit len fuel).Refused len (σ.stopAt len p) := by
  rw [run_of_end hpos.ge]
  exact ⟨hs.anyOpen hn, (stopAt_of_ge fun q hq => hpos ▸ le_of_starts hq).symm⟩

/-- Case (e) of R196: a 512th node is due. -/
theorem refused_when_full (σ : Shape) (hn : p.n = 511) (hpos : p.pos < len) (hfuel : len ≤ p.pos + fuel) :
    (p.run bit len fuel).Refused len (σ.stopAt len p) := by
  obtain ⟨fuel, rfl⟩ : ∃ f, fuel = f + 1 := ⟨fuel - 1, by omega⟩
  rw [run_of_node_error hpos (node_of_full hn)]
  exact (stopAt_of_lt (by rw [hn]; exact starts_head σ _) hpos).symm

/-- A parse that cannot read the whole word ahead of it is refused where the stream or the arena ends. -/
theorem run_refused (σ : Shape) (hg : p.Grown) (hs : p.SlotOk p.slot) (hw : Spells bit len p.pos σ.word)
    (hpos : p.pos ≤ len) (hdue : p.n ≠ 0 ∨ p.pos < len) (hfuel : len ≤ p.pos + fuel)
    (hshort : len < p.pos + σ.word.length ∨ 511 < p.n + σ.nodeCount) :
    (p.run bit len fuel).Refused len (σ.stopAt len p) := by
  induction σ generalizing p fuel with
  | leaf v =>
    rcases hpos.eq_or_lt with hend | hlt
    · exact refused_at_end hs _ (by omega) hend
    rcases hg.slots.eq_or_lt with hfull | hn
    · exact refused_when_full _ hfull hlt hfuel
    have hlen : len < p.pos + 9 := hshort.resolve_right (Nat.not_lt.mpr hn)
    obtain ⟨fuel, rfl⟩ : ∃ f, fuel = f + 1 := ⟨fuel - 1, by omega⟩
    rw [run_of_node_error hlt (node_of_short_leaf hs hn (hw.head hlt) hlen)]
    refine (stopAt_of_ge fun q hq => ?_).symm
    have : 511 - p.n < 1 := (List.getElem?_eq_some_iff.mp hq).1
    omega
  | node l r ihl ihr =>
    rcases hpos.eq_or_lt with hend | hlt
    · exact refused_at_end hs _ (by omega) hend
    rcases hg.slots.eq_or_lt with hfull | hn
    · exact refused_when_full _ hfull hlt hfuel
    rw [Shape.word_length_node] at hshort
    simp only [Shape.nodeCount] at hshort
    obtain ⟨fuel, rfl⟩ : ∃ f, fuel = f + 1 := ⟨fuel - 1, by omega⟩
    have hpI : (p.addInternal p.slot).pos = p.pos + 1 := rfl
    have hnI : (p.addInternal p.slot).n = p.n + 1 := rfl
    have hgI := hg.addInternal hn hs
    have hsI := addInternal_slotOk hs hn hg
    rw [run_of_node_ok hlt (node_of_one hs hn (hw.head hlt))]
    by_cases hleft : len < p.pos + 1 + l.word.length ∨ 511 < p.n + 1 + l.nodeCount
    · rw [stopAt_left hn hleft]
      exact ihl hgI hsI hw.tail.left (by omega) (by omega) (by omega) hleft
    · obtain ⟨p1, hl, hrun⟩ := Parse.exists_reads (bit := bit) (len := len) l hgI hsI hw.tail.left (by omega) (by omega)
      have hp1 := hl.pos
      have hn1 := hl.count
      have hle := l.nodeCount_le_word
      obtain ⟨fuel, rfl⟩ : ∃ f, fuel = l.nodeCount + f := ⟨fuel - l.nodeCount, by omega⟩
      rw [hrun, stopAt_right hn hl hl.grown.slots]
      exact ihr hl.grown (hl.left_slotOk hs hn) (hp1 ▸ hw.tail.right) (by omega) (by omega) (by omega) (by omega)

/-- A stream that ends inside a word is refused: cases (c), (d) and (e) of R196. -/
theorem parseTree_inside (σ : Shape) (nodes : Entries) (hw : Spells bit len 0 σ.word) (hpos : 0 < len)
    (hlen : len < σ.word.length) :
    ∃ nodes', parseTree bit len nodes = .failed (σ.stopAt len (Parse.start nodes)) nodes' :=
  parseTree_of_refused (run_refused σ (parseStart_grown nodes) (start_slotOk nodes) hw (Nat.zero_le _) (.inr hpos)
    (Nat.zero_add len).ge (.inl ((Nat.zero_add σ.word.length).symm ▸ hlen)))

end

/-! ## DESERIALIZE_TREE (R194) -/

theorem spells_of_getElem? {bit : Nat → Bool} {len : Nat} {w : List Bool}
    (h : ∀ i, i < len → ∀ b, w[i]? = some b → ((List.range len).map bit)[i]? = some b) : Spells bit len 0 w := by
  intro i b hi hlt
  rw [Nat.zero_add] at hlt ⊢
  have := h i hlt b hi
  rwa [List.getElem?_map, List.getElem?_range hlt, Option.map_some, Option.some.injEq] at this

theorem spells_of_goes_on {bit : Nat → Bool} {len : Nat} {w rest : List Bool}
    (h : (List.range len).map bit = w ++ rest) : Spells bit len 0 w :=
  spells_of_getElem? fun i _ b hi => by
    rw [h, List.getElem?_append_left (List.getElem?_eq_some_iff.mp hi).1, hi]

theorem spells_of_ends_inside {bit : Nat → Bool} {len : Nat} {w rest : List Bool}
    (h : (List.range len).map bit ++ rest = w) : Spells bit len 0 w :=
  spells_of_getElem? fun i hi b hb => by
    rwa [← h, List.getElem?_append_left (by simpa using hi)] at hb

/-- The state after a refused stream: no tree, the entries the parse wrote, and the position (R194, R262). -/
def State.refuseStream (nodes : Entries) (info : Word) (s : State) : State :=
  ({ s.tearDown with arena := { s.tearDown.arena with nodes := nodes } } : State).raise .invalidTreeFormat info

section
variable {s : State}

/-- Case (a) of R196. -/
theorem exec_deserializeTree_of_length (h : s.tbsLen = 0#32 ∨ 2560 < s.tbsLen.toNat) :
    exec .deserializeTree s = .next (s.refuseStream s.arena.nodes s.tbsLen) := if_pos h

variable (h0 : s.tbsLen ≠ 0#32) (h1 : s.tbsLen.toNat ≤ 2560)
include h0 h1

theorem tbsLen_in_range : ¬(s.tbsLen = 0#32 ∨ Config.tbsBits < s.tbsLen.toNat) := not_or.mpr ⟨h0, Nat.not_lt.mpr h1⟩

theorem exec_deserializeTree_of_consumed {p : Parse}
    (h : parseTree s.treeBit s.tbsLen.toNat s.arena.nodes = .consumed p) :
    exec .deserializeTree s = .next (s.tearDown.holdParsed p).complete := by
  simp only [exec, execDeserializeTree, if_neg (tbsLen_in_range h0 h1), h]

theorem exec_deserializeTree_of_failed {info : Nat} {nodes : Entries}
    (h : parseTree s.treeBit s.tbsLen.toNat s.arena.nodes = .failed info nodes) :
    exec .deserializeTree s = .next (s.refuseStream nodes (BitVec.ofNat 32 info)) := by
  simp only [exec, execDeserializeTree, if_neg (tbsLen_in_range h0 h1), h]
  rfl

end

section
variable {s : State} {σ : Shape}

/-- The length of a word of at most 256 leaves is one that DESERIALIZE_TREE parses. -/
theorem tbsLen_of_word (hn : σ.values.length ≤ 256) (hw : σ.word = (List.range s.tbsLen.toNat).map s.treeBit) :
    σ.word.length = s.tbsLen.toNat ∧ s.tbsLen ≠ 0#32 ∧ s.tbsLen.toNat ≤ 2560 := by
  have hlen : σ.word.length = s.tbsLen.toNat := by rw [hw, List.length_map, List.length_range]
  have hword := word_length σ
  have hcount := σ.nodeCount_le_word
  have hpos := σ.nodeCount_pos
  refine ⟨hlen, fun e => ?_, by omega⟩
  rw [e, BitVec.toNat_zero] at hlen
  omega

theorem exec_deserializeTree_word (hn : σ.values.length ≤ 256)
    (hw : σ.word = (List.range s.tbsLen.toNat).map s.treeBit) :
    ∃ p, (Parse.start s.arena.nodes).Reads σ p ∧
      parseTree s.treeBit s.tbsLen.toNat s.arena.nodes = .consumed p ∧
      exec .deserializeTree s = .next (s.tearDown.holdParsed p).complete := by
  obtain ⟨hlen, h0, h1⟩ := tbsLen_of_word hn hw
  obtain ⟨p, hp, hparse⟩ := parseTree_word s.arena.nodes
    (spells_of_goes_on (rest := []) (by rw [List.append_nil, hw])) hlen hn
  exact ⟨p, hp, hparse, exec_deserializeTree_of_consumed h0 h1 hparse⟩

variable {rest : List Bool} (hne : rest ≠ [])
include hne

theorem exec_deserializeTree_beyond (h1 : s.tbsLen.toNat ≤ 2560)
    (hw : (List.range s.tbsLen.toNat).map s.treeBit = σ.word ++ rest) :
    ∃ nodes, exec .deserializeTree s = .next (s.refuseStream nodes (BitVec.ofNat 32 σ.word.length)) := by
  have hlen := congrArg List.length hw
  rw [List.length_map, List.length_range, List.length_append] at hlen
  have hrest := List.length_pos_iff.mpr hne
  have h0 : s.tbsLen ≠ 0#32 := fun e => by rw [e, BitVec.toNat_zero] at hlen; omega
  obtain ⟨nodes, h⟩ := parseTree_beyond s.arena.nodes (spells_of_goes_on hw) (by omega) h1
  exact ⟨nodes, exec_deserializeTree_of_failed h0 h1 h⟩

theorem exec_deserializeTree_inside (h0 : s.tbsLen ≠ 0#32) (h1 : s.tbsLen.toNat ≤ 2560)
    (hw : (List.range s.tbsLen.toNat).map s.treeBit ++ rest = σ.word) :
    ∃ nodes, exec .deserializeTree s = .next
      (s.refuseStream nodes (BitVec.ofNat 32 (σ.stopAt s.tbsLen.toNat (Parse.start s.arena.nodes)))) := by
  have hlen := congrArg List.length hw
  rw [List.length_append, List.length_map, List.length_range] at hlen
  have hrest := List.length_pos_iff.mpr hne
  have hpos : 0 < s.tbsLen.toNat := Nat.pos_of_ne_zero fun e => h0 (BitVec.eq_of_toNat_eq e)
  obtain ⟨nodes, h⟩ := parseTree_inside σ s.arena.nodes (spells_of_ends_inside hw) hpos (by omega)
  exact ⟨nodes, exec_deserializeTree_of_failed h0 h1 h⟩

end

/-! ## The statements -/

/-- A standing tree of at most 256 leaves is the one below ROOT. -/
theorem Tree.standsIn.arena_tree {a : Arena} {n : Nat} {T : Tree} (hT : T.standsIn a.nodes n) (hn : n ≤ 511)
    (hroot : a.root = BitVec.ofNat 9 T.idx) (hleaves : T.leafCount ≤ 256) : a.tree = some T := by
  rw [Arena.tree, hroot, hT.readTree_eq hn hleaves]
  exact Option.filter_some_pos (decide_eq_true hleaves)

/-- Settles O36: the parse reads the word, and leaves its shape numbered in pre-order. -/
theorem deserializeAcceptsEveryWordOfTheGrammar : Obligations.DeserializeAcceptsEveryWordOfTheGrammar := by
  intro s σ hn hw
  obtain ⟨p, hp, hparse, hexec⟩ := exec_deserializeTree_word hn hw
  have hcount : p.n = σ.nodeCount := hp.count.trans (Nat.zero_add _)
  have hpn : (BitVec.ofNat 10 p.n).toNat = p.n := by
    have := hp.grown.slots
    rw [BitVec.toNat_ofNat]; omega
  have hleaves : (σ.numbered 0).leafCount ≤ 256 := by rwa [← values_length, numbered_shape]
  have htree : (s.holdParsed p).arena.tree = some (σ.numbered 0) :=
    hp.stands.arena_tree hp.grown.slots (by rw [numbered_idx]; rfl) hleaves
  obtain ⟨T, hT⟩ := parsed_holds (tbsLen_of_word hn hw).2.1 hparse
  obtain rfl : T = σ.numbered 0 := Option.some.inj (hT.1.symm.trans htree)
  refine ⟨_, _, hexec, rfl, hT, numbered_shape σ 0, ?_, rfl, fun n hlt => ?_, fun n hle => ?_⟩
  · rw [numbered_indices, complete_arena, holdParsed_arena, hpn, hcount, List.range_eq_range']
  · rw [complete_arena, holdParsed_arena, hpn] at hlt
    exact hp.weight n (Nat.zero_le _) hlt
  · rw [complete_arena, holdParsed_arena, hpn] at hle
    exact hp.above n hle

/-- Settles O37: a stream that is no such word has a length out of range, goes on from a tree or ends inside one. -/
theorem deserializeRejectsEveryOtherStream : Obligations.DeserializeRejectsEveryOtherStream := by
  intro s hno
  suffices h : ∃ nodes info, exec .deserializeTree s = .next (s.refuseStream nodes info) by
    obtain ⟨nodes, info, h⟩ := h
    exact ⟨_, h, rfl, rfl, rfl⟩
  by_cases hlen : s.tbsLen = 0#32 ∨ 2560 < s.tbsLen.toNat
  · exact ⟨_, _, exec_deserializeTree_of_length hlen⟩
  obtain ⟨h0, h1⟩ := not_or.mp hlen
  have h1 := Nat.not_lt.mp h1
  rcases stream_goes_on_or_ends ((List.range s.tbsLen.toNat).map s.treeBit) with ⟨σ, rest, hw⟩ | ⟨σ, rest, hne, hw⟩
  · have hrest : rest ≠ [] := by
      rintro rfl
      rw [List.append_nil] at hw
      have hl := congrArg List.length hw
      have hword := word_length σ
      rw [List.length_map, List.length_range] at hl
      exact hno σ (by omega) hw.symm
    obtain ⟨nodes, h⟩ := exec_deserializeTree_beyond hrest h1 hw
    exact ⟨_, _, h⟩
  · obtain ⟨nodes, h⟩ := exec_deserializeTree_inside hne h0 h1 hw
    exact ⟨_, _, h⟩

/-- Settles O38, case by case of R196. -/
theorem malformedStreamsReportTheirPosition : Obligations.MalformedStreamsReportTheirPosition := by
  refine ⟨fun s h => ?_, fun s σ rest h1 hne hw => ?_, fun s σ rest h0 h1 hne hw => ?_, stream_goes_on_or_ends⟩
  · exact ⟨_, exec_deserializeTree_of_length h, rfl, rfl⟩
  · obtain ⟨nodes, h⟩ := exec_deserializeTree_beyond hne h1 hw
    have hlen := congrArg List.length hw
    rw [List.length_map, List.length_range, List.length_append] at hlen
    refine ⟨_, h, rfl, ?_⟩
    show (BitVec.ofNat 32 σ.word.length).toNat = _
    rw [BitVec.toNat_ofNat]
    omega
  · obtain ⟨nodes, h⟩ := exec_deserializeTree_inside hne h0 h1 hw
    refine ⟨_, h, rfl, fun q hq hlt => ?_, fun hq => ?_⟩
    · show (BitVec.ofNat 32 (σ.stopAt s.tbsLen.toNat (Parse.start s.arena.nodes))).toNat = q
      rw [stopAt_of_lt hq hlt, BitVec.toNat_ofNat]
      omega
    · show BitVec.ofNat 32 (σ.stopAt s.tbsLen.toNat (Parse.start s.arena.nodes)) = s.tbsLen
      rw [stopAt_of_ge hq, BitVec.ofNat_toNat, BitVec.setWidth_eq]

/-- Settles O39: the stream written is the word of the tree's shape, and an accepted stream is the word of the shape of
the tree it leaves. -/
theorem treeBitstreamRoundTrips : Obligations.TreeBitstreamRoundTrips := by
  refine ⟨fun s T hw hv hT => ?_, fun s t hw hexec hv => ?_⟩
  · obtain ⟨htree, -⟩ := hT
    have hlen := encodedTree_tbsLen htree
    have hbits : T.shape.word =
        (List.range (s.encodedTree T).tbsLen.toNat).map (s.encodedTree T).treeBit :=
      List.ext_getElem (by simp [hlen]) fun j hj _ => by
        have := encodedTree_treeBit htree hw hj
        rw [List.getElem?_eq_getElem hj, Option.some.injEq] at this
        simpa using this
    have hleaves : T.shape.values.length ≤ 256 := values_length T ▸ (arena_tree_some htree).2
    obtain ⟨u, U, hdes, hu, hU, hshape, hindices, -, hweight, -⟩ :=
      deserializeAcceptsEveryWordOfTheGrammar _ _ hleaves hbits
    exact ⟨_, u, U, exec_encodeTree htree hv, hdes, by rw [hu]; rfl, hU, hshape, hindices, hweight⟩
  · by_cases hσ : ∃ σ : Shape, σ.values.length ≤ 256 ∧ σ.word = (List.range s.tbsLen.toNat).map s.treeBit
    · obtain ⟨σ, hn, hbits⟩ := hσ
      obtain ⟨t', T, hdes, ht, ⟨htree, -⟩, hshape, -⟩ := deserializeAcceptsEveryWordOfTheGrammar s σ hn hbits
      obtain rfl := Host.Outcome.next.inj (hdes.symm.trans hexec)
      have hmem : t'.mem.wf := exec_mem_wf hw hexec
      have hlen : T.shape.word.length = s.tbsLen.toNat := hshape ▸ (tbsLen_of_word hn hbits).1
      refine ⟨_, exec_encodeTree htree hv, ?_, fun j hj => ?_⟩
      · exact BitVec.eq_of_toNat_eq ((encodedTree_tbsLen htree).trans hlen)
      · have := encodedTree_treeBit htree hmem (hlen ▸ hj)
        rw [hshape, hbits, List.getElem?_map, List.getElem?_range hj, Option.map_some, Option.some.injEq] at this
        exact this.symm
    · obtain ⟨t', hdes, -, -, ht⟩ := deserializeRejectsEveryOtherStream s fun σ hn hw' => hσ ⟨σ, hn, hw'⟩
      obtain rfl := Host.Outcome.next.inj (hdes.symm.trans hexec)
      rw [ht] at hv
      cases hv

end Sys2Proof.Machine
end

section
/-! PROOFS. The code index (43_message_codec.md R210 to R212): the codes are the root-to-leaf paths of the tree's shape,
none begins another (O42), and BUILD_INDEX enters them leaf by leaf up to a repeated value (O40, O41). -/

namespace Sys2Proof.Machine

/-! ## The codes of a tree -/

/-- The code of a leaf that the steps `p` reach: the steps, or `0` where the leaf is the root (R211). -/
def codePath (p : List Bool) : List Bool := if p = [] then [false] else p

theorem codePath_of_ne {p : List Bool} (h : p ≠ []) : codePath p = p := if_neg h

theorem codePath_length_le {p : List Bool} (h : p.length ≤ 255) : (codePath p).length ≤ 255 := by
  unfold codePath
  split
  · decide
  · exact h

theorem ne_nil_of_mem_paths_node {l r : Shape} {p : List Bool × Byte} (hp : p ∈ (Shape.node l r).paths) : p.1 ≠ [] := by
  rcases List.mem_append.mp hp with hp | hp <;> obtain ⟨q, -, rfl⟩ := List.mem_map.mp hp <;> exact List.cons_ne_nil _ _

theorem codes_paths (T : Tree) :
    T.codes.map (fun x => (x.path, x.value)) = T.shape.paths.map fun p => (codePath p.1, p.2) := by
  cases T with
  | leaf i v => rfl
  | node i l r =>
    refine (codedLeaves_paths (.node i l r) []).trans (List.map_congr_left fun p hp => ?_)
    rw [codePath_of_ne (ne_nil_of_mem_paths_node hp), List.nil_append]

theorem paths_values (σ : Shape) : σ.paths.map (·.2) = σ.values := by
  induction σ with
  | leaf v => rfl
  | node l r ihl ihr => simp [Shape.paths, Shape.values, Function.comp_def, ← ihl, ← ihr]

/-- There is one code for each leaf, in pre-order. -/
theorem codes_values (T : Tree) : T.codes.map (·.value) = T.shape.values := by
  have h := congrArg (List.map Prod.snd) (codes_paths T)
  rw [List.map_map, List.map_map] at h
  exact h.trans (paths_values T.shape)

theorem exists_code_of_path {T : Tree} {p : List Bool × Byte} (hp : p ∈ T.shape.paths) :
    ∃ x ∈ T.codes, x.path = codePath p.1 ∧ x.value = p.2 := by
  have h : (codePath p.1, p.2) ∈ T.codes.map fun x => (x.path, x.value) :=
    codes_paths T ▸ List.mem_map_of_mem (f := fun p => (codePath p.1, p.2)) hp
  obtain ⟨x, hx, e⟩ := List.mem_map.mp h
  exact ⟨x, hx, Prod.mk.inj e⟩

/-- The walk that reads a tree goes deeper than every path. -/
theorem path_length_lt_fuel {nodes : Entries} {fuel : Nat} {i : NodeIndex} {T : Tree}
    (h : readTree nodes fuel i = some T) : ∀ p ∈ T.shape.paths, p.1.length < fuel := by
  induction T generalizing fuel i with
  | leaf j v =>
    obtain ⟨f, rfl, -⟩ := readTree_some h
    simp [Tree.shape, Shape.paths]
  | node j l r ihl ihr =>
    obtain ⟨f, rfl, -, -, ⟨-, e⟩ | ⟨l, r, -, e, hl, hr⟩⟩ := readTree_some h <;> cases e
    intro p hp
    rcases List.mem_append.mp hp with hp | hp <;> obtain ⟨q, hq, rfl⟩ := List.mem_map.mp hp
    · exact Nat.succ_lt_succ (ihl hl q hq)
    · exact Nat.succ_lt_succ (ihr hr q hq)

/-- No code of a tree the block holds is longer than CODE_MAX_LEN (00_scope.md R14). -/
theorem code_length_le {a : Arena} {T : Tree} (hT : a.tree = some T) {x : CodedLeaf} (hx : x ∈ T.codes) :
    x.path.length ≤ 255 := by
  have h : (x.path, x.value) ∈ T.shape.paths.map fun p => (codePath p.1, p.2) :=
    codes_paths T ▸ List.mem_map_of_mem (f := fun x : CodedLeaf => (x.path, x.value)) hx
  obtain ⟨p, hp, e⟩ := List.mem_map.mp h
  rw [← (Prod.mk.inj e).1]
  exact codePath_length_le (Nat.lt_succ_iff.mp (path_length_lt_fuel (arena_tree_some hT).1 p hp))

/-! ## No code begins another (R218) -/

/-- Neither leaf's code begins the other's. -/
def CodedLeaf.Apart (x y : CodedLeaf) : Prop := ¬x.path <+: y.path ∧ ¬y.path <+: x.path

/-- Of two lists of steps that part after `path` neither begins the other. -/
theorem not_prefix_of_parted {path p q : List Bool} {b : Bool} (hp : path ++ [b] <+: p) (hq : path ++ [!b] <+: q) :
    ¬p <+: q := fun h => by
  have e := (List.prefix_of_prefix_length_le (hp.trans h) hq (by simp)).eq_of_length (by simp)
  simp at e

/-- Leaves on the two sides of a node part there. -/
theorem codedLeaves_apart (T : Tree) (path : List Bool) : (T.codedLeaves path).Pairwise CodedLeaf.Apart := by
  induction T generalizing path with
  | leaf i v => exact List.pairwise_singleton _ _
  | node i l r ihl ihr =>
    refine List.pairwise_append.mpr ⟨ihl _, ihr _, fun x hx y hy => ?_⟩
    have hx := codedLeaves_prefix l _ x hx
    have hy := codedLeaves_prefix r _ y hy
    exact ⟨not_prefix_of_parted hx hy, not_prefix_of_parted hy hx⟩

theorem codes_apart (T : Tree) : T.codes.Pairwise CodedLeaf.Apart := by
  cases T with
  | leaf i v => exact List.pairwise_singleton _ _
  | node i l r => exact codedLeaves_apart _ []

/-- Settles O42: two leaves' paths part at the node where the leaves do. -/
theorem codesArePrefixFree : Obligations.CodesArePrefixFree := by
  intro T i j x y hi hj hne
  obtain ⟨li, rfl⟩ := List.getElem?_eq_some_iff.mp hi
  obtain ⟨lj, rfl⟩ := List.getElem?_eq_some_iff.mp hj
  have apart := List.pairwise_iff_getElem.mp (codes_apart T)
  rcases Nat.lt_or_gt_of_ne hne with h | h
  · exact (apart i j li lj h).1
  · exact (apart j i lj li h).2

/-! ## The code table -/

/-- The code table with the codes of some leaves entered, in order. -/
def enterCodes (xs : List CodedLeaf) (t : Vector CodeEntry Config.symbols) : Vector CodeEntry Config.symbols :=
  xs.foldl (fun t x => tableSet t x.value.toNat (codeEntry x.path)) t

theorem tableGet_enterCode (t : Vector CodeEntry Config.symbols) (v w : Byte) (c : CodeEntry) :
    tableGet (tableSet t v.toNat c) w.toNat = if v = w then c else tableGet t w.toNat := by
  simp [tableGet_tableSet, BitVec.toNat_inj, v.isLt]

theorem tableGet_enterCodes_other {xs : List CodedLeaf} {v : Byte} (h : v ∉ xs.map (·.value))
    (t : Vector CodeEntry Config.symbols) : tableGet (enterCodes xs t) v.toNat = tableGet t v.toNat := by
  induction xs generalizing t with
  | nil => rfl
  | cons x xs ih =>
    obtain ⟨hx, hxs⟩ := not_or.mp (mt List.mem_cons.mpr h)
    exact (ih hxs _).trans (by rw [tableGet_enterCode, if_neg (Ne.symm hx)])

/-- Of leaves with distinct values each has its path as its code. -/
theorem tableGet_enterCodes {xs : List CodedLeaf} (hd : (xs.map (·.value)).Nodup) {x : CodedLeaf} (hx : x ∈ xs)
    (t : Vector CodeEntry Config.symbols) : tableGet (enterCodes xs t) x.value.toNat = codeEntry x.path := by
  induction xs generalizing t with
  | nil => cases hx
  | cons y ys ih =>
    obtain ⟨hy, hys⟩ := List.nodup_cons.mp hd
    rcases List.mem_cons.mp hx with rfl | hx
    · exact (tableGet_enterCodes_other hy _).trans (by rw [tableGet_enterCode, if_pos rfl])
    · exact ih hys hx _

theorem tableGet_emptyIndex (v : Byte) : tableGet emptyIndex v.toNat = .absent := tableGet_replicate _ v.isLt

/-- Leaves with distinct values, none of which has a code yet, are entered one after the other. -/
theorem fillIndex_append {xs : List CodedLeaf} (hd : (xs.map (·.value)).Nodup) (ys : List CodedLeaf)
    {t : Vector CodeEntry Config.symbols} (ht : ∀ x ∈ xs, (tableGet t x.value.toNat).valid = false) :
    fillIndex (xs ++ ys) t = fillIndex ys (enterCodes xs t) := by
  induction xs generalizing t with
  | nil => rfl
  | cons x xs ih =>
    obtain ⟨hx, hxs⟩ := List.nodup_cons.mp hd
    obtain ⟨htx, ht⟩ := List.forall_mem_cons.mp ht
    have hfill : fillIndex (x :: xs ++ ys) t =
        fillIndex (xs ++ ys) (tableSet t x.value.toNat (codeEntry x.path)) := by
      rw [List.cons_append, fillIndex, htx]
      rfl
    refine hfill.trans (ih hxs fun y hy => ?_)
    have hne : x.value ≠ y.value := fun e => hx (List.mem_map.mpr ⟨y, hy, e.symm⟩)
    rw [tableGet_enterCode, if_neg hne]
    exact ht y hy

theorem index_of_codes {T : Tree} {xs ys : List CodedLeaf} (h : T.codes = xs ++ ys) (hd : (xs.map (·.value)).Nodup) :
    T.index = fillIndex ys (enterCodes xs emptyIndex) := by
  rw [Tree.index, h]
  exact fillIndex_append hd ys fun x _ => by rw [tableGet_emptyIndex]; rfl

/-- The index of a tree with distinct leaf values has every leaf's code. -/
theorem index_of_nodup {T : Tree} (hd : T.shape.values.Nodup) : T.index = (enterCodes T.codes emptyIndex, none) :=
  index_of_codes (List.append_nil _).symm (by rwa [codes_values])

/-- The index stops at the first leaf whose value has a code already. -/
theorem index_of_repeated {T : Tree} {pre post : List CodedLeaf} {x : CodedLeaf} (h : T.codes = pre ++ x :: post)
    (hd : (pre.map (·.value)).Nodup) (hx : x.value ∈ pre.map (·.value)) :
    T.index = (enterCodes pre emptyIndex, some x.idx) := by
  obtain ⟨y, hy, e⟩ := List.mem_map.mp hx
  have hvalid : (tableGet (enterCodes pre emptyIndex) x.value.toNat).valid = true := by
    rw [← e, tableGet_enterCodes hd hy]
    rfl
  rw [index_of_codes h hd, fillIndex, if_pos hvalid]

/-! ## BUILD_INDEX (R212) -/

/-- What BUILD_INDEX leaves of a tree with distinct leaf values. -/
def State.indexed (T : Tree) (s : State) : State := (s.holdIndex (enterCodes T.codes emptyIndex) true).complete

theorem exec_buildIndex_of_nodup {s : State} {T : Tree} (hv : s.status.treeValid = true) (hT : s.arena.tree = some T)
    (hd : T.shape.values.Nodup) : exec .buildIndex s = .next (s.indexed T) := by
  simp only [exec, execBuildIndex, if_pos hv, hT, index_of_nodup hd, State.indexed]

theorem exec_buildIndex_of_repeated {s : State} {T : Tree} {pre post : List CodedLeaf} {x : CodedLeaf}
    (hv : s.status.treeValid = true) (hT : s.arena.tree = some T) (h : T.codes = pre ++ x :: post)
    (hd : (pre.map (·.value)).Nodup) (hx : x.value ∈ pre.map (·.value)) :
    exec .buildIndex s = .next
      ((s.holdIndex (enterCodes pre emptyIndex) false).raise .invalidTreeFormat (BitVec.ofNat 32 x.idx)) := by
  simp only [exec, execBuildIndex, if_pos hv, hT, index_of_repeated h hd hx]

theorem indexed_code {T : Tree} (hd : T.shape.values.Nodup) {x : CodedLeaf} (hx : x ∈ T.codes) (s : State) :
    tableGet (s.indexed T).code x.value.toNat = codeEntry x.path :=
  tableGet_enterCodes (by rwa [codes_values]) hx _

theorem indexed_code_absent {T : Tree} {v : Byte} (h : v ∉ T.shape.values) (s : State) :
    tableGet (s.indexed T).code v.toNat = .absent :=
  (tableGet_enterCodes_other (by rwa [codes_values]) _).trans (tableGet_emptyIndex v)

theorem codeEntry_len {p : List Bool} (h : p.length ≤ 255) : (codeEntry p).len.toNat = p.length :=
  Nat.mod_eq_of_lt (Nat.lt_succ_of_le h)

/-- Settles O40: the leaves of distinct values are entered one by one, each under a value of its own. -/
theorem indexHoldsThePathOfEveryLeaf : Obligations.IndexHoldsThePathOfEveryLeaf := by
  intro s T hv hT hd
  refine ⟨_, exec_buildIndex_of_nodup hv hT hd, rfl, fun p hp => ?_, fun v h => indexed_code_absent h s⟩
  obtain ⟨x, hx, hpath, hvalue⟩ := exists_code_of_path hp
  have hlen := code_length_le hT hx
  intro c path
  have hpath : path = x.path := hpath.symm
  have hc : c = codeEntry x.path := by rw [← indexed_code hd hx s, hvalue]
  rw [hc, hpath]
  exact ⟨rfl, codeEntry_len hlen, codeBits_getLsbD _ hlen⟩

/-- Settles O41: the leaves before the repeated one are entered, and it finds its value's entry valid. -/
theorem repeatedLeafValueHasNoIndex : Obligations.RepeatedLeafValueHasNoIndex := by
  intro s T pre post x hv hT h hd hx
  exact ⟨_, exec_buildIndex_of_repeated hv hT h hd hx, rfl⟩

end Sys2Proof.Machine
end

section
/-! PROOFS. The message codec (43_message_codec.md): what ENCODE writes (O43), what DECODE makes of whole codes (O46),
and that a message built, indexed and encoded decodes to itself (O48). -/

namespace Sys2Proof.Machine

/-! ## ENCODE (R213, R214) -/

theorem firstUncoded_eq_none {code : Vector CodeEntry Config.symbols} {m : List Byte}
    (h : ∀ b ∈ m, (tableGet code b.toNat).valid = true) (k : Nat) : firstUncoded code k m = none := by
  induction m generalizing k with
  | nil => rfl
  | cons b bs ih =>
    obtain ⟨hb, hbs⟩ := List.forall_mem_cons.mp h
    rw [firstUncoded, if_pos hb]
    exact ih hbs (k + 1)

/-- What an ENCODE without error leaves: the codes of the message in MBS and their length. -/
def State.encoded (s : State) : State :=
  ({ s with
    mem := s.mem.writeBits Config.mbsBase 0 (encodeBytes s.code s.message)
    mbsLen := BitVec.ofNat 32 (encodedLength s.code s.message) } : State).complete

section
variable {s : State} (hfits : encodedLength s.code s.message ≤ Config.mbsBits)
include hfits

theorem exec_encode (hv : s.status.indexValid = true) (hlen : s.msgLen.toNat ≤ Config.msgMax)
    (hcodes : ∀ b ∈ s.message, (tableGet s.code b.toNat).valid = true) : exec .encode s = .next s.encoded := by
  simp only [exec, execEncode, hv, Bool.not_true, Bool.false_eq_true, if_false, if_neg (Nat.not_lt.mpr hlen),
    firstUncoded_eq_none hcodes, if_neg (Nat.not_lt.mpr hfits), State.encoded]

theorem inBuffer_encodeBytes :
    ∀ k, k < (encodeBytes s.code s.message).length → InBuffer (Config.mbsBase + (0 + k) / 8) :=
  fun k hk => inBuffer_mbs (by rw [encodeBytes_length] at hk; omega)

theorem encoded_readBit (hw : s.mem.wf) (n j : Nat) : s.encoded.mem.readBit n Config.mbsBase j =
    (encodeBytes s.code s.message)[j]?.getD (s.mem.readBit n Config.mbsBase j) :=
  readBit_writeBits hw n _ _ (inBuffer_encodeBytes hfits) j

theorem encoded_readByte_outside (hw : s.mem.wf) (n : Nat) {a : Nat}
    (ha : a < Config.mbsBase ∨ Config.mbsBase + (encodedLength s.code s.message + 7) / 8 ≤ a) :
    s.encoded.mem.readByte n a = s.mem.readByte n a :=
  readByte_writeBits_outside hw n _ _ (inBuffer_encodeBytes hfits) fun k hk => by
    rw [encodeBytes_length] at hk
    omega

theorem encoded_mbsLen : s.encoded.mbsLen.toNat = encodedLength s.code s.message := by
  rw [Config.mbsBits] at hfits
  exact Nat.mod_eq_of_lt (by omega)

/-- A DECODE after the ENCODE reads the codes written. -/
theorem encoded_messageBits (hw : s.mem.wf) : s.encoded.messageBits = encodeBytes s.code s.message := by
  refine List.ext_getElem ?_ fun j _ hj => ?_
  · rw [messageBits_length, encoded_mbsLen hfits, encodeBytes_length]
  · simp only [State.messageBits, List.getElem_map, List.getElem_range, encoded_readBit hfits hw,
      List.getElem?_eq_getElem hj, Option.getD_some]

end

/-- Settles O43: the codes are written bit by bit from stream bit 0. -/
theorem encodeWritesTheConcatenatedCodes : Obligations.EncodeWritesTheConcatenatedCodes := by
  intro s hw hv hlen hcodes total bits hfits
  exact ⟨_, exec_encode hfits hv hlen hcodes, rfl, encoded_readBit hfits hw,
    fun n a ha => encoded_readByte_outside hfits hw n ha⟩

/-! ## DECODE (R215) -/

/-- Whole codes are decoded to their leaves' values, without error. -/
theorem decodeFrom_whole_codes {T : Tree} {ps : List CodedLeaf} (hps : ∀ p ∈ ps, p ∈ T.codes)
    (hn : ps.length ≤ Config.outMax) : decodeFrom T T 0 0 (ps.flatMap (·.path)) = ⟨ps.map (·.value), none⟩ := by
  have hrun := decodeFrom_codes hps 0 (k := 0) [] (by omega)
  rw [List.append_nil, decodeFrom, if_pos rfl] at hrun
  rw [hrun, Decoded.after, List.append_nil]

/-- What a DECODE of whole codes leaves: their values in OUT and their number. -/
def State.decoded (ps : List CodedLeaf) (s : State) : State :=
  (s.emit (ps.map (·.value)) (BitVec.ofNat 32 ps.length)).complete

section
variable {s : State} {T : Tree} {ps : List CodedLeaf} (hv : s.status.treeValid = true)
  (hlen : s.mbsLen.toNat ≤ Config.mbsBits) (hT : s.arena.tree = some T) (hps : ∀ p ∈ ps, p ∈ T.codes)
  (hn : ps.length ≤ Config.outMax) (hbits : s.messageBits = ps.flatMap (·.path))
include hv hlen hT hps hn hbits

theorem exec_decode : exec .decode s = .next (s.decoded ps) := by
  simp only [exec, execDecode, hv, Bool.not_true, Bool.false_eq_true, if_false, if_neg (Nat.not_lt.mpr hlen), hT,
    hbits, decodeFrom_whole_codes hps hn, List.length_map, State.decoded]

theorem emitted_of_whole_codes : s.emitted = ps.map (·.value) := by
  rw [emitted_of_tree hv hlen hT, hbits, decodeFrom_whole_codes hps hn]

end

/-- Settles O46: the values of whole codes are what DECODE emits. -/
theorem decodeWritesTheBytesOfTheCodes : Obligations.DecodeWritesTheBytesOfTheCodes := by
  intro s T ps hw hv hlen hT hps hn hbits
  have hexec := exec_decode hv hlen hT hps hn hbits
  have hout := emitted_of_whole_codes hv hlen hT hps hn hbits
  have hcount : s.emitted.length = ps.length := by rw [hout, List.length_map]
  refine ⟨_, hexec, rfl, fun n k hk => ?_, fun n a ha => ?_⟩
  · rw [← List.getElem?_map, ← hout]
    exact execDecode_readByte_emitted hw hexec n (hcount ▸ hk)
  · exact execDecode_readByte_outside hw hexec n (hcount ▸ ha)

end Sys2Proof.Machine
end

section
/-! PROOFS. The round trip of a message (43_message_codec.md R219; O48): the leaves of the tree BUILD_TREE makes have
the values of the message, each once, so every byte has a code, and the codes ENCODE writes decode to the bytes. -/

namespace Sys2Proof.Machine

/-! ## The leaf values of the built tree -/

/-- A tree read from the arena has the values of its entries that are leaves. -/
theorem values_of_readTree {nodes : Entries} {fuel : Nat} {i : NodeIndex} {T : Tree}
    (h : readTree nodes fuel i = some T) : T.shape.values =
      (T.indices.filter fun j => (tableGet nodes j).kind == .leaf).map fun j => (tableGet nodes j).value := by
  induction T generalizing fuel i with
  | leaf j v =>
    obtain ⟨f, -, -, -, ⟨hk, e⟩ | ⟨l, r, -, e, -⟩⟩ := readTree_some h <;> cases e
    simp [Tree.shape, Shape.values, Tree.indices, hk]
  | node j l r ihl ihr =>
    obtain ⟨f, -, -, -, ⟨-, e⟩ | ⟨l, r, hk, e, hl, hr⟩⟩ := readTree_some h <;> cases e
    simp [Tree.shape, Shape.values, Tree.indices, hk, ihl hl, ihr hr]

theorem range_filter_lt {m n : Nat} (h : m ≤ n) : (List.range n).filter (· < m) = List.range m := by
  rw [← List.Ico.zero_bot, List.Ico.filter_lt, min_eq_right h, List.Ico.zero_bot]

/-- Where the first `u` entries are the leaves, a held tree has their values, each once. -/
theorem Arena.holds.values_perm {a : Arena} {T : Tree} {u : Nat} (h : a.holds T) (hu : u ≤ a.count.toNat)
    (hkind : ∀ n, n < a.count.toNat → ((tableGet a.nodes n).kind = .leaf ↔ n < u)) :
    T.shape.values.Perm ((List.range u).map fun j => (tableGet a.nodes j).value) := by
  obtain ⟨hT, hperm, -⟩ := h
  have hleaves : (List.range a.count.toNat).filter (fun j => (tableGet a.nodes j).kind == .leaf) = List.range u := by
    rw [← range_filter_lt hu]
    refine List.filter_congr fun j hj => ?_
    rw [Bool.eq_iff_iff, beq_iff_eq, decide_eq_true_iff]
    exact hkind j (List.mem_range.mp hj)
  rw [values_of_readTree (arena_tree_some hT).1, ← hleaves]
  exact (hperm.filter _).map _

/-- The tree BUILD_TREE makes has the values of the message, each once (41_tree_builder.md R172). -/
theorem exists_builtTree_values {s : State} (h0 : s.msgLen ≠ 0#32) (h1 : s.msgLen.toNat ≤ 65536) :
    ∃ T, s.builtTree.arena.tree = some T ∧ T.shape.values.Nodup ∧ ∀ b ∈ s.message, b ∈ T.shape.values := by
  have hexec := exec_buildTree h0 h1
  obtain ⟨T, hT, -, hcount, -, -, hkind⟩ := builtTreeMeetsTheTreeInvariant s _ h0 h1 hexec
  obtain ⟨hascending, -⟩ := leavesAreNumberedByAscendingValue s _ h0 h1 hexec
  have hnumbers := (hT.values_perm (by omega) hkind).map BitVec.toNat
  rw [List.map_map] at hnumbers
  have hpresent := hnumbers.trans (.of_eq hascending)
  refine ⟨T, hT.1, .of_map _ (hpresent.nodup_iff.mpr (List.nodup_range.filter _)), fun b hb => ?_⟩
  have hmem : b.toNat ∈ T.shape.values.map BitVec.toNat :=
    hpresent.mem_iff.mpr (List.mem_filter.mpr ⟨List.mem_range.mpr b.isLt, by simpa using hb⟩)
  exact (List.mem_map_of_injective BitVec.toNat_injective).mp hmem

/-! ## Codes and messages -/

/-- A code entry gives back its path (10_state.md R59). -/
theorem codeEntry_code {p : List Bool} (h : p.length ≤ 255) : (codeEntry p).code = p := by
  refine List.ext_getElem (by simp [CodeEntry.code, codeEntry_len h]) fun j _ hj => ?_
  simp only [CodeEntry.code, List.getElem_map, List.getElem_range]
  rw [codeEntry, codeBits_getLsbD p h, List.getElem?_eq_getElem hj, Option.getD_some]

/-- Bytes that are values of a tree's leaves are the values of a list of its codes. -/
theorem exists_codes_of_values {T : Tree} {m : List Byte} (h : ∀ b ∈ m, b ∈ T.shape.values) :
    ∃ ps : List CodedLeaf, (∀ p ∈ ps, p ∈ T.codes) ∧ ps.map (·.value) = m := by
  have hm : m ∈ Set.range (List.map fun x : { x // x ∈ T.codes } => x.1.value) := by
    rw [Set.range_list_map]
    intro b hb
    obtain ⟨x, hx, rfl⟩ := List.mem_map.mp (codes_values T ▸ h b hb)
    exact ⟨⟨x, hx⟩, rfl⟩
  obtain ⟨qs, rfl⟩ := hm
  refine ⟨qs.map (·.1), fun p hp => ?_, List.map_map⟩
  obtain ⟨q, -, rfl⟩ := List.mem_map.mp hp
  exact q.2

/-- Under the codes of a tree, the values of leaves are encoded by their paths. -/
theorem encodeBytes_of_codes {code : Vector CodeEntry Config.symbols} {ps : List CodedLeaf}
    (hcode : ∀ p ∈ ps, tableGet code p.value.toNat = codeEntry p.path) (hlen : ∀ p ∈ ps, p.path.length ≤ 255) :
    encodeBytes code (ps.map (·.value)) = ps.flatMap (·.path) := by
  rw [encodeBytes, List.flatMap_map]
  exact List.flatMap_congr fun p hp => by rw [hcode p hp, codeEntry_code (hlen p hp)]

/-! ## ENCODE after BUILD_INDEX -/

/-- ENCODE walks no tree, so it always completes. -/
theorem exec_encode_completes (s : State) : ∃ t, exec .encode s = .next t := by
  by_contra h
  rcases (exec_stops (not_exists.mp h)).1 with e | e | e <;> cases e

theorem exec_encode_of_ok {s t : State} (h : exec .encode s = .next t) (hok : t.status.err = false) :
    encodedLength s.code s.message ≤ Config.mbsBits ∧ t = s.encoded := by
  rcases execEncode_cases h with ⟨-, rfl⟩ | ⟨-, -, rfl⟩ | ⟨-, -, ⟨k, -, rfl⟩ | ⟨-, ⟨-, rfl⟩ | ⟨hfits, rfl⟩⟩⟩
  case inr.inr.inr.inr => exact ⟨hfits, rfl⟩
  all_goals cases hok

/-- A byte that is written reads the same under every draw (20_memory.md R89). -/
theorem readByte_of_written {m : Memory} {a : Nat} (h : m.byteWritten a) (n n' : Nat) :
    m.readByte n a = m.readByte n' a := by
  rw [Memory.byteWritten] at h
  simp only [Memory.readByte, if_pos h]

/-- A message that is written is the same for every later command. -/
theorem message_of_written {s t : State} (hmem : t.mem = s.mem) (hlen : t.msgLen = s.msgLen)
    (hw : ∀ k, k < s.msgLen.toNat → s.mem.byteWritten (Config.msgBase + k)) : t.message = s.message := by
  rw [State.message, State.message, hmem, hlen]
  exact List.map_congr_left fun k hk => readByte_of_written (hw k (List.mem_range.mp hk)) _ _

/-- In a state with the index of its tree, ENCODE of values of leaves writes the leaves' codes. -/
theorem encoded_messageBits_of_codes {s : State} {T : Tree} {ps : List CodedLeaf} (hw : s.mem.wf)
    (hT : s.arena.tree = some T) (hcode : ∀ x ∈ T.codes, tableGet s.code x.value.toNat = codeEntry x.path)
    (hps : ∀ p ∈ ps, p ∈ T.codes) (hm : s.message = ps.map (·.value))
    (hfits : encodedLength s.code s.message ≤ Config.mbsBits) :
    s.encoded.messageBits = ps.flatMap (·.path) := by
  rw [encoded_messageBits hfits hw, hm]
  exact encodeBytes_of_codes (fun p hp => hcode p (hps p hp)) fun p hp => code_length_le hT (hps p hp)

/-- Settles O48: the bytes of the message are values of leaves, ENCODE writes the paths of those leaves, and DECODE
walks them back to the values. -/
theorem messageRoundTrips : Obligations.MessageRoundTrips := by
  intro s hw herr h0 h1 hwritten
  obtain ⟨T, hT, hd, hvalues⟩ := exists_builtTree_values h0 h1
  obtain ⟨ps, hps, hpsm⟩ := exists_codes_of_values hvalues
  have hn : ps.length = s.msgLen.toNat := by rw [← message_length s, ← hpsm, List.length_map]
  have hindex := exec_buildIndex_of_nodup (s := s.builtTree.complete) rfl hT hd
  have hcode := fun p hp => indexed_code hd (x := p) hp s.builtTree.complete
  have hmsg : (s.builtTree.complete.indexed T).message = ps.map (·.value) :=
    hpsm ▸ message_of_written rfl rfl hwritten
  have hmem : (s.builtTree.complete.indexed T).mem.wf := hw
  obtain ⟨v, hencode⟩ := exec_encode_completes (s.builtTree.complete.indexed T)
  refine ⟨_, _, v, exec_buildTree h0 h1, hindex, hencode, herr, fun hok => ?_⟩
  obtain ⟨hfits, rfl⟩ := exec_encode_of_ok hencode hok
  obtain ⟨x, hdecode, hx, hbytes, -⟩ := decodeWritesTheBytesOfTheCodes _ T ps (exec_mem_wf hmem hencode) rfl
    ((encoded_mbsLen hfits).trans_le hfits) hT hps (by omega)
    (encoded_messageBits_of_codes hmem hT hcode hps hmsg hfits)
  refine ⟨x, hdecode, by rw [hx]; exact hok, ?_, fun n k hk => ?_⟩
  · rw [hx, complete_outLen, hn, BitVec.ofNat_toNat, BitVec.setWidth_eq]
  · have hbyte := hbytes n k (hn ▸ hk)
    rw [← List.getElem?_map, hpsm, message_getElem? s hk] at hbyte
    rw [Option.some.inj hbyte]
    exact readByte_of_written (hwritten k hk) _ _

end Sys2Proof.Machine
end

section
/-! PROOFS. TEARDOWN (44_lifecycle.md R240; O49), and the table of the writes of TREE_VALID, INDEX_VALID and the tree
registers (R241; O50). -/

namespace Sys2Proof.Machine

/-! ## The columns of R241 -/

/-- TREE_VALID and the tree registers are unchanged. -/
def State.TreeKept (s t : State) : Prop :=
  t.status.treeValid = s.status.treeValid ∧ t.arena.root = s.arena.root ∧ t.arena.count = s.arena.count ∧
    t.arena.unique = s.arena.unique

/-- TREE_VALID, INDEX_VALID and the tree registers are unchanged. -/
def State.ValidityKept (s t : State) : Prop := s.TreeKept t ∧ t.status.indexValid = s.status.indexValid

/-- There is no tree and no index, and the tree registers say so. -/
def State.TreeDropped (t : State) : Prop :=
  t.status.treeValid = false ∧ t.status.indexValid = false ∧ t.arena.root = 0x1FF#9 ∧ t.arena.count = 0#10 ∧
    t.arena.unique = 0#9

theorem treeKept_of_arena {s t : State} (ha : t.arena = s.arena) (hv : t.status.treeValid = s.status.treeValid) :
    s.TreeKept t := by
  rw [State.TreeKept, ha]
  exact ⟨hv, rfl, rfl, rfl⟩

theorem treeDropped_tearDown_complete (s : State) : s.tearDown.complete.TreeDropped := ⟨rfl, rfl, rfl, rfl, rfl⟩

theorem validityKept_of_arena {s t : State} (ha : t.arena = s.arena) (hv : t.status.treeValid = s.status.treeValid)
    (hi : t.status.indexValid = s.status.indexValid) : s.ValidityKept t :=
  ⟨treeKept_of_arena ha hv, hi⟩

theorem raise_validityKept (s : State) (e : ErrCode) (info : Word) : s.ValidityKept (s.raise e info) :=
  validityKept_of_arena rfl rfl rfl

/-! ## Host events -/

theorem validityKept_of_sameStorage {s t : State} (h : s.SameStorage t) : s.ValidityKept t :=
  validityKept_of_arena h.arena h.treeValid h.indexValid

/-- No host write touches the storage: a CMD write issues, and the windows and read-only registers ignore writes. -/
theorem hostWrite_sameStorage {s t : State} {off : Nat} {v : Word} (h : s.hostWrite off v = .next t) :
    s.SameStorage t := by
  rcases hostWrite_cases h with ⟨-, rfl⟩ | ⟨-, -, rfl⟩ | ⟨-, -, -, rfl⟩
  · rcases writeIdle_cases off v s with ⟨-, e⟩ | ⟨-, e⟩ | ⟨-, -, e⟩ | ⟨-, e⟩ | ⟨-, e⟩ | ⟨-, e⟩ | ⟨-, e⟩ | e <;>
      rw [e] <;> exact ⟨rfl, rfl, rfl, rfl, rfl⟩
  all_goals exact ⟨rfl, rfl, rfl, rfl, rfl⟩

/-- No event but reset touches the storage. -/
theorem performEvent_sameStorage {e : HostEvent} {s t : State} (hne : e ≠ .reset) (h : performEvent e s = .next t) :
    s.SameStorage t := by
  rcases performEvent_cases h with ⟨_, _, _, -, -, rfl⟩ | ⟨_, _, _, _, -, -, hw⟩ | ⟨-, -, rfl⟩ | ⟨-, -, rfl⟩ |
    ⟨_, -, -, rfl⟩ | ⟨_, -, -, rfl⟩ | ⟨hr, -⟩
  case inr.inl => exact hostWrite_sameStorage hw
  case inr.inr.inr.inr.inr.inr => exact absurd hr hne
  all_goals exact ⟨rfl, rfl, rfl, rfl, rfl⟩

theorem hostStep_sameStorage {s t : State} (hq : s.hostQueue.head? ≠ some .reset) (h : hostStep s = .next t) :
    s.SameStorage t := by
  rcases hostStep_cases h with ⟨-, rfl⟩ | ⟨e, rest, hqueue, he⟩
  · exact ⟨rfl, rfl, rfl, rfl, rfl⟩
  · have hne : e ≠ .reset := by rintro rfl; simp [hqueue] at hq
    obtain ⟨heap, arena, code, treeValid, indexValid⟩ := performEvent_sameStorage hne he
    exact ⟨heap, arena, code, treeValid, indexValid⟩

theorem hostStep_reset {s t : State} (hq : s.hostQueue.head? = some .reset) (h : hostStep s = .next t) :
    t.TreeDropped := by
  obtain ⟨rest, hqueue⟩ := List.head?_eq_some_iff.mp hq
  rw [hostStep, hqueue] at h
  cases h
  exact ⟨rfl, rfl, rfl, rfl, rfl⟩

/-! ## An illegal word -/

theorem step_illegal_validityKept {s t : State} {w : Word} (hs : s.completing w) (hw : ∀ i, decode w ≠ .ok i)
    (h : step s = .next t) : s.ValidityKept t := by
  obtain ⟨-, -, -, reports⟩ := step_eq s
  cases hd : decode w with
  | ok i => exact absurd hd (hw i)
  | error e =>
    rw [reports w e hs hd] at h
    cases h
    exact raise_validityKept s _ _

/-! ## Commands -/

theorem exec_buildTree_validity {s t : State} (herr : s.status.err = false) (h : exec .buildTree s = .next t) :
    (t.status.err = false → t.status.treeValid = true ∧ t.status.indexValid = false) ∧
    (t.status.err = true → s.ValidityKept t) := by
  rcases execBuildTree_cases h with ⟨-, rfl⟩ | ⟨-, -, rfl⟩ | ⟨-, -, rfl⟩
  · exact ⟨nofun, fun _ => raise_validityKept s _ _⟩
  · exact ⟨nofun, fun _ => raise_validityKept s _ _⟩
  · exact ⟨fun _ => ⟨rfl, rfl⟩, fun he => by simp [herr] at he⟩

theorem exec_deserializeTree_validity {s t : State} (herr : s.status.err = false)
    (h : exec .deserializeTree s = .next t) :
    (t.status.err = false → t.status.treeValid = true ∧ t.status.indexValid = false) ∧
    (t.status.err = true → t.TreeDropped) := by
  rcases execDeserializeTree_cases h with ⟨-, rfl⟩ | ⟨-, -, ⟨p, -, rfl⟩ | ⟨info, nodes, -, rfl⟩⟩
  · exact ⟨nofun, fun _ => ⟨rfl, rfl, rfl, rfl, rfl⟩⟩
  · exact ⟨fun _ => ⟨rfl, rfl⟩, fun he => by simp [State.tearDown, herr] at he⟩
  · exact ⟨nofun, fun _ => ⟨rfl, rfl, rfl, rfl, rfl⟩⟩

/-- BUILD_INDEX keeps the tree whatever its outcome. -/
theorem exec_buildIndex_treeKept {s t : State} (h : exec .buildIndex s = .next t) : s.TreeKept t := by
  rcases execBuildIndex_cases h with ⟨-, rfl⟩ | ⟨-, T, -, ⟨-, rfl⟩ | ⟨j, -, rfl⟩⟩ <;>
    exact treeKept_of_arena rfl rfl

theorem exec_buildIndex_validity {s t : State} (herr : s.status.err = false) (h : exec .buildIndex s = .next t) :
    (t.status.err = false → t.status.treeValid = true ∧ t.status.indexValid = true) ∧
    (t.status.err = true → t.errCode = .noTree →
      t.status.treeValid = false ∧ t.status.indexValid = s.status.indexValid) ∧
    (t.status.err = true → t.errCode = .invalidTreeFormat →
      t.status.treeValid = true ∧ t.status.indexValid = false) := by
  rcases execBuildIndex_cases h with ⟨hv, rfl⟩ | ⟨hv, T, -, ⟨-, rfl⟩ | ⟨j, -, rfl⟩⟩
  · exact ⟨nofun, fun _ _ => ⟨hv, rfl⟩, nofun⟩
  · exact ⟨fun _ => ⟨hv, rfl⟩, fun he => by simp [herr] at he, fun he => by simp [herr] at he⟩
  · exact ⟨nofun, nofun, fun _ _ => ⟨hv, rfl⟩⟩

/-- The commands without a row of their own in R241 keep all of it, whatever their outcome. -/
theorem exec_validityKept {i : Instr} {s t : State} (h1 : i ≠ .buildTree) (h2 : i ≠ .deserializeTree)
    (h3 : i ≠ .buildIndex) (h4 : i ≠ .teardown) (h : exec i s = .next t) : s.ValidityKept t := by
  cases i with
  | heapNew cap pol => rcases execHeapNew_cases h with ⟨-, rfl⟩ | ⟨-, rfl⟩ <;> exact validityKept_of_arena rfl rfl rfl
  | heapInsert tag =>
    rcases execHeapInsert_cases h with ⟨-, rfl⟩ | ⟨-, rfl⟩ <;> exact validityKept_of_arena rfl rfl rfl
  | heapExtract => rcases execHeapExtract_cases h with ⟨-, rfl⟩ | ⟨-, rfl⟩ <;> exact validityKept_of_arena rfl rfl rfl
  | heapPeek idx => rcases execHeapPeek_cases h with ⟨-, rfl⟩ | ⟨-, rfl⟩ <;> exact validityKept_of_arena rfl rfl rfl
  | heapSize => exact execHeapSize_cases h ▸ validityKept_of_arena rfl rfl rfl
  | encode =>
    rcases execEncode_cases h with ⟨-, rfl⟩ | ⟨-, -, rfl⟩ | ⟨-, -, ⟨k, -, rfl⟩ | ⟨-, ⟨-, rfl⟩ | ⟨-, rfl⟩⟩⟩ <;>
      exact validityKept_of_arena rfl rfl rfl
  | encodeTree =>
    rcases execEncodeTree_cases h with ⟨-, rfl⟩ | ⟨-, T, -, rfl⟩ <;> exact validityKept_of_arena rfl rfl rfl
  | decode =>
    rcases execDecode_cases h with ⟨-, rfl⟩ | ⟨-, -, rfl⟩ | ⟨-, -, T, -, ⟨-, rfl⟩ | ⟨e, info, -, rfl⟩⟩ <;>
      exact validityKept_of_arena rfl rfl rfl
  | buildTree => exact absurd rfl h1
  | deserializeTree => exact absurd rfl h2
  | buildIndex => exact absurd rfl h3
  | teardown => exact absurd rfl h4

/-! ## The statements -/

/-- Settles O49: TEARDOWN is `State.tearDown`, which writes the two bits and the tree registers, and completes. -/
theorem teardownDropsTreeAndIndex : Obligations.TeardownDropsTreeAndIndex := fun _ => rfl

/-- Settles O50, row by row of R241: reset, the other host events, illegal words, and the commands. -/
theorem validityLifecycle : Obligations.ValidityLifecycle := by
  unfold Obligations.ValidityLifecycle
  intro kept noTree
  refine ⟨⟨rfl, rfl, rfl, rfl, rfl⟩, fun s t ha h => ?_, fun s t w => step_illegal_validityKept, fun i s t herr h => ?_⟩
  · rw [(step_eq s).1 ha] at h
    exact ⟨fun hq => hostStep_reset hq h, fun hq => validityKept_of_sameStorage (hostStep_sameStorage hq h)⟩
  · refine ⟨?_, ?_, ?_, ?_, ?_, ?_, ?_, ?_, ?_, fun h1 h2 h3 h4 => exec_validityKept h1 h2 h3 h4 h⟩ <;> rintro rfl
    · exact (exec_buildTree_validity herr h).1
    · exact (exec_buildTree_validity herr h).2
    · exact (exec_deserializeTree_validity herr h).1
    · exact (exec_deserializeTree_validity herr h).2
    · exact exec_buildIndex_treeKept h
    · exact (exec_buildIndex_validity herr h).1
    · obtain ⟨-, hnoTree, -⟩ := exec_buildIndex_validity herr h
      exact hnoTree
    · obtain ⟨-, -, hformat⟩ := exec_buildIndex_validity herr h
      exact hformat
    · exact execTeardown_cases h ▸ treeDropped_tearDown_complete s

end Sys2Proof.Machine
end

section
/-! PROOFS. How a DECODE fails (43_message_codec.md R215): the nodes the steps of a code pass through, the bit at which
OUT is full, and the end of a bitstream inside a code (O45, O47). -/

namespace Sys2Proof.Machine

/-! ## Inside a code -/

/-- A code that has a step below a subtree's path passes through a node there, towards the child of that step. -/
theorem exists_node_of_step {c : Tree} {path rest : List Bool} {b : Bool} {x : CodedLeaf}
    (hx : x ∈ c.codedLeaves path) (hp : x.path = path ++ b :: rest) :
    ∃ m l r, c = .node m l r ∧ x ∈ ((Tree.node m l r).child b).codedLeaves (path ++ [b]) := by
  cases c with
  | leaf m v =>
    obtain rfl : x = ⟨m, v, path⟩ := List.mem_singleton.mp hx
    simp at hp
  | node m l r =>
    have step {d : Bool} (h : path ++ [d] <+: x.path) : d = b := by
      rw [hp, List.prefix_append_right_inj, List.cons_prefix_cons] at h
      exact h.1
    refine ⟨m, l, r, rfl, ?_⟩
    rcases List.mem_append.mp hx with hx | hx <;> rw [← step (codedLeaves_prefix _ _ x hx)] <;> exact hx

/-- A code that ends at a subtree's path is that of a leaf there. -/
theorem eq_leaf_of_path {c : Tree} {x : CodedLeaf} (hx : x ∈ c.codedLeaves x.path) : ∃ m v, c = .leaf m v := by
  cases c with
  | leaf m v => exact ⟨m, v, rfl⟩
  | node m l r =>
    rcases List.mem_append.mp hx with hx | hx <;> simpa using (codedLeaves_prefix _ _ x hx).length_le

/-- The steps `q` take the decoder from the root of `T` to the node `N`, emitting nothing; after a step, `N` is one of
the nodes below the root. -/
structure Tree.Reaches (T N : Tree) (q : List Bool) : Prop where
  runs : ∀ i k rest, decodeFrom T T i k (q ++ rest) = decodeFrom T N (i + q.length) k rest
  below : N.indices.tail ⊆ T.indices.tail
  inner : q ≠ [] → N.idx ∈ T.indices.tail

theorem reaches_root (T : Tree) : T.Reaches T [] := ⟨fun _ _ _ => rfl, fun _ h => h, nofun⟩

theorem child_indices (m : Nat) (l r : Tree) (b : Bool) :
    ((Tree.node m l r).child b).indices ⊆ (Tree.node m l r).indices.tail := by
  cases b
  · exact List.subset_append_left ..
  · exact List.subset_append_right ..

/-- One step more, down to an internal node. -/
theorem Tree.Reaches.step {j m m' : Nat} {rl rr l r l' r' : Tree} {q : List Bool} {b : Bool}
    (h : (Tree.node j rl rr).Reaches (.node m l r) q) (hc : (Tree.node m l r).child b = .node m' l' r') :
    (Tree.node j rl rr).Reaches (.node m' l' r') (q ++ [b]) := by
  have hin : (Tree.node m' l' r').indices ⊆ (Tree.node j rl rr).indices.tail :=
    fun _ hi => h.below (child_indices m l r b (hc ▸ hi))
  refine ⟨fun i k rest => ?_, fun _ hi => hin (List.mem_of_mem_tail hi), fun _ => hin (Tree.idx_mem_indices _)⟩
  rw [List.append_assoc, h.runs, List.singleton_append, decodeFrom_to_node hc, List.length_append, Nat.add_assoc]
  rfl

/-- Every step of a code leaves an internal node, which the steps before it reach. -/
theorem exists_reaches {j : Nat} {rl rr : Tree} {x : CodedLeaf} {q rest : List Bool} {b : Bool}
    (hx : x ∈ (Tree.node j rl rr).codes) (hp : x.path = q ++ b :: rest) :
    ∃ m l r, (Tree.node j rl rr).Reaches (.node m l r) q ∧
      x ∈ ((Tree.node m l r).child b).codedLeaves (q ++ [b]) := by
  induction q using List.reverseRecOn generalizing b rest with
  | nil =>
    obtain ⟨m, l, r, e, hleaf⟩ := exists_node_of_step (path := []) hx hp
    exact ⟨m, l, r, e ▸ reaches_root _, hleaf⟩
  | append_singleton q d ih =>
    obtain ⟨m, l, r, hreach, hd⟩ := ih (b := d) (rest := b :: rest) (by rw [hp, List.append_assoc]; rfl)
    obtain ⟨m', l', r', hc, hb⟩ := exists_node_of_step hd hp
    exact ⟨m', l', r', hreach.step hc, hb⟩

theorem path_ne_nil {T : Tree} {x : CodedLeaf} (hx : x ∈ T.codes) : x.path ≠ [] := by
  cases T with
  | leaf n v => exact List.mem_singleton.mp hx ▸ List.cons_ne_nil _ _
  | node n l r =>
    intro hp
    obtain ⟨m, v, e⟩ := eq_leaf_of_path (hp ▸ hx : x ∈ (Tree.node n l r).codedLeaves x.path)
    cases e

/-! ## The errors of a decode -/

/-- With OUT full the last bit of a code is the one reported (60_exceptions.md R260). -/
theorem decodeFrom_code_full {T : Tree} {x : CodedLeaf} (hx : x ∈ T.codes) (i : Nat) (rest : List Bool) :
    decodeFrom T T i Config.outMax (x.path ++ rest) = ⟨[], some (.bufferOverflow, i + (x.path.length - 1))⟩ := by
  obtain ⟨q, b, hp⟩ := (List.eq_nil_or_concat' x.path).resolve_left (path_ne_nil hx)
  cases T with
  | leaf n v =>
    obtain rfl : x = ⟨n, v, [false]⟩ := List.mem_singleton.mp hx
    rfl
  | node n rl rr =>
    obtain ⟨m, l, r, hreach, hleaf⟩ := exists_reaches hx hp
    obtain ⟨m', v, hc⟩ := eq_leaf_of_path (hp ▸ hleaf)
    rw [hp, List.append_assoc, hreach.runs, List.singleton_append, List.length_append, List.length_singleton,
      Nat.add_sub_cancel]
    simp only [decodeFrom, hc, if_pos]

/-- A bitstream that ends inside a code is reported at its end (60_exceptions.md R255): a node below the root is not
the root, as each entry of the arena is one node. -/
theorem decodeFrom_inside_code {T : Tree} {x : CodedLeaf} {q rest : List Bool} (hT : T.indices.Nodup)
    (hx : x ∈ T.codes) (hp : x.path = q ++ rest) (hq : q ≠ []) (hrest : rest ≠ []) (i k : Nat) :
    decodeFrom T T i k q = ⟨[], some (.malformedBitstream, i + q.length)⟩ := by
  obtain ⟨b, rest, rfl⟩ := List.exists_cons_of_ne_nil hrest
  cases T with
  | leaf n v =>
    obtain rfl : x = ⟨n, v, [false]⟩ := List.mem_singleton.mp hx
    obtain ⟨d, q, rfl⟩ := List.exists_cons_of_ne_nil hq
    simp at hp
  | node n rl rr =>
    obtain ⟨m, l, r, hreach, -⟩ := exists_reaches hx hp
    have hne : m ≠ n := fun e => (List.nodup_cons.mp hT).1 (e ▸ hreach.inner hq)
    have hrun := hreach.runs i k []
    rw [List.append_nil] at hrun
    rw [hrun, decodeFrom, Tree.idx, Tree.idx, if_neg hne]

/-- In a tree of one leaf the first 1 bit is reported, with OUT full as well (43_message_codec.md R215). -/
theorem decodeFrom_leaf_one (n : Nat) (v : Byte) (i k : Nat) (rest : List Bool) :
    decodeFrom (.leaf n v) (.leaf n v) i k (true :: rest) = ⟨[], some (.malformedBitstream, i)⟩ := rfl

/-- `k` codes of a single leaf are `k` zeros (43_message_codec.md R211). -/
theorem codes_of_single_leaf (n : Nat) (v : Byte) (k : Nat) :
    (List.replicate k (⟨n, v, [false]⟩ : CodedLeaf)).flatMap (·.path) = List.replicate k false := by
  simp [List.flatMap_replicate]

/-! ## DECODE -/

section
variable {s : State} {T : Tree} (hv : s.status.treeValid = true) (hlen : s.mbsLen.toNat ≤ Config.mbsBits)
  (hT : s.arena.tree = some T)
include hv hlen hT

/-- A DECODE whose walk ends in an error reports it and leaves OUT_LEN = 0. -/
theorem exec_decode_of_error {e : ErrCode} {info : Nat}
    (he : (decodeFrom T T 0 0 s.messageBits).error = some (e, info)) :
    exec .decode s = .next ((s.emit s.emitted 0#32).raise e (BitVec.ofNat 32 info)) := by
  rw [emitted_of_tree hv hlen hT]
  simp only [exec, execDecode, hv, Bool.not_true, Bool.false_eq_true, if_false, if_neg (Nat.not_lt.mpr hlen), hT]
  generalize decodeFrom T T 0 0 s.messageBits = d at he
  obtain ⟨bytes, error⟩ := d
  subst he
  rfl

/-- Whole codes, at most 65536, and then the bits `tail`, on which the walk fails. -/
theorem exec_decode_of_codes_then_error {ps : List CodedLeaf} {tail : List Bool} {e : ErrCode} {info : Nat}
    (hps : ∀ p ∈ ps, p ∈ T.codes) (hn : ps.length ≤ Config.outMax)
    (hbits : s.messageBits = ps.flatMap (·.path) ++ tail)
    (he : (decodeFrom T T (ps.flatMap (·.path)).length ps.length tail).error = some (e, info)) :
    ∃ t, exec .decode s = .next t ∧ t.errCode = e ∧ t.status.err = true ∧ t.outLen = 0#32 ∧
      t.errInfo = BitVec.ofNat 32 info := by
  have herror : (decodeFrom T T 0 0 s.messageBits).error = some (e, info) := by
    rw [hbits, decodeFrom_codes hps 0 tail (by omega), Nat.zero_add, Nat.zero_add]
    exact he
  exact ⟨_, exec_decode_of_error hv hlen hT herror, rfl, rfl, rfl, rfl⟩

end

/-- Settles O47: a length above MBS_BITS, a 1 bit in a tree of one leaf, and an end inside a code. -/
theorem malformedBitstreamsAreReported : Obligations.MalformedBitstreamsAreReported := by
  refine ⟨fun s hv (hlen : Config.mbsBits < _) => ?_, fun s n v k rest hv hlen hT hk hbits => ?_,
    fun s T ps x q rest hv hlen hT hps hn hx hp hq hrest hbits => ?_⟩
  · simp only [exec, execDecode, hv, Bool.not_true, Bool.false_eq_true, if_false, if_pos hlen]
  · rw [← codes_of_single_leaf n v k] at hbits
    refine exec_decode_of_codes_then_error hv hlen hT (fun p hp => ?_) (by rwa [List.length_replicate]) hbits ?_
    · exact List.mem_singleton.mpr (List.eq_of_mem_replicate hp)
    · rw [codes_of_single_leaf, List.length_replicate, decodeFrom_leaf_one]
  · obtain ⟨htree, hperm, -⟩ := hT
    have hbitLen : (ps.flatMap (·.path)).length + q.length = s.mbsLen.toNat := by
      rw [← List.length_append, ← hbits, messageBits_length]
    have hinfo : s.mbsLen = BitVec.ofNat 32 ((ps.flatMap (·.path)).length + q.length) := by
      rw [hbitLen, BitVec.ofNat_toNat, BitVec.setWidth_eq]
    rw [hinfo]
    refine exec_decode_of_codes_then_error hv hlen htree hps hn hbits ?_
    rw [decodeFrom_inside_code (hperm.nodup_iff.mpr List.nodup_range) hx hp hq hrest]

/-- Settles O45: the two lengths above a message buffer, the encoded length above MBS_BITS, and the 65537th code. -/
theorem lengthsBeyondABufferOverflow : Obligations.LengthsBeyondABufferOverflow := by
  refine ⟨fun s (hlen : Config.msgMax < _) => ?_, fun s hv (hlen : Config.msgMax < _) => ?_,
    fun s hv (hlen : _ ≤ Config.msgMax) hcodes => ?_, fun s T ps x rest hv hlen hT hps hx hn hbits => ?_⟩
  · have hne : s.msgLen ≠ 0#32 := fun e => by simp [e] at hlen
    simp only [exec, execBuildTree, if_neg hne, if_pos hlen]
  · simp only [exec, execEncode, hv, Bool.not_true, Bool.false_eq_true, if_false, if_pos hlen]
  · intro total (htotal : Config.mbsBits < encodedLength s.code s.message)
    simp only [exec, execEncode, hv, Bool.not_true, Bool.false_eq_true, if_false, if_neg (Nat.not_lt.mpr hlen),
      firstUncoded_eq_none hcodes, if_pos htotal]
    rfl
  · have hbits : s.messageBits = ps.flatMap (·.path) ++ (x.path ++ rest) := by rw [hbits, List.append_assoc]
    obtain ⟨t, hexec, hcode, herr, hout, hinfo⟩ := exec_decode_of_codes_then_error hv hlen hT hps (Nat.le_of_eq hn)
      hbits (by rw [hn]; exact congrArg Decoded.error (decodeFrom_code_full hx _ rest))
    refine ⟨t, hexec, hcode, herr, hout, ?_⟩
    have hpos := List.length_pos_iff.mpr (path_ne_nil hx)
    have hbitLen := congrArg List.length hbits
    rw [messageBits_length, List.length_append, List.length_append] at hbitLen
    rw [hinfo, BitVec.toNat_ofNat, Nat.mod_eq_of_lt (by omega)]
    omega

end Sys2Proof.Machine
end

section
/-! PROOFS. The causes of the exceptions of 60_exceptions.md, code by code (O9, O23, O27, O44), and what a failed command
leaves (R262; O53). -/

namespace Sys2Proof.Machine

/-! ## The causes -/

/-- Settles O23: a full heap gives no heap to complete with, and BUILD_TREE has two errors, neither of them this. -/
theorem fullHeapRejectsAnInsert : Obligations.FullHeapRejectsAnInsert := by
  refine ⟨fun tag s hfull => ?_, fun s t h hcode => ?_⟩
  · rw [BitVec.ofNat_toNat]
    simp only [exec, execHeapInsert, Heap.insert, if_pos hfull]
  · rcases execBuildTree_cases h with ⟨-, rfl⟩ | ⟨-, -, rfl⟩ | ⟨-, -, rfl⟩
    · cases hcode
    · cases hcode
    · exact hcode

/-- Settles O27: BUILD_TREE checks MSG_LEN = 0 first. -/
theorem emptyMessageIsRefused : Obligations.EmptyMessageIsRefused := fun s hlen => by
  simp only [exec, execBuildTree, if_pos hlen]

/-- The first byte without a valid code entry is the one reported. -/
theorem firstUncoded_eq_some {code : Vector CodeEntry Config.symbols} {m : List Byte} {k : Nat} {b : Byte}
    (hb : m[k]? = some b) (hbad : (tableGet code b.toNat).valid = false)
    (hgood : ∀ j c, j < k → m[j]? = some c → (tableGet code c.toNat).valid = true) (i : Nat) :
    firstUncoded code i m = some (i + k) := by
  induction m generalizing k i with
  | nil => cases hb
  | cons a m ih =>
    cases k with
    | zero =>
      cases hb
      simp only [firstUncoded, hbad, Bool.false_eq_true, if_false, Nat.add_zero]
    | succ k =>
      rw [firstUncoded, if_pos (hgood 0 a k.succ_pos rfl),
        ih hb (fun j c hj hc => hgood (j + 1) c (Nat.succ_lt_succ hj) hc), Nat.add_assoc, Nat.add_comm 1]

/-- Settles O44: TREE_VALID and INDEX_VALID are checked first, then the message byte by byte. -/
theorem missingTreeIndexOrCodeIsReported : Obligations.MissingTreeIndexOrCodeIsReported := by
  refine ⟨fun s hv => ⟨?_, ?_, ?_⟩, fun s hv => ?_, fun s k b hv (hlen : _ ≤ Config.msgMax) hb hbad hgood => ?_⟩
  · simp only [exec, execBuildIndex, hv, Bool.false_eq_true, if_false]
  · simp only [exec, execEncodeTree, hv, Bool.false_eq_true, if_false]
  · simp only [exec, execDecode, hv, Bool.not_false, if_true]
  · simp only [exec, execEncode, hv, Bool.not_false, if_true]
  · simp only [exec, execEncode, hv, Bool.not_true, Bool.false_eq_true, if_false, if_neg (Nat.not_lt.mpr hlen),
      firstUncoded_eq_some hb hbad hgood, Nat.zero_add]

/-! ## Completions (R261) -/

/-- Settles O9: what every completion reports, and that no command writes OVR. -/
theorem everyCompletionReportsItsOutcome : Obligations.EveryCompletionReportsItsOutcome := by
  intro i s t h
  obtain ⟨hbusy, hdone, hpending, herror⟩ := exec_reportedBy h
  obtain ⟨⟨-, -, -, -, -, hovr⟩, -⟩ := eachCommandWritesOnlyItsStorage i s t h
  exact ⟨hbusy, hdone, hovr, hpending, herror⟩

/-! ## What a failed command leaves (R262) -/

/-- A failure that writes nothing but the registers of R261. -/
def State.OnlyRaised (s t : State) : Prop := t = s.raise t.errCode t.errInfo

theorem raise_onlyRaised (s : State) (e : ErrCode) (info : Word) : s.OnlyRaised (s.raise e info) := rfl

/-- With ERR clear before, a completion that leaves ERR as it was is no failure. -/
theorem complete_not_failed {s u : State} (herr : s.status.err = false) (hkept : u.status.err = s.status.err) :
    u.complete.status.err ≠ true := fun h => by
  rw [complete_status, Status.complete, hkept, herr] at h
  cases h

section
variable {s t : State} (herr : s.status.err = false)
include herr

/-- A failed command of those without a row of their own in R262. -/
theorem exec_onlyRaised {i : Instr} (h1 : i ≠ .deserializeTree) (h2 : i ≠ .buildIndex) (h3 : i ≠ .decode)
    (h : exec i s = .next t) (hfail : t.status.err = true) : s.OnlyRaised t := by
  cases i with
  | heapNew cap pol =>
    rcases execHeapNew_cases h with ⟨-, rfl⟩ | ⟨-, rfl⟩
    · exact absurd hfail (complete_not_failed herr rfl)
    · exact raise_onlyRaised ..
  | heapInsert tag =>
    rcases execHeapInsert_cases h with ⟨-, rfl⟩ | ⟨-, rfl⟩
    · exact absurd hfail (complete_not_failed herr rfl)
    · exact raise_onlyRaised ..
  | heapExtract =>
    rcases execHeapExtract_cases h with ⟨-, rfl⟩ | ⟨-, rfl⟩ <;> exact absurd hfail (complete_not_failed herr rfl)
  | heapPeek idx =>
    rcases execHeapPeek_cases h with ⟨-, rfl⟩ | ⟨-, rfl⟩ <;> exact absurd hfail (complete_not_failed herr rfl)
  | heapSize => exact absurd hfail (execHeapSize_cases h ▸ complete_not_failed herr rfl)
  | buildTree =>
    rcases execBuildTree_cases h with ⟨-, rfl⟩ | ⟨-, -, rfl⟩ | ⟨-, -, rfl⟩
    · exact raise_onlyRaised ..
    · exact raise_onlyRaised ..
    · exact absurd hfail (complete_not_failed herr rfl)
  | encode =>
    rcases execEncode_cases h with ⟨-, rfl⟩ | ⟨-, -, rfl⟩ | ⟨-, -, ⟨k, -, rfl⟩ | ⟨-, ⟨-, rfl⟩ | ⟨-, rfl⟩⟩⟩
    case inr.inr.inr.inr => exact absurd hfail (complete_not_failed herr rfl)
    all_goals exact raise_onlyRaised ..
  | encodeTree =>
    rcases execEncodeTree_cases h with ⟨-, rfl⟩ | ⟨-, T, -, rfl⟩
    · exact raise_onlyRaised ..
    · exact absurd hfail (complete_not_failed herr rfl)
  | teardown => exact absurd hfail (execTeardown_cases h ▸ complete_not_failed herr rfl)
  | deserializeTree => exact absurd rfl h1
  | buildIndex => exact absurd rfl h2
  | decode => exact absurd rfl h3

/-- A failed DESERIALIZE_TREE writes the arena, STATUS and the error registers. -/
theorem exec_deserializeTree_failed (h : exec .deserializeTree s = .next t) (hfail : t.status.err = true) :
    t = ({ s with status := t.status, arena := t.arena } : State).raise t.errCode t.errInfo := by
  rcases execDeserializeTree_cases h with ⟨-, rfl⟩ | ⟨-, -, ⟨p, -, rfl⟩ | ⟨info, nodes, -, rfl⟩⟩
  · rfl
  · exact absurd hfail (complete_not_failed herr rfl)
  · rfl

/-- BUILD_INDEX has two errors: without a tree it writes nothing, at a repeated value it keeps the tree. -/
theorem exec_buildIndex_failed (h : exec .buildIndex s = .next t) (hfail : t.status.err = true) :
    (t.errCode = .noTree ∧ t = s.raise .noTree 0#32) ∨
      (t.errCode = .invalidTreeFormat ∧ t.status.indexValid = false ∧ t.arena = s.arena) := by
  rcases execBuildIndex_cases h with ⟨-, rfl⟩ | ⟨-, T, -, ⟨-, rfl⟩ | ⟨j, -, rfl⟩⟩
  · exact .inl ⟨rfl, rfl⟩
  · exact absurd hfail (complete_not_failed herr rfl)
  · exact .inr ⟨rfl, rfl, rfl⟩

end

/-- Settles O53: the commands of R262 with a row of their own, and the others. -/
theorem failedCommandsLeaveOnlyTheirListedEffects : Obligations.FailedCommandsLeaveOnlyTheirListedEffects := by
  intro i s t herr h hfail
  refine ⟨fun h1 h2 h3 => exec_onlyRaised herr h1 h2 h3 h hfail, ?_, ?_, ?_⟩ <;> rintro rfl
  · obtain ⟨hv, hi, hroot, hcount, hunique⟩ := (exec_deserializeTree_validity herr h).2 hfail
    exact ⟨hv, hi, hroot, hcount, hunique, exec_deserializeTree_failed herr h hfail⟩
  · exact exec_buildIndex_failed herr h hfail
  · obtain ⟨-, -, -, -, -, harena, -, hcode, -⟩ := eachCommandWritesOnlyItsStorage _ s t h
    exact ⟨(execDecode_emits h).failed herr hfail, harena nofun nofun nofun, hcode nofun⟩

end Sys2Proof.Machine
end

section
/-! PROOFS. Steps with and without a command in flight, and reset (70_reset_and_hazards.md R280, R281, R284, R285, R288;
O5, O6, O7, O10, O18, O20, O60). -/

namespace Sys2Proof.Machine

/-! ## Steps (R284) -/

/-- Settles O5: the completing clause of `step_eq`. -/
theorem stepRunsTheDecodedCommand : Obligations.StepRunsTheDecodedCommand := by
  intro w i s hs hd
  obtain ⟨-, -, runs, -⟩ := step_eq s
  exact runs w i hs hd

/-- A host without events leaves the state as it is (log 12). -/
theorem hostStep_of_empty {s : State} (hq : s.hostQueue = []) : hostStep s = .next s := by
  rw [hostStep, hq]

/-- Settles O6: with BUSY = 0 the host moves, and without events its step changes nothing. -/
theorem idleBlockMovesOnlyByHostEvents : Obligations.IdleBlockMovesOnlyByHostEvents := by
  intro s hb
  have hstep : step s = hostStep s := (step_eq s).1 (nextAgent_host.mpr (.inl hb))
  exact ⟨hstep, fun hq => hstep.trans (hostStep_of_empty hq)⟩

/-- Settles O10: `exec_stops` names the commands that stop, `exec_fault` the states they stop in. -/
theorem commandsCompleteUnlessTheArenaIsBroken : Obligations.CommandsCompleteUnlessTheArenaIsBroken := by
  intro i s
  by_cases h : ∃ t, exec i s = .next t
  · exact .inl h
  · obtain ⟨hi, hfault⟩ := exec_stops (not_exists.mp h)
    obtain ⟨hv, htree⟩ := exec_fault hfault
    exact .inr ⟨hi, hv, htree, hfault⟩

/-! ## Polls of a waiting host (R125, R288) -/

/-- A poll of a busy STATUS takes one event of the delay and nothing else: the `wait` stays in the queue. -/
theorem step_poll {s : State} {rest : List HostEvent} (hb : s.status.busy = true) (hq : s.hostQueue = .wait :: rest)
    (hd : s.delay ≠ 0) : step s = .next { s with delay := s.delay - 1 } := by
  rw [(step_eq s).1 (nextAgent_host.mpr (.inr ⟨hd, by simp [hq]⟩)), hostStep, hq]
  simp only [performEvent, hb, if_true]

theorem run_succ {s t : State} (h : step s = .next t) (k : Nat) :
    Host.Core.run Sys2Proof.core (k + 1) s = Host.Core.run Sys2Proof.core k t := by
  simp only [Host.Core.run, show Sys2Proof.core.step s = .next t from h]

/-- As many polls as the delay says run the delay out. -/
theorem run_polls {rest : List HostEvent} (d : Nat) (s : State) (hb : s.status.busy = true)
    (hq : s.hostQueue = .wait :: rest) (hd : s.delay = d) :
    Host.Core.run Sys2Proof.core d s = .next ({ s with delay := 0 } : State) := by
  induction d generalizing s with
  | zero =>
    show Host.Outcome.next s = _
    rw [← hd]
    rfl
  | succ d ih =>
    rw [run_succ (step_poll hb hq (by omega)), ih { s with delay := s.delay - 1 } hb hq (by simp [hd])]

/-- A word in flight that is no command completes with ILLEGAL_COMMAND (60_exceptions.md R256). -/
theorem step_illegal {s : State} {w : Word} (hs : s.completing w) (hw : ∀ i, decode w ≠ .ok i) :
    step s = .next (s.raise .illegalCommand w) := by
  obtain ⟨-, -, -, reports⟩ := step_eq s
  cases hd : decode w with
  | ok i => exact absurd hd (hw i)
  | error e => exact reports w e hs hd

/-- Settles O7: the polls by induction on the delay, then the two clauses of a completion. -/
theorem waitPollsUntilTheCommandCompletes : Obligations.WaitPollsUntilTheCommandCompletes := by
  intro s rest hb hq
  have hengine : ({ s with delay := 0 } : State).nextAgent = .engine := nextAgent_engine.mpr ⟨hb, .inl rfl⟩
  exact ⟨run_polls s.delay s hb hq rfl, hengine, fun w hp =>
    ⟨fun i => stepRunsTheDecodedCommand w i _ ⟨hengine, hp⟩, step_illegal ⟨hengine, hp⟩⟩⟩

/-! ## Accesses while BUSY = 1 (R285) -/

/-- Below the end of the CSRs every aligned offset is a CSR's (10_state.md R54). -/
theorem exists_csr_offset {off : Nat} (ha : off % 4 = 0) (h : off < 0x044) : ∃ r : Csr, r.offset = off := by
  have hall : ∀ k < 17, ∃ r ∈ Csr.inOrder, r.offset = 4 * k := by decide
  obtain ⟨r, -, hr⟩ := hall (off / 4) (by omega)
  exact ⟨r, by omega⟩

/-- A CSR has one aligned offset (20_memory.md R81). -/
theorem target_eq_csr_iff {off : Nat} (ha : off % 4 = 0) (r : Csr) : target off = .csr r ↔ off = r.offset := by
  refine ⟨fun h => ?_, by rintro rfl; exact target_offset r⟩
  have hlow : off < 0x50000 := Nat.lt_of_not_le fun hle => (target_windows hle).1 r h
  have hbuffer : ¬InBuffer off := fun hin => by rw [target_of_inBuffer hin] at h; cases h
  have hreserved : ¬((0x044 ≤ off ∧ off < 0x10000) ∨ (0x30140 ≤ off ∧ off < 0x40000)) := fun hres => by
    rw [target_reserved (by omega)] at h; cases h
  unfold InBuffer Config.msgBase Config.tbsEnd Config.mbsBase Config.nodeBase at hbuffer
  obtain ⟨r', rfl⟩ := exists_csr_offset ha (by omega)
  rw [target_offset] at h
  cases h
  rfl

/-- While BUSY = 1 only STATUS and ID read as themselves (log 10). -/
theorem readValue_busy {s : State} (hb : s.status.busy = true) {off : Nat} (ha : off % 4 = 0) :
    s.readValue off = if off = 0x008 then s.status.toWord else if off = 0x000 then 0x48554637#32
      else Config.freeWord s.draws := by
  have hstatus : target off = .csr .status ↔ off = 0x008 := target_eq_csr_iff ha .status
  have hid : target off = .csr .id ↔ off = 0x000 := target_eq_csr_iff ha .id
  rw [State.readValue, hb, Bool.true_and]
  by_cases h8 : off = 0x008
  · subst h8
    exact readOffset_csr s .status
  by_cases h0 : off = 0x000
  · subst h0
    exact readOffset_csr s .id
  · rw [if_pos (by simp [Target.readableBusy, hstatus, hid, h8, h0]), if_neg h8, if_neg h0]

/-- While BUSY = 1 a write that neither overruns nor clears OVR is refused (log 11). -/
theorem hostWrite_hazard {s : State} (hb : s.status.busy = true) {off : Nat} {w : Word} (ha : off % 4 = 0)
    (hcmd : off ≠ 0x004) (hclear : ¬(off = 0x008 ∧ w.getLsbD 3 = true)) :
    s.hostWrite off w = .refused .hazardWrite := by
  have htcmd : target off ≠ .csr .cmd := fun h => hcmd ((target_eq_csr_iff ha .cmd).mp h)
  have htclear : ¬(target off = .csr .status ∧ w.getLsbD 3 = true) := fun ⟨h, h3⟩ =>
    hclear ⟨(target_eq_csr_iff ha .status).mp h, h3⟩
  rw [State.hostWrite, if_pos hb, State.writeBusy, if_neg htcmd, if_neg htclear]

/-- Settles O18: the step is the access, and the offset says which clause of R285 it meets. -/
theorem busyHazardsAreUnspecifiedOrRefused : Obligations.BusyHazardsAreUnspecifiedOrRefused := by
  intro s rest off w hb hhost ha hoff
  have hr : (Loc.offset off).resolve = some off := if_pos hoff
  rw [(step_eq s).1 hhost]
  refine ⟨fun hq => ?_, fun hq => ?_⟩
  · rw [hostStep_read hr ha hq, ← readValue_busy hb ha]
    rfl
  · rw [hostStep_write hr ha hq]
    refine ⟨?_, hostWrite_hazard (s := { s with hostQueue := rest, delay := s.delay - 1 }) hb ha⟩
    rintro rfl h3
    exact hostWrite_status_busy (s := { s with hostQueue := rest, delay := s.delay - 1 }) hb h3

/-! ## Reset (R280, R281) -/

/-- A host step of a reset is the reset, whatever is in flight. -/
theorem hostStep_eq_platformReset {s : State} {rest : List HostEvent} (hq : s.hostQueue = .reset :: rest) :
    hostStep s = .next ({ s with hostQueue := rest, delay := s.delay - 1 } : State).platformReset := by
  rw [hostStep, hq]
  rfl

/-- Only ID and ROOT do not read 0 after reset (10_state.md R31, R49). -/
theorem readOffset_platformReset (s : State) (r : Csr) : s.platformReset.readOffset r.offset =
    if r = .id then 0x48554637#32 else if r = .root then 0x1FF#32 else 0#32 := by
  have hreset : s.platformReset.readCsr r = State.reset.readCsr r := by cases r <;> rfl
  rw [readOffset_csr, hreset]
  cases r <;> rfl

/-- Without a tree, an index, an item or a count every window reads 0 (20_memory.md R87). -/
theorem readOffset_masked {s : State} (hcount : s.arena.count = 0#10) (hindex : s.status.indexValid = false)
    (hsize : s.heap.size = 0#9) (hfreq : ∀ v, tableGet s.freq v = 0#32) {off : Nat} (h : 0x50000 ≤ off) :
    s.readOffset off = 0#32 := by
  obtain ⟨hcsr, hbuffer⟩ := target_windows h
  unfold State.readOffset
  cases ht : target off with
  | csr r => exact absurd ht (hcsr r)
  | buffer => exact absurd ht hbuffer
  | node n w => exact if_neg (by simp [hcount])
  | code v w => exact if_neg (by simp [hindex])
  | heap i w => exact if_neg (by simp [hsize])
  | freq v => exact hfreq v
  | reserved => rfl

/-- FREQ holds no count after reset, inside the table or beyond it. -/
theorem tableGet_zeros {n : Nat} (v : Nat) : tableGet (Vector.replicate n (0#32)) v = 0#32 := by
  rcases Nat.lt_or_ge v n with hv | hv
  · exact tableGet_replicate _ hv
  · exact tableGet_of_ge _ hv

/-- Settles O20: the CSRs by their offsets, the windows by their masks. -/
theorem resetGivesEveryRegisterItsValue : Obligations.ResetGivesEveryRegisterItsValue := by
  intro s rest hhost hq
  have hread := readOffset_platformReset { s with hostQueue := rest, delay := s.delay - 1 }
  refine ⟨_, ((step_eq s).1 hhost).trans (hostStep_eq_platformReset hq), rfl, rfl, rfl, rfl, ?_, hread .id, hread .root,
    fun off _ hoff _ => readOffset_masked rfl rfl rfl tableGet_zeros hoff⟩
  simp only [List.forall_mem_cons, List.not_mem_nil, false_imp_iff, implies_true, and_true]
  exact ⟨hread .cmd, hread .status, hread .errCode, hread .errInfo, hread .arg0, hread .result0, hread .result1,
    hread .msgLen, hread .tbsLen, hread .mbsLen, hread .outLen, hread .nodeCount, hread .unique, hread .heapSize,
    hread .heapCfg⟩

/-- Settles O60: reset writes no buffer byte, holds no item, no tree and no index, and reports nothing. -/
theorem resetMeetsEveryInvariant : Obligations.ResetMeetsEveryInvariant := by
  obtain ⟨hbounded, -⟩ := stepKeepsTheHeapBounded
  have hmem : State.reset.mem.wf := ⟨⟨.nil, nofun⟩, ⟨.nil, nofun⟩, nofun, nofun⟩
  have hordered : State.reset.heap.ordered := fun _ _ hsize => absurd hsize (Nat.not_lt_zero _)
  exact ⟨hmem, hbounded, hordered, ⟨rfl, nofun, nofun, fun _ => ⟨rfl, rfl⟩⟩, ⟨nofun, fun _ => ⟨rfl, rfl, rfl⟩⟩,
    nofun, nofun⟩

end Sys2Proof.Machine
end
